-- ==== Sys2Proof/Word.lean ====
section
/-!
DEFINITION. The word types of DVHSTX-CORE (rule R15): bytes, 16-bit halves, 32-bit words.
-/

namespace Sys2Proof

/-- A byte of a frame buffer, of a pixel region or of `BLOB`; a palette index, a character code, an
attribute (R15). -/
abbrev Byte := BitVec 8

/-- A 16-bit quantity: an RGB565 pixel, a timing count, a frame dimension (R15). -/
abbrev Half := BitVec 16

/-- A 32-bit word of a line buffer, a command list, the palette, the Font Cache or the host port (R15). -/
abbrev Word := BitVec 32

end Sys2Proof
end

