-- ==== Sys2Proof/Config.lean ====
section
/-!
DEFINITION. The implementation parameters of DVHSTX-CORE (00_scope.md R8 to R18, 43_font.md R108) and
the free values: what the spec leaves to the platform or calls unspecified has no body here, so that no
proof can rest on one value of it.
-/

namespace Sys2Proof

/-- `N_CH = 3`, the number of DMA channels of the ring (R8). -/
abbrev nCh : Nat := 3

/-- A channel of the ring, `0 <= k < N_CH` (R8, R43). -/
abbrev Channel := Fin 3

/-- `CELL_W = 14`, the width in pixels of one character cell on the output line (R10). -/
abbrev cellW : Nat := 14

/-- `PAL_SIZE = 256` (R11). -/
abbrev palSize : Nat := 256

/-- `VLIST_LEN = 6`, the length of the two vertical command lists (R19). -/
abbrev vlistLen : Nat := 6

/-- The pixel mode, format M (R29, R70). -/
inductive Mode where
  | rgb565
  | palette8
  | textMono
  | textAttributed
deriving DecidableEq, Repr, Inhabited

/-- The line class, format L (R70, R80). -/
inductive LineClass where
  | sync
  | blank
  | active
deriving DecidableEq, Repr, Inhabited

/-- One entry of the Timing Table: nine unsigned fields (R26, widths R15). -/
structure TimingDescriptor where
  hFp : Half
  hSw : Half
  hBp : Half
  hAct : Half
  vFp : Half
  vSw : Half
  vBp : Half
  vAct : Half
  bitClk : Word
deriving DecidableEq, Repr, Inhabited

/-- What `SELECT_TIMING` returns when an entry matches: the descriptor and the two repeat shifts
(R116). -/
structure Selection where
  timing : TimingDescriptor
  hShift : BitVec 2
  vShift : BitVec 2
deriving DecidableEq, Repr, Inhabited

/-- One glyph of the Font Glyph Store (R17, meanings R108): the two offsets are signed. -/
structure GlyphDescriptor where
  bitmapOffset : Nat
  width : Nat
  height : Nat
  xOffset : Int
  yOffset : Int
deriving DecidableEq, Repr, Inhabited

/-- The Font Glyph Store `FONT` (R17, R108).  `GLYPH_COUNT` is the length of `glyphs`, and
`glyph_descriptor(i)` its `i`-th entry. -/
structure Font where
  firstCode : Nat
  glyphH : Nat
  baseline : Nat
  glyphs : List GlyphDescriptor
  blob : List Byte
deriving DecidableEq, Repr, Inhabited

/-- The platform parameter `FLIP_NOW_POLICY` (R18, R124). -/
inductive FlipNowPolicy where
  | refuse
  | immediate
deriving DecidableEq, Repr, Inhabited

/-- The read-only data and the parameters the platform supplies (R16, R17, R18, R158): `CATALOG`,
`FONT` (absent where no font is configured), the four words `SYNCW(v, h)`, `BLANK_PIXEL_WORD`, the bit
clocks the clock bring-up reaches exactly (`CLOCK_OK` as a predicate of `BIT_CLK`, which R118 admits:
log 8) and `FLIP_NOW_POLICY`. -/
structure Platform where
  catalog : List TimingDescriptor
  font : Option Font
  syncw00 : Word
  syncw01 : Word
  syncw10 : Word
  syncw11 : Word
  blankPixel : Word
  clocks : List Word
  flipNow : FlipNowPolicy
deriving DecidableEq, Repr, Inhabited

/-- Who takes a step (R24, and the consumer of R72). -/
inductive Agent where
  /-- the application, which issues host operations -/
  | app
  /-- the completion handler -/
  | handler
  /-- the DMA ring -/
  | dma
  /-- the serial peripheral's command interpreter, as far as R72 states its contract -/
  | serial
deriving DecidableEq, Repr, Inhabited

/-- The platform of the machine: no rule gives a value to any of its members (R16, R17, R18), so it is
free (log 7).  What the machine takes of its catalog is a table as R16 has it, `Platform.tabulated` (log 26). -/
opaque Config.platform : Platform

/-- Which agent moves when the list of turns in the State is empty: free (R66, I8, I20; log 1). -/
opaque Config.turn : Nat → Agent

/-- What a frame-buffer byte holds that nothing has written since the INIT of that number: some value,
the same until the byte is written (R33, I6; log 3).  The arguments are the number of the INIT, the
buffer and the byte offset. -/
opaque Config.fbByte : Nat → Bool → Nat → Byte

/-- What a palette entry holds that nothing has written since power-on: some value, the same until the
entry is written (R39, I7; log 4). -/
opaque Config.palWord : Nat → Word

end Sys2Proof
end

