-- ==== Sys2Proof/Syntax.lean ====
section
/-!
DEFINITION. The operations of DVHSTX-CORE: one constructor for each row of spec/opcode_table.json, in the
table's order (the five formats H, C, E, M, L of rule R69 and the internal operations INT).
-/

namespace Sys2Proof

/-- An operation of the block (R7, R69).  The operands of the formats M, L and INT are not encoded: the
rule that invokes the operation supplies them. -/
inductive Instr where
  -- format H: host operations (R73, R74)
  | init (width height : Half) (mode : Mode)
  | reset
  | flipAsync
  | flipBlocking
  | flipNow
  | waitVsync
  | waitFlip
  | clear
  | writePixel (x y : Half) (value : Word)
  | writeSpanFill (x y len : Half) (value : Word)
  | writeSpanCopy (x y : Half) (data : List Word)
  | readSpan (x y len : Half)
  | palSet (index : Byte) (colour : Word)
  | palGet (index : Byte)
  | writeText (x y : Half) (bytes : List Byte) (attr : Byte) (immediate : Bool)
  -- format C: command-list words (R71, R72)
  | rawRepeat (count : BitVec 12)
  | stream (count : BitVec 12)
  -- format E: completion events (R75)
  | xfer
  | refill
  -- format M: the fill MODE selects (R97)
  | fillRgb565 (slot y : Nat)
  | fillPal8 (slot y : Nat)
  | fillTextmono (slot y : Nat)
  | fillTextattr (slot y : Nat)
  -- format L: what a line class points a channel at (R89)
  | lineSync (c : Channel)
  | lineBlank (c : Channel)
  | lineActive (c : Channel)
  -- INT: internal operations, invoked by name (R69)
  | classify (v : Nat)
  | srcrow (v : Nat)
  | vadvance
  | buildVlist
  | buildHdr
  | buildLb
  | program (c : Channel)
  | prime
  | fill (slot y : Nat)
  | slot (c : Channel) (y : Nat)
  | attrDecode (cw : Word) (a : Byte)
  | renderCharLine (code : Byte) (row : Int)
  | buildFc
  | fcLookup (code : Byte) (r : Nat)
  | selectTiming (width height : Half) (mode : Mode)
  | valid (t : TimingDescriptor)
deriving DecidableEq, Repr

/-- The encoding formats of rule R69. -/
inductive Format where
  | h
  | c
  | e
  | m
  | l
  | int
deriving DecidableEq, Repr

/-- The format of an operation's row. -/
def Instr.format : Instr → Format
  | .init _ _ _ => .h
  | .reset => .h
  | .flipAsync => .h
  | .flipBlocking => .h
  | .flipNow => .h
  | .waitVsync => .h
  | .waitFlip => .h
  | .clear => .h
  | .writePixel _ _ _ => .h
  | .writeSpanFill _ _ _ _ => .h
  | .writeSpanCopy _ _ _ => .h
  | .readSpan _ _ _ => .h
  | .palSet _ _ => .h
  | .palGet _ => .h
  | .writeText _ _ _ _ _ => .h
  | .rawRepeat _ => .c
  | .stream _ => .c
  | .xfer => .e
  | .refill => .e
  | .fillRgb565 _ _ => .m
  | .fillPal8 _ _ => .m
  | .fillTextmono _ _ => .m
  | .fillTextattr _ _ => .m
  | .lineSync _ => .l
  | .lineBlank _ => .l
  | .lineActive _ => .l
  | .classify _ => .int
  | .srcrow _ => .int
  | .vadvance => .int
  | .buildVlist => .int
  | .buildHdr => .int
  | .buildLb => .int
  | .program _ => .int
  | .prime => .int
  | .fill _ _ => .int
  | .slot _ _ => .int
  | .attrDecode _ _ => .int
  | .renderCharLine _ _ => .int
  | .buildFc => .int
  | .fcLookup _ _ => .int
  | .selectTiming _ _ _ => .int
  | .valid _ => .int

end Sys2Proof
end

