-- ==== Sys2Proof/WellFormed.lean ====
section
/-!
DEFINITION. Which terms of `Instr` are operations of the block: the operand ranges the encodings and the
rules admit.
-/

namespace Sys2Proof

/-- A payload's length is the 16-bit field `A` of `W0` (R73, R74). -/
abbrev lengthFits (n : Nat) : Bool := decide (n < 65536)

/-- A slot is an index into the largest pool, `POOL <= N_CH` (R13). -/
abbrev slotFits (n : Nat) : Bool := decide (n < nCh)

/-- Scanline numbers and rows are 16-bit counts (R15). -/
abbrev rowFits (n : Nat) : Bool := decide (n < 65536)

/-- The check on an operation's operands. -/
def Instr.wellFormed : Instr → Bool
  | .init _ _ _ => true
  | .reset => true
  | .flipAsync => true
  | .flipBlocking => true
  | .flipNow => true
  | .waitVsync => true
  | .waitFlip => true
  | .clear => true
  | .writePixel _ _ _ => true
  | .writeSpanFill _ _ _ _ => true
  | .writeSpanCopy _ _ data => lengthFits data.length
  | .readSpan _ _ _ => true
  | .palSet _ _ => true
  | .palGet _ => true
  | .writeText _ _ bytes _ _ => lengthFits bytes.length
  -- `1 <= n <= 4095` (R71)
  | .rawRepeat count => count != 0
  | .stream count => count != 0
  | .xfer => true
  | .refill => true
  | .fillRgb565 k y => slotFits k && rowFits y
  | .fillPal8 k y => slotFits k && rowFits y
  | .fillTextmono k y => slotFits k && rowFits y
  | .fillTextattr k y => slotFits k && rowFits y
  | .lineSync _ => true
  | .lineBlank _ => true
  | .lineActive _ => true
  | .classify v => rowFits v
  | .srcrow v => rowFits v
  | .vadvance => true
  | .buildVlist => true
  | .buildHdr => true
  | .buildLb => true
  | .program _ => true
  | .prime => true
  | .fill k y => slotFits k && rowFits y
  | .slot _ y => rowFits y
  | .attrDecode _ _ => true
  | .renderCharLine _ _ => true
  | .buildFc => true
  | .fcLookup _ r => rowFits r
  | .selectTiming _ _ _ => true
  | .valid _ => true

end Sys2Proof
end

