-- ==== Sys2Proof/Decode.lean ====
section
/-!
DEFINITION. The decoders of the formats H, C, E, M and L (30_encoding.md R69 to R77), total, rejecting by
name, and the encoder written from the same tables.
-/

namespace Sys2Proof

/-- Why a word or a sequence of words is no operation. -/
inductive DecodeError where
  /-- the words end before the operation does (R77 gives its length) -/
  | truncated
  /-- an `OPC` that R74 does not list (R76) -/
  | unknownOpcode (opc : Byte)
  /-- a field that must be zero is not (R73, R76) -/
  | unusedFieldSet
  /-- a word of a line that is no command word: bits 31:16 set or an opcode other than 0x1 and 0x2 (R76) -/
  | noCommandWord
  /-- the class code `0b11`, which is never produced (R70) -/
  | reservedClass
  /-- a completion event whose bit is not set (R75) -/
  | noEvent
deriving DecidableEq, Repr

/-! ## Fields -/

/-- `W0[31:24] = OPC` (R73). -/
def opcField (w : Word) : Byte := w.extractLsb' 24 8
/-- `W0[23:16] = FLG` (R73). -/
def flgField (w : Word) : Byte := w.extractLsb' 16 8
/-- `W0[15:0] = A` (R73). -/
def aField (w : Word) : Half := w.extractLsb' 0 16
/-- `W1[15:0] = X` (R73). -/
def xField (w : Word) : Half := w.extractLsb' 0 16
/-- `W1[31:16] = Y` (R73). -/
def yField (w : Word) : Half := w.extractLsb' 16 16
/-- Bits 7:0 of a word. -/
def lowByte (w : Word) : Byte := w.extractLsb' 0 8

/-- `W0` from its fields (R73). -/
def packW0 (opc flg : Byte) (a : Half) : Word := opc ++ flg ++ a
/-- `W1 = Y, X` (R73). -/
def packW1 (x y : Half) : Word := y ++ x

/-- The mode of a format M code (R70). -/
def Mode.ofCode (c : BitVec 2) : Mode :=
  if c = 0#2 then .rgb565 else if c = 1#2 then .palette8
  else if c = 2#2 then .textMono else .textAttributed

/-- The format M code of a mode (R70). -/
def Mode.code : Mode → BitVec 2
  | .rgb565 => 0#2
  | .palette8 => 1#2
  | .textMono => 2#2
  | .textAttributed => 3#2

/-- The format L code of a line class (R70). -/
def LineClass.code : LineClass → BitVec 2
  | .sync => 0#2
  | .blank => 1#2
  | .active => 2#2

/-- The opcode of a host operation (R74). -/
def Instr.opcode : Instr → Byte
  | .init _ _ _ => 0x01#8
  | .reset => 0x02#8
  | .flipAsync => 0x03#8
  | .flipBlocking => 0x04#8
  | .flipNow => 0x05#8
  | .waitVsync => 0x06#8
  | .waitFlip => 0x07#8
  | .clear => 0x08#8
  | .writePixel _ _ _ => 0x10#8
  | .writeSpanFill _ _ _ _ => 0x11#8
  | .writeSpanCopy _ _ _ => 0x12#8
  | .readSpan _ _ _ => 0x13#8
  | .palSet _ _ => 0x18#8
  | .palGet _ => 0x19#8
  | .writeText _ _ _ _ _ => 0x1A#8
  | _ => 0x00#8

/-! ## Format H -/

/-- What a format H decoder answers: the operation and the words after it. -/
abbrev Decoded := Except DecodeError (Instr × List Word)

/-- An operation without operand words and with `FLG = 0`, `A = 0` (R74). -/
def decodeBare (i : Instr) (flg : Byte) (a : Half) (rest : List Word) : Decoded :=
  if flg = 0 ∧ a = 0 then .ok (i, rest) else .error .unusedFieldSet

/-- The first `n` words, or none if there are fewer. -/
def takeWords : Nat → List Word → Option (List Word × List Word)
  | 0, ws => some ([], ws)
  | _ + 1, [] => none
  | n + 1, w :: ws =>
    match takeWords n ws with
    | some (front, rest) => some (w :: front, rest)
    | none => none

/-- A byte in the low bits of a word, the upper bits zero (R73). -/
def isByte (w : Word) : Bool := decide (w.toNat < 256)

/-- `INIT`: `FLG[1:0]` the mode, `FLG[7:2]` zero, `A` zero, `W1 = height, width` (R74, R76). -/
def decodeInit (flg : Byte) (a : Half) : List Word → Decoded
  | [] => .error .truncated
  | w1 :: rest =>
    if flg.extractLsb' 2 6 = 0#6 ∧ a = 0 then
      .ok (.init (xField w1) (yField w1) (Mode.ofCode (flg.extractLsb' 0 2)), rest)
    else .error .unusedFieldSet

/-- `WRITE_PIXEL`: `W1` the position, `W2` the value (R74). -/
def decodeWritePixel (flg : Byte) (a : Half) : List Word → Decoded
  | w1 :: w2 :: rest => decodeBare (.writePixel (xField w1) (yField w1) w2) flg a rest
  | _ => .error .truncated

/-- `WRITE_SPAN_FILL`: `A` the length, `W1` the position, `W2` the value (R74). -/
def decodeWriteSpanFill (flg : Byte) (a : Half) : List Word → Decoded
  | w1 :: w2 :: rest =>
    decodeBare (.writeSpanFill (xField w1) (yField w1) a w2) flg 0 rest
  | _ => .error .truncated

/-- `WRITE_SPAN_COPY`: `A` the length, `W1` the position, then `A` payload words (R74). -/
def decodeWriteSpanCopy (flg : Byte) (a : Half) : List Word → Decoded
  | [] => .error .truncated
  | w1 :: rest =>
    match takeWords a.toNat rest with
    | none => .error .truncated
    | some (data, rest) => decodeBare (.writeSpanCopy (xField w1) (yField w1) data) flg 0 rest

/-- `READ_SPAN`: `A` the length, `W1` the position (R74). -/
def decodeReadSpan (flg : Byte) (a : Half) : List Word → Decoded
  | [] => .error .truncated
  | w1 :: rest => decodeBare (.readSpan (xField w1) (yField w1) a) flg 0 rest

/-- `PAL_SET`: `A[7:0]` the index, `A[15:8]` zero, the value word the colour (R74). -/
def decodePalSet (flg : Byte) (a : Half) : List Word → Decoded
  | [] => .error .truncated
  | w2 :: rest =>
    decodeBare (.palSet (a.extractLsb' 0 8) w2) flg (0#8 ++ a.extractLsb' 8 8) rest

/-- `PAL_GET`: `A[7:0]` the index, `A[15:8]` zero (R74). -/
def decodePalGet (flg : Byte) (a : Half) (rest : List Word) : Decoded :=
  decodeBare (.palGet (a.extractLsb' 0 8)) flg (0#8 ++ a.extractLsb' 8 8) rest

/-- `WRITE_TEXT`: `FLG[0]` immediate, `FLG[7:1]` zero, `A` the length, `W1` the position, `W2[7:0]` the
attribute, then `A` payload words of one byte (R74). -/
def decodeWriteText (flg : Byte) (a : Half) : List Word → Decoded
  | w1 :: w2 :: rest =>
    match takeWords a.toNat rest with
    | none => .error .truncated
    | some (data, rest) =>
      if flg.extractLsb' 1 7 = 0#7 ∧ isByte w2 ∧ data.all isByte then
        .ok (.writeText (xField w1) (yField w1) (data.map lowByte) (lowByte w2)
          (flg.extractLsb' 0 1 == 1#1), rest)
      else .error .unusedFieldSet
  | _ => .error .truncated

/-- The operation that the opcode of `W0` selects (R74), from the words after `W0`. -/
def decodeOp (opc flg : Byte) (a : Half) (rest : List Word) : Decoded :=
  if opc = 0x01#8 then decodeInit flg a rest
  else if opc = 0x02#8 then decodeBare .reset flg a rest
  else if opc = 0x03#8 then decodeBare .flipAsync flg a rest
  else if opc = 0x04#8 then decodeBare .flipBlocking flg a rest
  else if opc = 0x05#8 then decodeBare .flipNow flg a rest
  else if opc = 0x06#8 then decodeBare .waitVsync flg a rest
  else if opc = 0x07#8 then decodeBare .waitFlip flg a rest
  else if opc = 0x08#8 then decodeBare .clear flg a rest
  else if opc = 0x10#8 then decodeWritePixel flg a rest
  else if opc = 0x11#8 then decodeWriteSpanFill flg a rest
  else if opc = 0x12#8 then decodeWriteSpanCopy flg a rest
  else if opc = 0x13#8 then decodeReadSpan flg a rest
  else if opc = 0x18#8 then decodePalSet flg a rest
  else if opc = 0x19#8 then decodePalGet flg a rest
  else if opc = 0x1A#8 then decodeWriteText flg a rest
  else .error (.unknownOpcode opc)

/-- The host operation at the head of the host port's words (R73, R74). -/
def decodeH : List Word → Decoded
  | [] => .error .truncated
  | w0 :: rest => decodeOp (opcField w0) (flgField w0) (aField w0) rest

/-! ## Formats C, E, M, L -/

/-- A command word of a line: bits 31:16 zero, `OP` in bits 15:12, `COUNT` in bits 11:0 (R71).  A count
of 0 is decoded and refused at execution (log 13). -/
def decodeC (w : Word) : Except DecodeError Instr :=
  if w.extractLsb' 12 20 = 0x00001#20 then .ok (.rawRepeat (w.extractLsb' 0 12))
  else if w.extractLsb' 12 20 = 0x00002#20 then .ok (.stream (w.extractLsb' 0 12))
  else .error .noCommandWord

/-- The completion event of channel `ch` in the vector `INTS` (R75): the handler's invocation. -/
def decodeE (ints : BitVec 3) (ch : Channel) : Except DecodeError Instr :=
  if ints.getLsbD ch.val then .ok .refill else .error .noEvent

/-- The fill a format M code selects (R97): all four codes are legal (R76). -/
def decodeM (code : BitVec 2) (slot y : Nat) : Instr :=
  match Mode.ofCode code with
  | .rgb565 => .fillRgb565 slot y
  | .palette8 => .fillPal8 slot y
  | .textMono => .fillTextmono slot y
  | .textAttributed => .fillTextattr slot y

/-- What a format L code selects for channel `c` (R89): `0b11` is never produced (R70). -/
def decodeL (code : BitVec 2) (c : Channel) : Except DecodeError Instr :=
  if code = 0#2 then .ok (.lineSync c)
  else if code = 1#2 then .ok (.lineBlank c)
  else if code = 2#2 then .ok (.lineActive c)
  else .error .reservedClass

/-! ## The encoder -/

/-- A byte as a payload or operand word, upper bits zero (R73). -/
def byteWord (b : Byte) : Word := 0#24 ++ b

/-- `CMDW(op, n) = (op << 12) | n` (R71). -/
def cmdWord (op : BitVec 4) (count : BitVec 12) : Word := 0#16 ++ op ++ count

/-- The one-hot event word of a channel, `1 << k` (R75). -/
def eventWord (k : Channel) : BitVec 3 := 1#3 <<< k.val

/-- The words of an operation of format H or C, and the code of an operation of format M or L as one
word.  The events of format E and the internal operations have no words (R69, R75). -/
def encode : Instr → List Word
  | .init width height mode => [packW0 0x01#8 (0#6 ++ mode.code) 0, packW1 width height]
  | .reset => [packW0 0x02#8 0 0]
  | .flipAsync => [packW0 0x03#8 0 0]
  | .flipBlocking => [packW0 0x04#8 0 0]
  | .flipNow => [packW0 0x05#8 0 0]
  | .waitVsync => [packW0 0x06#8 0 0]
  | .waitFlip => [packW0 0x07#8 0 0]
  | .clear => [packW0 0x08#8 0 0]
  | .writePixel x y value => [packW0 0x10#8 0 0, packW1 x y, value]
  | .writeSpanFill x y len value => [packW0 0x11#8 0 len, packW1 x y, value]
  | .writeSpanCopy x y data => packW0 0x12#8 0 (BitVec.ofNat 16 data.length) :: packW1 x y :: data
  | .readSpan x y len => [packW0 0x13#8 0 len, packW1 x y]
  | .palSet index colour => [packW0 0x18#8 0 (0#8 ++ index), colour]
  | .palGet index => [packW0 0x19#8 0 (0#8 ++ index)]
  | .writeText x y bytes attr immediate =>
    packW0 0x1A#8 (0#7 ++ BitVec.ofBool immediate) (BitVec.ofNat 16 bytes.length) :: packW1 x y ::
      byteWord attr :: bytes.map byteWord
  | .rawRepeat count => [cmdWord 0x1#4 count]
  | .stream count => [cmdWord 0x2#4 count]
  | .xfer => []
  | .refill => []
  | .fillRgb565 _ _ => [0#30 ++ Mode.code .rgb565]
  | .fillPal8 _ _ => [0#30 ++ Mode.code .palette8]
  | .fillTextmono _ _ => [0#30 ++ Mode.code .textMono]
  | .fillTextattr _ _ => [0#30 ++ Mode.code .textAttributed]
  | .lineSync _ => [0#30 ++ LineClass.code .sync]
  | .lineBlank _ => [0#30 ++ LineClass.code .blank]
  | .lineActive _ => [0#30 ++ LineClass.code .active]
  | .classify _ => []
  | .srcrow _ => []
  | .vadvance => []
  | .buildVlist => []
  | .buildHdr => []
  | .buildLb => []
  | .program _ => []
  | .prime => []
  | .fill _ _ => []
  | .slot _ _ => []
  | .attrDecode _ _ => []
  | .renderCharLine _ _ => []
  | .buildFc => []
  | .fcLookup _ _ => []
  | .selectTiming _ _ _ => []
  | .valid _ => []

/-! ## The table's numbering -/

/-- How many words the operation of `W0` takes after `W0` (R74, R77); for a format C word, the one data
word that follows it. -/
def wordsAfter (w0 : Word) : Nat :=
  let a := (aField w0).toNat
  match (opcField w0).toNat with
  | 0x00 => 1
  | 0x01 => 1
  | 0x10 => 2
  | 0x11 => 2
  | 0x12 => 1 + a
  | 0x13 => 1
  | 0x18 => 1
  | 0x1A => 2 + a
  | _ => 0

/-- The 32-bit word number `k` of the number `w`, the first word in its least significant bits. -/
def tableWord (w k : Nat) : Word := BitVec.ofNat 32 (w / 4294967296 ^ k)

/-- The words of the operation whose bits are `w`, every bit above the table's width zero. -/
def tableWords (w : Nat) : List Word :=
  (List.range (wordsAfter (tableWord w 0) + 1)).map (tableWord w)

/-- Is the first word of format C: its bits 31:16 are zero, and no opcode of R74 is 0. -/
def isFormatC (w0 : Word) : Bool := opcField w0 == 0#8

/-- The operation the decoders read from an operation whose bits are `w`.  The codes of 8 bits or fewer
are read as format M (log 16); a 32-bit word with `OPC = 0` as format C, any other as format H. -/
def decodeTableWord (nbits w : Nat) : Option Instr :=
  if nbits ≤ 8 then
    if w < 4 then some (decodeM (BitVec.ofNat 2 w) 0 0) else none
  else if isFormatC (tableWord w 0) then (decodeC (tableWord w 0)).toOption
  else
    match decodeH (tableWords w) with
    | .ok (i, _) => some i
    | .error _ => none

end Sys2Proof
end

