-- ==== Sys2Proof/Machine/Catalog.lean ====
section
/-!
DEFINITION. The Timing Table as rule R16 has it: a finite ordered list of descriptors with pairwise distinct
`(H_ACT, V_ACT)` pairs.
-/

namespace Sys2Proof.Machine

/-- Two descriptors of one native size, the key of the table (R16). -/
def sameSize (t u : TimingDescriptor) : Bool := t.hAct == u.hAct && t.vAct == u.vAct

/-- The `(H_ACT, V_ACT)` pairs of a catalog are pairwise distinct (R16). -/
def catalogOk : List TimingDescriptor → Bool
  | [] => true
  | t :: ts => ts.all (fun u => !sameSize t u) && catalogOk ts

/-- The catalog that a list of descriptors makes: of the entries of one size the first (R16; log 26). -/
def distinctSizes : List TimingDescriptor → List TimingDescriptor
  | [] => []
  | t :: ts => t :: (distinctSizes ts).filter fun u => !sameSize t u

/-- A platform whose catalog is one R16 allows; a platform with such a catalog is itself (log 26). -/
def Platform.tabulated (p : Platform) : Platform := { p with catalog := distinctSizes p.catalog }

end Sys2Proof.Machine
end

