-- ==== Sys2Proof/Machine/State.lean ====
section
/-!
DEFINITION. The state of DVHSTX-CORE as plain data (10_state.md R26 to R52, 20_memory.md R53), the reasons a step
can stop, and the state after reset (R50, R157).
-/

namespace Sys2Proof.Machine

/-- One element for each of the three channels (R8). -/
structure PerChannel (α : Type) where
  k0 : α
  k1 : α
  k2 : α
deriving DecidableEq, Repr

/-- `SRC`: the region a transfer reads, always from its word 0 (R43). -/
inductive Src where
  | clOn
  | clOff
  | lb (s : Nat)
deriving DecidableEq, Repr

/-- A transfer descriptor `DESC[k] = (SRC, COUNT)`, the count in 32-bit words (R43). -/
structure Descriptor where
  src : Src
  count : Nat
deriving DecidableEq, Repr

/-- A line buffer: `HDR_LEN` header words, and the `4 * LINE_WORDS` bytes of the pixel region (R36,
R56). -/
structure LineBuffer where
  header : List Word
  pix : List Byte
deriving DecidableEq, Repr

/-- The host operation under way: the buffer its target choice captured (false is `FB[0]`), the next
unit or byte, what remains of it, or the wait it is in (R62 (d), R126; log 2). -/
inductive HostOp where
  /-- `CLEAR`: the byte at `off` is the next to be zeroed -/
  | clear (buf : Bool) (off : Nat)
  /-- `WRITE_PIXEL`: its one access is still to be made -/
  | pixel (buf : Bool) (n : Nat) (value : Word)
  /-- `WRITE_SPAN_FILL`: `len` units from `n` on remain -/
  | spanFill (buf : Bool) (n len : Nat) (value : Word)
  /-- `WRITE_SPAN_COPY`: the elements that remain, the first for unit `n` -/
  | spanCopy (buf : Bool) (n : Nat) (data : List Word)
  /-- `READ_SPAN`: `len` units from `n` on remain, `got` has been read -/
  | readSpan (buf : Bool) (n len : Nat) (got : List Word)
  /-- `WRITE_TEXT`: the codes that remain, the first for cell `n`; `attrNext` when that cell's code is
  written and its attribute is not -/
  | text (buf : Bool) (n : Nat) (bytes : List Byte) (attr : Byte) (attrNext : Bool)
  /-- `WAIT_FLIP`: waiting for `EVENT`, or awake with its re-check to be made -/
  | waitFlip (asleep : Bool)
  /-- `WAIT_VSYNC`: waiting for `EVENT`, or awake with its re-check to be made -/
  | waitVsync (asleep : Bool)
deriving DecidableEq, Repr

/-- A run on the serial output (R72): a raw data word held for some pixel periods, or some pixels taken
from data words through the per-mode expansion, which is outside the block (R5 (e), I18). -/
inductive WireRun where
  | raw (data : Word) (periods : Nat)
  | pixels (periods : Nat) (data : List Word)
deriving DecidableEq, Repr

/-- What the last internal operation run by name returned (R23 "result"; log 15). -/
inductive Result where
  | nothing
  | lineClass (c : LineClass)
  | number (n : Nat)
  | word (w : Word)
  | bytes (bs : List Byte)
  | selection (sel : Option Selection)
  | flag (b : Bool)
deriving DecidableEq, Repr

/-- The machine. -/
structure State where
  /-- `CATALOG`, `FONT` and the platform parameters (R16, R17, R18), never written; the sizes of the
  catalog are pairwise distinct at reset, and so ever after (R16, `State.Inv`) -/
  plat : Platform
  /-- `S0 INITED` (R27) -/
  inited : Bool
  /-- `S1..S9`, the selected descriptor (R28) -/
  timing : TimingDescriptor
  /-- `S10 MODE` (R29) -/
  mode : Mode
  /-- `S11 H_SHIFT` (R30) -/
  hShift : BitVec 2
  /-- `S12 V_SHIFT` (R30) -/
  vShift : BitVec 2
  /-- `S13 FRAME_W` (R31) -/
  frameW : Half
  /-- `S14 FRAME_H` (R31) -/
  frameH : Half
  /-- the bytes of `FB[0]` written since INIT (R33) -/
  fb0 : List Host.Cell
  /-- the bytes of `FB[1]` written since INIT (R33) -/
  fb1 : List Host.Cell
  /-- `S20 FRONT` (R34): false when `FB[0]` is the front buffer -/
  front : Bool
  /-- `S21 FLIP_REQ` (R35) -/
  flipReq : Bool
  /-- `LB[0] .. LB[POOL-1]` (R36) -/
  lb : List LineBuffer
  /-- `S22 V_SCANLINE` (R37) -/
  vScanline : Half
  /-- `CL_ON` (R38) -/
  clOn : List Word
  /-- `CL_OFF` (R38) -/
  clOff : List Word
  /-- `HDR` (R38) -/
  hdr : List Word
  /-- the entries of `PAL` written since power-on (R39) -/
  pal : List (Nat × Word)
  /-- `FC` (R40) -/
  fc : List Word
  /-- `S23 CH` (R41) -/
  ch : Channel
  /-- `S24 MARKER` (R42): `none` is `NONE` -/
  marker : Option Nat
  /-- `DESC[k]` (R43) -/
  desc : PerChannel Descriptor
  /-- `ARMED[k]` (R44) -/
  armed : PerChannel Bool
  /-- `PENDING[k]` (R45) -/
  pending : PerChannel Bool
  /-- `S25 IRQ_EN` (R45) -/
  irqEn : Bool
  /-- `S26 ACTIVE_CH` (R46) -/
  activeCh : Channel
  /-- `S27 EVENT` (R47) -/
  event : Bool
  /-- `OUT`, one list of words for each transfer (R52) -/
  out : List (List Word)
  /-- the consumer of R72: the lines not yet consumed -/
  serIn : List (List Word)
  /-- the consumer of R72: the serial output so far -/
  wire : List WireRun
  /-- the model's: the host port's words not yet taken (log 17) -/
  port : List Word
  /-- the model's: the host operation under way (log 2) -/
  busy : Option HostOp
  /-- the model's: the reply words handed to the host (R73; log 27) -/
  reply : List Word
  /-- the model's: what the last internal operation run by name returned (log 15) -/
  result : Result
  /-- the model's: internal operations to run by name (log 15) -/
  invoke : List Instr
  /-- the model's: whose turn it is, in order (log 1) -/
  turns : List Agent
  /-- the model's: the number of turns taken (log 1) -/
  tick : Nat
  /-- the model's: the number of successful INITs (log 3) -/
  epoch : Nat
deriving DecidableEq, Repr

/-- Why the machine stops for good.  Both are safe: the spec defines no behaviour after them, and the
model predicts none. -/
inductive Fault where
  /-- `FatalClock`, raised by INIT when the clock bring-up misses the descriptor's exact bit clock: no
  later step of any agent is defined (R140).  Safe. -/
  | fatalClock
  /-- `DeadlineMiss(k)`, raised by XFER when channel `k`'s turn comes before it is reprogrammed: nothing
  is specified afterwards (R141).  Safe. -/
  | deadlineMiss (k : Channel)
deriving DecidableEq, Repr

/-- What the spec gives no meaning to (R23 "refuse").  Every one is safe: the model makes no claim about
the run. -/
inductive Refusal where
  /-- Raised by `exec` for an operation the model has no meaning for.  Safe. -/
  | notModelled (mnemonic : String)
  /-- Raised by `step` when the host port or a line holds no operation (R76, I11).  Safe. -/
  | undecodable (e : DecodeError)
  /-- Raised by an operation that reads state which has no value while `INITED = 0` (R50, R115, I10,
  I16).  Safe. -/
  | notInitialised
  /-- Raised by an access operation, or a fill, in a mode it does not belong to (R115, R97).  Safe. -/
  | wrongMode
  /-- Raised by an access operation outside the frame buffer (R126, R142 (a), I1).  Safe. -/
  | contractViolation
  /-- Raised by a pixel write whose value has bits above the unit's width (R73, R128, I11).  Safe. -/
  | valueTooWide
  /-- Raised by FLIP_NOW under `FLIP_NOW_POLICY = refuse` (R124, I9).  Safe. -/
  | flipNowRefused
  /-- Raised by operations that would use a FONT that breaks the constraints of R108 and R109 (I14),
  or that is not configured.  Safe. -/
  | badFont
  /-- Raised by REFILL when no completion interrupt of `CH` is pending and enabled (R92).  Safe. -/
  | notEnabled
  /-- Raised by an internal operation run by name outside its operand domain (R80, R81, R98, R100 to
  R104, R112).  Safe. -/
  | outOfDomain
  /-- Raised by a command word whose COUNT is 0, which is never emitted (R71, R76).  Safe. -/
  | zeroCount
  /-- Raised by a command word whose line holds no data word after it, which is never emitted (R71).
  Safe. -/
  | noDataWord
deriving DecidableEq, Repr

/-- The machine after power-on (R50, R157).  Every element to which the spec gives no value there holds
the value that logs 5 and 14 name. -/
def State.reset : State where
  plat := Platform.tabulated Config.platform
  inited := false
  timing := ⟨0, 0, 0, 0, 0, 0, 0, 0, 0⟩
  mode := .rgb565
  hShift := 0
  vShift := 0
  frameW := 0
  frameH := 0
  fb0 := []
  fb1 := []
  front := false
  flipReq := false
  lb := []
  vScanline := 0
  clOn := []
  clOff := []
  hdr := []
  pal := []
  fc := []
  ch := 0
  marker := none
  desc := ⟨⟨.clOff, 0⟩, ⟨.clOff, 0⟩, ⟨.clOff, 0⟩⟩
  armed := ⟨false, false, false⟩
  pending := ⟨false, false, false⟩
  irqEn := false
  activeCh := 0
  event := false
  out := []
  serIn := []
  wire := []
  port := []
  busy := none
  reply := []
  result := .nothing
  invoke := []
  turns := []
  tick := 0
  epoch := 0

end Sys2Proof.Machine
end

