-- ==== Sys2Proof/Machine/Bits.lean ====
section
/-!
DEFINITION. Byte order and bit fields (20_memory.md R56, R57; 00_scope.md R20), stated once.
-/

namespace Sys2Proof.Machine

/-- A 16-bit value from its bytes, the least significant first (R57). -/
def halfOf (b0 b1 : Byte) : Half := b1 ++ b0

/-- A 32-bit value from its bytes, the least significant first (R57). -/
def wordOf (b0 b1 b2 b3 : Byte) : Word := b3 ++ b2 ++ b1 ++ b0

/-- Byte `j` of a 16-bit value: bits `8j+7 : 8j` (R56). -/
def halfByte (h : Half) (j : Nat) : Byte := h.extractLsb' (8 * j) 8

/-- Byte `j` of a 32-bit value: bits `8j+7 : 8j` (R56). -/
def wordByte (w : Word) (j : Nat) : Byte := w.extractLsb' (8 * j) 8

/-- A byte zero-extended to a 32-bit word (R20, R135). -/
def zextByte (b : Byte) : Word := 0#24 ++ b

/-- A half zero-extended to a 32-bit word (R20, R135). -/
def zextHalf (h : Half) : Word := 0#16 ++ h

/-- The low 16 bits of a word (R20). -/
def truncHalf (w : Word) : Half := w.extractLsb' 0 16

/-- The low 8 bits of a word (R20). -/
def truncByte (w : Word) : Byte := w.extractLsb' 0 8

/-- The low 24 bits of a word, zero-extended: what the palette stores (R132). -/
def colourOf (w : Word) : Word := 0#8 ++ w.extractLsb' 0 24

/-! ## The pixel region of a line buffer, in bytes (R56) -/

/-- The pixel words of a pixel region: word `i` is bytes `4i .. 4i+3` (R56). -/
def pixWords : List Byte → List Word
  | b0 :: b1 :: b2 :: b3 :: rest => wordOf b0 b1 b2 b3 :: pixWords rest
  | _ => []

/-- `MemWrite(LBpix(s), off, 1, v)` (R22). -/
def setPix8 (p : List Byte) (off : Nat) (v : Byte) : List Byte := p.set off v

/-- `MemWrite(LBpix(s), off, 2, v)` (R22, R57). -/
def setPix16 (p : List Byte) (off : Nat) (v : Half) : List Byte :=
  setPix8 (setPix8 p off (halfByte v 0)) (off + 1) (halfByte v 1)

/-- `LBword(s, HDR_LEN + i) <- v`: the four bytes from `4i` (R56). -/
def setPix32 (p : List Byte) (i : Nat) (v : Word) : List Byte :=
  setPix8 (setPix8 (setPix8 (setPix8 p (4 * i) (wordByte v 0)) (4 * i + 1) (wordByte v 1))
    (4 * i + 2) (wordByte v 2)) (4 * i + 3) (wordByte v 3)

/-! ## The coverage word (R110) -/

/-- Column `k` of a coverage word: bits `25-2k : 24-2k` (R110). -/
def coverageField (cw : Word) (k : Nat) : BitVec 2 := cw.extractLsb' (24 - 2 * k) 2

/-- A coverage word with column `k` set to a level (R110). -/
def setCoverageField (cw : Word) (k : Nat) (level : BitVec 2) : Word :=
  (cw &&& ~~~(3#32 <<< (24 - 2 * k))) ||| ((0#30 ++ level) <<< (24 - 2 * k))

/-- Pixel `p mod 4` of a byte of `BLOB`: bits `7-2(p mod 4) : 6-2(p mod 4)` (R108). -/
def blobLevel (b : Byte) (p : Nat) : BitVec 2 := b.extractLsb' (6 - 2 * (p % 4)) 2

end Sys2Proof.Machine
end

