-- ==== Sys2Proof/Machine/Ops.lean ====
section
/-!
DEFINITION. The named operations over the state: channels, derived constants (00_scope.md R19), memory regions
(20_memory.md R53 to R59), replies, the exception kinds and their one effect (60_exceptions.md R138), and the
entry to and the return from the completion handler (R145, R146).
-/

namespace Sys2Proof.Machine

/-- The outcome of an operation (R23). -/
abbrev Outcome' := Host.Outcome State Fault Refusal

/-! ## Per-channel elements and the ring (R43) -/

/-- Channel `k`'s element. -/
def PerChannel.get {α : Type} (v : PerChannel α) (k : Channel) : α :=
  if k = 0 then v.k0 else if k = 1 then v.k1 else v.k2

/-- The elements with channel `k`'s replaced. -/
def PerChannel.set {α : Type} (v : PerChannel α) (k : Channel) (a : α) : PerChannel α :=
  if k = 0 then ⟨a, v.k1, v.k2⟩ else if k = 1 then ⟨v.k0, a, v.k2⟩ else ⟨v.k0, v.k1, a⟩

/-- The same element for every channel. -/
def PerChannel.all {α : Type} (a : α) : PerChannel α := ⟨a, a, a⟩

/-- `CHAIN[k] = (k + 1) mod N_CH` (R43). -/
def chain (k : Channel) : Channel := if k = 0 then 1 else if k = 1 then 2 else 0

/-! ## Modes and derived constants (R14, R19) -/

/-- `MODE[1]`: is a text mode (R70). -/
def Mode.isText : Mode → Bool
  | .rgb565 => false
  | .palette8 => false
  | .textMono => true
  | .textAttributed => true

/-- `FRAME_BPU`: the bytes one unit takes in a frame buffer (R14). -/
def Mode.frameBpu : Mode → Nat
  | .rgb565 => 2
  | .palette8 => 1
  | .textMono => 1
  | .textAttributed => 2

/-- `LINE_BPU`: the bytes one source unit takes in a line buffer before horizontal repeat (R14). -/
def Mode.lineBpu : Mode → Nat
  | .rgb565 => 2
  | .palette8 => 4
  | .textMono => 4
  | .textAttributed => 14

/-- `V_INACTIVE` of a descriptor (R19). -/
def vInactiveOf (t : TimingDescriptor) : Nat := t.vFp.toNat + t.vSw.toNat + t.vBp.toNat

/-- `V_TOTAL` of a descriptor (R19). -/
def vTotalOf (t : TimingDescriptor) : Nat := vInactiveOf t + t.vAct.toNat

/-- `H_TOTAL` of a descriptor (R72). -/
def hTotalOf (t : TimingDescriptor) : Nat :=
  t.hFp.toNat + t.hSw.toNat + t.hBp.toNat + t.hAct.toNat

/-- `V_INACTIVE` (R19). -/
def State.vInactive (s : State) : Nat := vInactiveOf s.timing
/-- `V_TOTAL` (R19). -/
def State.vTotal (s : State) : Nat := vTotalOf s.timing
/-- `H_REP = 1 << H_SHIFT` (R19). -/
def State.hRep (s : State) : Nat := 2 ^ s.hShift.toNat
/-- `V_REP = 1 << V_SHIFT` (R19). -/
def State.vRep (s : State) : Nat := 2 ^ s.vShift.toNat
/-- `FRAME_W * FRAME_H`, the units of a frame buffer. -/
def State.units (s : State) : Nat := s.frameW.toNat * s.frameH.toNat
/-- `FB_BYTES` (R19). -/
def State.fbBytes (s : State) : Nat := s.units * Mode.frameBpu s.mode
/-- `LINE_BYTES` (R19): horizontal repeat acts in the graphic modes only. -/
def State.lineBytes (s : State) : Nat :=
  if Mode.isText s.mode then s.frameW.toNat * Mode.lineBpu s.mode
  else s.frameW.toNat * s.hRep * Mode.lineBpu s.mode
/-- `LINE_WORDS = ceil(LINE_BYTES / 4)` (R19). -/
def State.lineWords (s : State) : Nat := (s.lineBytes + 3) / 4
/-- `N_PIX` (R19). -/
def State.nPix (s : State) : Nat :=
  if Mode.isText s.mode then s.frameW.toNat * cellW else s.timing.hAct.toNat
/-- `TEXT_FILLER = H_ACT - FRAME_W * CELL_W` (R19). -/
def State.textFiller (s : State) : Nat := s.timing.hAct.toNat - s.frameW.toNat * cellW
/-- `HDR_LEN` (R19). -/
def State.hdrLen (s : State) : Nat := if Mode.isText s.mode then 9 else 7
/-- `LB_LEN = HDR_LEN + LINE_WORDS` (R19). -/
def State.lbLen (s : State) : Nat := s.hdrLen + s.lineWords
/-- `POOL` (R13). -/
def State.pool (s : State) : Nat := if s.vShift = 0 then nCh else 2

/-- The configured font; where none is configured, one without glyphs (log 32). -/
def State.font (s : State) : Font := s.plat.font.getD default

/-- `SYNCW(v, h)` (R18). -/
def Platform.syncw (p : Platform) (v h : Bool) : Word :=
  match v, h with
  | false, false => p.syncw00
  | false, true => p.syncw01
  | true, false => p.syncw10
  | true, true => p.syncw11

/-- `CLOCK_OK` for a bit clock (R18, R118; log 8). -/
def Platform.clockOk (p : Platform) (bitClk : Word) : Bool := p.clocks.contains bitClk

/-! ## Sparse memory: (address, value) pairs, addresses strictly rising -/

/-- The value an address holds, if it has been written. -/
def storeGet {α : Type} : List (Nat × α) → Nat → Option α
  | [], _ => none
  | (b, w) :: rest, a => if a = b then some w else storeGet rest a

/-- The memory after a write. -/
def storePut {α : Type} : List (Nat × α) → Nat → α → List (Nat × α)
  | [], a, v => [(a, v)]
  | (b, w) :: rest, a, v =>
    if a < b then (a, v) :: (b, w) :: rest
    else if a = b then (a, v) :: rest
    else (b, w) :: storePut rest a v

/-- The canonical form: addresses strictly rising.  What an unlisted address reads as is a free value
(logs 3, 4), so no entry can be known to equal it, and every written address is listed. -/
def Memory.wf {α : Type} : List (Nat × α) → Bool
  | [] => true
  | [_] => true
  | (a, _) :: (b, w) :: rest => decide (a < b) && Memory.wf ((b, w) :: rest)

/-! ## The frame buffers (R22, R33, R55, R57) -/

/-- The written bytes of `FB[b]`. -/
def State.fb (s : State) (b : Bool) : List Host.Cell := if b then s.fb1 else s.fb0

/-- The state with the written bytes of `FB[b]` replaced. -/
def State.withFb (s : State) (b : Bool) (m : List Host.Cell) : State :=
  if b then { s with fb1 := m } else { s with fb0 := m }

/-- `MemRead(FB[b], off, 1)` (R22): a byte nothing has written since INIT holds some stable value
(R33). -/
def State.readFb8 (s : State) (b : Bool) (off : Nat) : Byte :=
  (storeGet (s.fb b) off).getD (Config.fbByte s.epoch b off)

/-- `MemRead(FB[b], off, 2)` (R22, R57). -/
def State.readFb16 (s : State) (b : Bool) (off : Nat) : Half :=
  halfOf (s.readFb8 b off) (s.readFb8 b (off + 1))

/-- `MemWrite(FB[b], off, 1, v)` (R22). -/
def State.writeFb8 (s : State) (b : Bool) (off : Nat) (v : Byte) : State :=
  s.withFb b (storePut (s.fb b) off v)

/-- `MemWrite(FB[b], off, 2, v)` (R22, R57). -/
def State.writeFb16 (s : State) (b : Bool) (off : Nat) (v : Half) : State :=
  (s.writeFb8 b off (halfByte v 0)).writeFb8 b (off + 1) (halfByte v 1)

/-! ## The palette (R39) -/

/-- `PAL[i]`: an entry nothing has written since power-on holds some stable value (R39). -/
def State.readPal (s : State) (i : Byte) : Word :=
  (storeGet s.pal i.toNat).getD (Config.palWord i.toNat)

/-- `PAL[i] <- w`. -/
def State.writePal (s : State) (i : Byte) (w : Word) : State :=
  { s with pal := storePut s.pal i.toNat w }

/-! ## The regions a transfer reads (R43, R53) -/

/-- The words of a line buffer, header first (R36, R56). -/
def LineBuffer.words (b : LineBuffer) : List Word := b.header ++ pixWords b.pix

/-- The words of the region a descriptor names. -/
def State.region (s : State) : Src → List Word
  | .clOn => s.clOn
  | .clOff => s.clOff
  | .lb k =>
    match s.lb[k]? with
    | some b => b.words
    | none => []

/-- The state with the pixel region of `LB[k]` changed. -/
def State.modifyPix (s : State) (k : Nat) (f : List Byte → List Byte) : State :=
  { s with lb := s.lb.modify k fun b => { b with pix := f b.pix } }

/-- `DESC[c] <- (src, count)` (R43). -/
def State.setDesc (s : State) (c : Channel) (src : Src) (count : Nat) : State :=
  { s with desc := s.desc.set c ⟨src, count⟩ }

/-! ## Replies and results -/

/-- Reply words handed to the host (R73). -/
def State.replied (s : State) (ws : List Word) : State := { s with reply := s.reply ++ ws }

/-- The state with the value an internal operation returned (R23). -/
def State.returned (s : State) (r : Result) : State := { s with result := r }

/-- The status word of a successful INIT (R118). -/
def statusOk : Word := 0x00000000#32

/-- The status word of a failed INIT, -1 in two's complement (R118, R137). -/
def statusFail : Word := 0xFFFFFFFF#32

/-! ## Exceptions (R138) -/

/-- The four exception kinds (R138). -/
inductive Exc where
  | configError
  | fatalClock
  | deadlineMiss (k : Channel)
  | contractViolation
deriving DecidableEq, Repr

/-- The spec's code of an exception kind (R138). -/
def Exc.code : Exc → Nat
  | .configError => 1
  | .fatalClock => 2
  | .deadlineMiss _ => 3
  | .contractViolation => 4

/-- `raise`: the one effect of each exception kind on the state (R138).  A `ConfigError` is the status
-1 beside the state INIT has reached, which is the RESET state (R139); a `FatalClock` ends the run
(R140); after a `DeadlineMiss` nothing is specified (R141); an access out of bounds is refused
(R142 (a)). -/
def raise (e : Exc) (s : State) : Outcome' :=
  match e with
  | .configError => .next (s.replied [statusFail])
  | .fatalClock => .fault .fatalClock
  | .deadlineMiss k => .fault (.deadlineMiss k)
  | .contractViolation => .refused .contractViolation

/-! ## Entering and leaving the completion handler (R145, R146) -/

/-- Entry on the completion interrupt of channel `CH`: the acknowledge and the advance of the channel
index, steps (a) and (b) of R92.  Nothing is saved and no mode changes (R145). -/
def handlerEntry (s : State) : State :=
  { s with pending := s.pending.set s.ch false, ch := chain s.ch }

/-- Return from the handler: it ends, and nothing is restored (R146). -/
def handlerReturn (s : State) : State := s

/-- An operation that reads state which has a value only while `INITED = 1` (R115, R50). -/
def whenInited (s : State) (k : Outcome') : Outcome' :=
  if s.inited then k else .refused .notInitialised

end Sys2Proof.Machine
end

