-- ==== Sys2Proof/Machine/Operands.lean ====
section
/-!
DEFINITION. The operand forms: position plus count on a frame buffer, the target buffer, the unit of a mode, the
operand widths (44_flip_and_host.md R126, R135, R137; 30_encoding.md R73), and the domains of the internal
operations' operands.
-/

namespace Sys2Proof.Machine

/-- The linear index `n = y*FRAME_W + x`, not truncated (R126, R137). -/
def State.linear (s : State) (x y : Half) : Nat := y.toNat * s.frameW.toNat + x.toNat

/-- The precondition of every access operation: `x < FRAME_W`, `y < FRAME_H`,
`n + len <= FRAME_W * FRAME_H` (R126). -/
def State.inBounds (s : State) (x y : Half) (len : Nat) : Bool :=
  decide (x.toNat < s.frameW.toNat) && decide (y.toNat < s.frameH.toNat) &&
    decide (s.linear x y + len ≤ s.units)

/-- The back buffer, `FB[1 - FRONT]` (R126). -/
def State.back (s : State) : Bool := !s.front

/-- Do the operand bits above the unit's width of the mode read as zero (R73, R128): 16 bits in RGB565,
8 in the other modes. -/
def valueFits (m : Mode) (v : Word) : Bool :=
  match m with
  | .rgb565 => decide (v.toNat < 65536)
  | .palette8 => decide (v.toNat < 256)
  | .textMono => decide (v.toNat < 256)
  | .textAttributed => decide (v.toNat < 256)

/-- The byte offset of unit `n` in a frame buffer: `2n` in RGB565, `n` otherwise (R55, R135). -/
def unitOffset (m : Mode) (n : Nat) : Nat :=
  match m with
  | .rgb565 => 2 * n
  | .palette8 => n
  | .textMono => n
  | .textAttributed => n

/-- The bytes one write of a unit stores: 2 in RGB565, 1 otherwise (R59, R128). -/
def unitBytes (m : Mode) : Nat :=
  match m with
  | .rgb565 => 2
  | .palette8 => 1
  | .textMono => 1
  | .textAttributed => 1

/-- Write unit `n` of `FB[b]`, one single access (R128). -/
def State.writeUnit (s : State) (b : Bool) (n : Nat) (v : Word) : State :=
  match s.mode with
  | .rgb565 => s.writeFb16 b (unitOffset s.mode n) (truncHalf v)
  | .palette8 => s.writeFb8 b (unitOffset s.mode n) (truncByte v)
  | .textMono => s.writeFb8 b (unitOffset s.mode n) (truncByte v)
  | .textAttributed => s.writeFb8 b (unitOffset s.mode n) (truncByte v)

/-- Read unit `n` of `FB[b]`, one single access, zero-extended (R131, R135). -/
def State.readUnit (s : State) (b : Bool) (n : Nat) : Word :=
  match s.mode with
  | .rgb565 => zextHalf (s.readFb16 b (unitOffset s.mode n))
  | .palette8 => zextByte (s.readFb8 b (unitOffset s.mode n))
  | .textMono => zextByte (s.readFb8 b (unitOffset s.mode n))
  | .textAttributed => zextByte (s.readFb8 b (unitOffset s.mode n))

/-- The byte offset of cell `n`'s attribute, in plane 1 (R55). -/
def State.attrOffset (s : State) (n : Nat) : Nat := s.units + n

/-- The acceptance of an access operation of the graphic modes (R115), then the check of its operand
widths (R73) and its bounds (R126). -/
def graphicAccess (s : State) (x y : Half) (len : Nat) (values : List Word) (k : Outcome') : Outcome' :=
  whenInited s <|
    if Mode.isText s.mode then .refused .wrongMode
    else if values.all (valueFits s.mode) then
      if s.inBounds x y len then k else raise .contractViolation s
    else .refused .valueTooWide

/-- The acceptance of `WRITE_TEXT` (R115, R126). -/
def textAccess (s : State) (x y : Half) (len : Nat) (k : Outcome') : Outcome' :=
  whenInited s <|
    if Mode.isText s.mode then
      if s.inBounds x y len then k else raise .contractViolation s
    else .refused .wrongMode

/-- The number of pixel rows of the logical frame: `FRAME_H` in the graphic modes, `FRAME_H * GLYPH_H`
in the text modes (R81). -/
def State.rows (s : State) : Nat :=
  if Mode.isText s.mode then s.frameH.toNat * s.font.glyphH else s.frameH.toNat

/-- The operand domain of a fill: a slot of the pool and a row of the frame (R100 to R104). -/
def State.fillDomain (s : State) (k y : Nat) : Bool := decide (k < s.pool) && decide (y < s.rows)

end Sys2Proof.Machine
end

