-- ==== Sys2Proof/Machine/Flags.lean ====
section
/-!
DEFINITION. The flags (10_state.md R34, R35, R42, R44, R45, R47): who sets and who clears each, and the two
guards of the wait operations.
-/

namespace Sys2Proof.Machine

/-- `FLIP_REQ <- 1` (R121). -/
def State.requestFlip (s : State) : State := { s with flipReq := true }

/-- End-of-frame bookkeeping at a wrap (R82): `V_SCANLINE` returns to 0, a pending flip exchanges the
buffer roles and is cleared, `MARKER` is cleared, `EVENT` is signalled. -/
def State.wrap (s : State) : State :=
  { s with
    vScanline := 0
    front := if s.flipReq then !s.front else s.front
    flipReq := false
    marker := none
    event := true }

/-- `EVENT <- 0`, the wake-up latch consumed by a wait (R122, R125). -/
def State.clearEvent (s : State) : State := { s with event := false }

/-- `ARMED[c] <- 1` (R89). -/
def State.arm (s : State) (c : Channel) : State := { s with armed := s.armed.set c true }

/-- The flags at the end of channel `k`'s transfer: `ARMED[k] <- 0`, `PENDING[k] <- 1`, and the chain
trigger (R91). -/
def State.complete (s : State) (k : Channel) : State :=
  { s with
    armed := s.armed.set k false
    pending := s.pending.set k true
    activeCh := chain k }

/-- The event vector `INTS[2:0]`, bit `k` being `PENDING[k]` (R75). -/
def State.ints (s : State) : BitVec 3 :=
  BitVec.ofBool s.pending.k2 ++ BitVec.ofBool s.pending.k1 ++ BitVec.ofBool s.pending.k0

/-- `XFER` has a step (R27, R91): its deadline miss included. -/
def State.xferEnabled (s : State) : Bool := s.inited

/-- `REFILL` is enabled: `INITED = 1`, `IRQ_EN = 1`, `PENDING[CH] = 1` (R92, R145). -/
def State.refillEnabled (s : State) : Bool := s.inited && s.irqEn && s.pending.get s.ch

/-- The guard of `WAIT_FLIP`: no flip is pending (R122). -/
def State.flipDone (s : State) : Bool := !s.flipReq

/-- The guard of `WAIT_VSYNC`: the counter is in the inactive region (R125). -/
def State.inVsync (s : State) : Bool := decide (s.vScanline.toNat < s.vInactive)

end Sys2Proof.Machine
end

