-- ==== Sys2Proof/Machine/Vertical.lean ====
section
/-!
DEFINITION. The scanline classifier and vertical state machine (40_vertical.md): CLASSIFY, SRCROW, VADVANCE.
-/

namespace Sys2Proof.Machine

/-- `CLASSIFY(v)`, the tests in the order of R80. -/
def State.classOf (s : State) (v : Nat) : LineClass :=
  if s.timing.vFp.toNat ≤ v ∧ v < s.timing.vFp.toNat + s.timing.vSw.toNat then .sync
  else if v < s.vInactive then .blank
  else .active

/-- `SRCROW(v) = (v - V_INACTIVE) >> V_SHIFT` (R81). -/
def State.rowOf (s : State) (v : Nat) : Nat := (v - s.vInactive) >>> s.vShift.toNat

/-- `VADVANCE()` (R82): the counter advances; at `V_TOTAL` it wraps, with the end-of-frame
bookkeeping. -/
def State.vAdvance (s : State) : State :=
  if s.vScanline.toNat + 1 = s.vTotal then s.wrap
  else { s with vScanline := BitVec.ofNat 16 (s.vScanline.toNat + 1) }

/-- `CLASSIFY v` run by name, `0 <= v < V_TOTAL` (R80). -/
def execClassify (v : Nat) (s : State) : Outcome' :=
  whenInited s <|
    if v < s.vTotal then .next (s.returned (.lineClass (s.classOf v))) else .refused .outOfDomain

/-- `SRCROW v` run by name, `V_INACTIVE <= v < V_TOTAL` (R81). -/
def execSrcrow (v : Nat) (s : State) : Outcome' :=
  whenInited s <|
    if s.vInactive ≤ v ∧ v < s.vTotal then .next (s.returned (.number (s.rowOf v)))
    else .refused .outOfDomain

/-- `VADVANCE` run by name (R82). -/
def execVadvance (s : State) : Outcome' := whenInited s (.next s.vAdvance)

end Sys2Proof.Machine
end

