-- ==== Sys2Proof/Machine/FontUnit.lean ====
section
/-!
DEFINITION. The font-glyph rasterizer and the Font Cache (43_font.md): RENDER_CHAR_LINE, BUILD_FC, FC_LOOKUP.
-/

namespace Sys2Proof.Machine

/-- The constraint of R109 on one glyph: its pixels lie inside `BLOB`. -/
def glyphOk (blobSize : Nat) (g : GlyphDescriptor) : Bool :=
  decide (g.bitmapOffset + (g.width * g.height + 3) / 4 ≤ blobSize)

/-- The constraints a `FONT` must meet: those of R109, and the bound `0 <= BASELINE <= GLYPH_H` of R108
(log 22). -/
def fontOk (f : Font) : Bool :=
  decide (1 ≤ f.glyphH) && decide (f.baseline ≤ f.glyphH) &&
    decide (f.firstCode + f.glyphs.length ≤ 256) && f.glyphs.all (glyphOk f.blob.length)

/-- The configured font exists and meets the constraints of R108 and R109. -/
def Platform.fontReady (p : Platform) : Bool :=
  match p.font with
  | some f => fontOk f
  | none => false

/-- `code - FIRST_CODE` when the code is inside the font's range (R108). -/
def glyphIndex (f : Font) (code : Byte) : Option Nat :=
  if code.toNat < f.firstCode ∨ f.firstCode + f.glyphs.length ≤ code.toNat then none
  else some (code.toNat - f.firstCode)

/-- The coverage level of pixel number `p` of a glyph (R108). -/
def glyphLevel (f : Font) (g : GlyphDescriptor) (p : Nat) : BitVec 2 :=
  blobLevel (f.blob.getD (g.bitmapOffset + p / 4) 0) p

/-- `top`: the cell row of the top row of a glyph's drawn box, a signed integer (R110, R114). -/
def glyphTop (f : Font) (g : GlyphDescriptor) : Int :=
  (f.glyphH : Int) - f.baseline - g.yOffset - g.height

/-- One column of the loop of R110: column `c` of the drawn box, written when it falls into the cell. -/
def renderColumn (f : Font) (g : GlyphDescriptor) (gy : Nat) (word : Word) (c : Nat) : Word :=
  let col : Int := g.xOffset + c
  if 0 ≤ col ∧ col ≤ 12 then
    setCoverageField word col.toNat (glyphLevel f g (gy * g.width + c))
  else word

/-- The coverage word of one row of one glyph (R110). -/
def renderGlyphRow (f : Font) (g : GlyphDescriptor) (row : Int) : Word :=
  let gy := row - glyphTop f g
  if gy < 0 ∨ (g.height : Int) ≤ gy then 0
  else (List.range g.width).foldl (renderColumn f g gy.toNat) 0

/-- `RENDER_CHAR_LINE(code, row)` (R110). -/
def renderCharLine (f : Font) (code : Byte) (row : Int) : Word :=
  match glyphIndex f code with
  | none => 0
  | some i =>
    match f.glyphs[i]? with
    | none => 0
    | some g => renderGlyphRow f g row

/-- The words of the Font Cache, index `g*GLYPH_H + r` (R111). -/
def fontCacheWords (f : Font) : List Word :=
  (List.range (f.glyphs.length * f.glyphH)).map fun i =>
    renderCharLine f (BitVec.ofNat 8 (f.firstCode + i / f.glyphH)) (i % f.glyphH : Nat)

/-- `BUILD_FC()` (R111). -/
def State.withFontCache (s : State) : State := { s with fc := fontCacheWords s.font }

/-- `FC_LOOKUP(code, r)` (R112): the range test comes before the table is indexed. -/
def State.fcWord (s : State) (code : Byte) (r : Nat) : Word :=
  match glyphIndex s.font code with
  | none => 0
  | some i => s.fc.getD (i * s.font.glyphH + r) 0

/-- An operation that uses the Font Glyph Store: the constraints of R108 and R109 are its hypotheses
(I14). -/
def whenFont (s : State) (k : Outcome') : Outcome' :=
  if Platform.fontReady s.plat then k else .refused .badFont

/-- `RENDER_CHAR_LINE` run by name, in every state: it reads the Font Glyph Store only (R110). -/
def execRenderCharLine (code : Byte) (row : Int) (s : State) : Outcome' :=
  whenFont s (.next (s.returned (.word (renderCharLine s.font code row))))

/-- `BUILD_FC` run by name; `FC` exists in TextAttributed only (R40, R111). -/
def execBuildFc (s : State) : Outcome' :=
  whenInited s <|
    if s.mode = .textAttributed then whenFont s (.next s.withFontCache) else .refused .wrongMode

/-- `FC_LOOKUP` run by name, `r` in `[0, GLYPH_H)`; `FC` exists in TextAttributed only (R40, R112). -/
def execFcLookup (code : Byte) (r : Nat) (s : State) : Outcome' :=
  whenInited s <|
    if s.mode = .textAttributed then
      whenFont s <|
        if r < s.font.glyphH then .next (s.returned (.word (s.fcWord code r)))
        else .refused .outOfDomain
    else .refused .wrongMode

end Sys2Proof.Machine
end

