-- ==== Sys2Proof/Machine/Pixel.lean ====
section
/-!
DEFINITION. The pixel pipeline (42_pixel_pipeline.md): SLOT, the four fills and their selection, ATTR_DECODE.
-/

namespace Sys2Proof.Machine

/-- `SLOT(c, y)` (R98). -/
def State.slotOf (s : State) (c : Channel) (y : Nat) : Nat := if s.vShift = 0 then c.val else y % 2

/-- Byte `k` of `ATTR_DECODE(cw, a)`: the level of column `k` times the attribute, low 8 bits (R103). -/
def attrByte (cw : Word) (a : Byte) (k : Nat) : Byte :=
  BitVec.ofNat 8 ((coverageField cw k).toNat * a.toNat)

/-- `ATTR_DECODE(cw, a)`, 13 bytes (R103). -/
def attrDecode (cw : Word) (a : Byte) : List Byte := (List.range 13).map (attrByte cw a)

/-! ## The loops of the four fills, over the pixel region -/

/-- The `H_REP` copies of output pixel `x` in RGB565 (R100). -/
def putRgb (rep : Nat) (p : Half) (x : Nat) (pix : List Byte) : List Byte :=
  (List.range rep).foldl (fun q i => setPix16 q ((x * rep + i) * 2) p) pix

/-- The `H_REP` copies of output pixel `x` in Palette8 (R101). -/
def putPal (rep : Nat) (c : Word) (x : Nat) (pix : List Byte) : List Byte :=
  (List.range rep).foldl (fun q i => setPix32 q (x * rep + i) c) pix

/-- The 14 bytes of cell `j` in TextAttributed: 13 pixels and the filler byte (R104). -/
def putCell (bytes : List Byte) (j : Nat) (pix : List Byte) : List Byte :=
  setPix8 ((List.range 13).foldl (fun q k => setPix8 q (14 * j + k) (bytes.getD k 0)) pix)
    (14 * j + 13) 0

/-- Source pixel `x` of row `y` in RGB565 (R55, R100). -/
def State.srcRgb (s : State) (b : Bool) (y x : Nat) : Half :=
  s.readFb16 b ((y * s.frameW.toNat + x) * 2)

/-- Source byte `x` of row `y` of plane 0 (R55, R101, R102, R104). -/
def State.srcByte (s : State) (b : Bool) (y x : Nat) : Byte :=
  s.readFb8 b (y * s.frameW.toNat + x)

/-- Source attribute `x` of text row `y`, plane 1 (R55, R104). -/
def State.srcAttr (s : State) (b : Bool) (y x : Nat) : Byte :=
  s.readFb8 b (s.units + (y * s.frameW.toNat + x))

/-- What `FILL_RGB565` makes of a pixel region (R100). -/
def State.pixRgb565 (s : State) (y : Nat) (pix : List Byte) : List Byte :=
  (List.range s.frameW.toNat).foldl (fun q x => putRgb s.hRep (s.srcRgb s.front y x) x q) pix

/-- What `FILL_PAL8` makes of a pixel region: the palette is read at every fill (R101). -/
def State.pixPal8 (s : State) (y : Nat) (pix : List Byte) : List Byte :=
  (List.range s.frameW.toNat).foldl
    (fun q x => putPal s.hRep (s.readPal (s.srcByte s.front y x)) x q) pix

/-- The pixel word of cell `j` in TextMono (R102). -/
def State.monoWord (s : State) (y j : Nat) : Word :=
  renderCharLine s.font (s.srcByte s.front (y / s.font.glyphH) j) (y % s.font.glyphH : Nat)

/-- What `FILL_TEXTMONO` makes of a pixel region (R102). -/
def State.pixTextmono (s : State) (y : Nat) (pix : List Byte) : List Byte :=
  (List.range s.frameW.toNat).foldl (fun q j => setPix32 q j (s.monoWord y j)) pix

/-- The 13 bytes of cell `j` in TextAttributed (R104). -/
def State.attrCell (s : State) (y j : Nat) : List Byte :=
  attrDecode (s.fcWord (s.srcByte s.front (y / s.font.glyphH) j) (y % s.font.glyphH))
    (s.srcAttr s.front (y / s.font.glyphH) j)

/-- What `FILL_TEXTATTR` makes of a pixel region (R104). -/
def State.pixTextattr (s : State) (y : Nat) (pix : List Byte) : List Byte :=
  (List.range s.frameW.toNat).foldl (fun q j => putCell (s.attrCell y j) j q) pix

/-- `FILL(slot, y)`, the fill that `MODE` selects (R97). -/
def State.fillLine (s : State) (k y : Nat) : State :=
  match s.mode with
  | .rgb565 => s.modifyPix k (s.pixRgb565 y)
  | .palette8 => s.modifyPix k (s.pixPal8 y)
  | .textMono => s.modifyPix k (s.pixTextmono y)
  | .textAttributed => s.modifyPix k (s.pixTextattr y)

/-! ## Run by name -/

/-- A fill in its mode and in its operand domain (R97, R100 to R104). -/
def fillAccess (m : Mode) (k y : Nat) (s : State) (next : State) : Outcome' :=
  whenInited s <|
    if s.mode = m then
      if Mode.isText m && !Platform.fontReady s.plat then .refused .badFont
      else if s.fillDomain k y then .next next else .refused .outOfDomain
    else .refused .wrongMode

/-- `FILL_RGB565 slot, y` (R100). -/
def execFillRgb565 (k y : Nat) (s : State) : Outcome' :=
  fillAccess .rgb565 k y s (s.modifyPix k (s.pixRgb565 y))

/-- `FILL_PAL8 slot, y` (R101). -/
def execFillPal8 (k y : Nat) (s : State) : Outcome' :=
  fillAccess .palette8 k y s (s.modifyPix k (s.pixPal8 y))

/-- `FILL_TEXTMONO slot, y` (R102). -/
def execFillTextmono (k y : Nat) (s : State) : Outcome' :=
  fillAccess .textMono k y s (s.modifyPix k (s.pixTextmono y))

/-- `FILL_TEXTATTR slot, y` (R104). -/
def execFillTextattr (k y : Nat) (s : State) : Outcome' :=
  fillAccess .textAttributed k y s (s.modifyPix k (s.pixTextattr y))

/-- `FILL slot, y`: the fill of the current mode (R97). -/
def execFill (k y : Nat) (s : State) : Outcome' := fillAccess s.mode k y s (s.fillLine k y)

/-- `SLOT c, y` run by name (R98). -/
def execSlot (c : Channel) (y : Nat) (s : State) : Outcome' :=
  whenInited s (.next (s.returned (.number (s.slotOf c y))))

/-- `ATTR_DECODE cw, a` run by name: a pure function (R103). -/
def execAttrDecode (cw : Word) (a : Byte) (s : State) : Outcome' :=
  .next (s.returned (.bytes (attrDecode cw a)))

end Sys2Proof.Machine
end

