-- ==== Sys2Proof/Machine/Ring.lean ====
section
/-!
DEFINITION. The DMA channel ring (41_dma_ring.md): BUILD_VLIST, BUILD_HDR, BUILD_LB, the three line classes,
PROGRAM, PRIME, XFER, REFILL.
-/

namespace Sys2Proof.Machine

/-! ## Building the command lists -/

/-- `CMDW(RAW_REPEAT, n)` (R71). -/
def repeatWord (n : Nat) : Word := cmdWord 0x1#4 (BitVec.ofNat 12 n)

/-- `CMDW(STREAM, n)` (R71). -/
def streamWord (n : Nat) : Word := cmdWord 0x2#4 (BitVec.ofNat 12 n)

/-- `CL_v`, the vertical command list with vertical sync at `v` (R86). -/
def State.vlist (s : State) (v : Bool) : List Word :=
  [repeatWord s.timing.hFp.toNat, Platform.syncw s.plat v false,
   repeatWord s.timing.hSw.toNat, Platform.syncw s.plat v true,
   repeatWord (s.timing.hBp.toNat + s.timing.hAct.toNat), Platform.syncw s.plat v false]

/-- The words of `HDR` after the back porch (R87): the stream directive, in the text modes after the
filler. -/
def State.hdrTail (s : State) : List Word :=
  if Mode.isText s.mode then
    [repeatWord s.textFiller, s.plat.blankPixel, streamWord (s.frameW.toNat * cellW)]
  else [streamWord s.timing.hAct.toNat]

/-- `HDR`, the active line header (R87). -/
def State.header (s : State) : List Word :=
  [repeatWord s.timing.hFp.toNat, Platform.syncw s.plat false false,
   repeatWord s.timing.hSw.toNat, Platform.syncw s.plat false true,
   repeatWord s.timing.hBp.toNat, Platform.syncw s.plat false false] ++ s.hdrTail

/-- `BUILD_VLIST()` (R86). -/
def State.withVlists (s : State) : State := { s with clOn := s.vlist true, clOff := s.vlist false }

/-- `BUILD_HDR()` (R87). -/
def State.withHdr (s : State) : State := { s with hdr := s.header }

/-- `BUILD_LB()`: the header in every line buffer, the pixel regions zero (R88). -/
def State.withLb (s : State) : State :=
  { s with lb := List.replicate s.pool ⟨s.hdr, List.replicate (4 * s.lineWords) 0⟩ }

/-! ## Programming one channel for one scanline -/

/-- The SYNC arm of `PROGRAM` (R89). -/
def State.pointSync (s : State) (c : Channel) : State := s.setDesc c .clOn vlistLen

/-- The BLANK arm of `PROGRAM` (R89). -/
def State.pointBlank (s : State) (c : Channel) : State := s.setDesc c .clOff vlistLen

/-- The fill of an active line unless the slot is already valid for its row: the reuse test (R99). -/
def State.fillUnlessMarked (s : State) (k y : Nat) : State :=
  if s.marker = some k then s else { s.fillLine k y with marker := some k }

/-- The ACTIVE arm of `PROGRAM` for source row `y` (R89). -/
def State.pointRow (s : State) (c : Channel) (y : Nat) : State :=
  (s.fillUnlessMarked (s.slotOf c y) y).setDesc c (.lb (s.slotOf c y)) s.lbLen

/-- The ACTIVE arm of `PROGRAM` (R89). -/
def State.pointActive (s : State) (c : Channel) : State :=
  s.pointRow c (s.rowOf s.vScanline.toNat)

/-- Point channel `c` at what the class of the upcoming scanline asks for (R89, steps (c) to (e)). -/
def State.pointChannel (s : State) (c : Channel) : State :=
  match s.classOf s.vScanline.toNat with
  | .sync => s.pointSync c
  | .blank => s.pointBlank c
  | .active => s.pointActive c

/-- `PROGRAM(c)` (R89). -/
def State.programChannel (s : State) (c : Channel) : State := ((s.pointChannel c).arm c).vAdvance

/-- `PRIME()` before its three `PROGRAM` steps (R90). -/
def State.primeStart (s : State) : State :=
  { s with
    vScanline := 0
    flipReq := false
    front := false
    marker := none
    event := false
    ch := 0
    pending := PerChannel.all false
    armed := PerChannel.all false }

/-- `PRIME()` (R90). -/
def State.primed (s : State) : State :=
  { ((s.primeStart.programChannel 0).programChannel 1).programChannel 2 with
    irqEn := true
    activeCh := 0 }

/-! ## The two event steps -/

/-- The words of the transfer a descriptor describes: word 0 up to word `COUNT - 1` of its region
(R91). -/
def State.lineWordsOf (s : State) (d : Descriptor) : List Word := (s.region d.src).take d.count

/-- The line handed to the serial peripheral (R52, R91). -/
def State.emit (s : State) (line : List Word) : State :=
  { s with out := s.out ++ [line], serIn := s.serIn ++ [line] }

/-- `XFER` of an armed channel (R91). -/
def State.transfer (s : State) (k : Channel) : State :=
  (s.emit (s.lineWordsOf (s.desc.get k))).complete k

/-- `REFILL` when it is enabled: entry, `PROGRAM` on the just-freed channel, return (R92). -/
def State.refilled (s : State) : State := handlerReturn ((handlerEntry s).programChannel s.ch)

/-! ## Run by name, and the events -/

/-- `LINE_SYNC c`: the channel points at `(CL_ON, 6)` (R89). -/
def execLineSync (c : Channel) (s : State) : Outcome' := whenInited s (.next (s.pointSync c))

/-- `LINE_BLANK c`: the channel points at `(CL_OFF, 6)` (R89). -/
def execLineBlank (c : Channel) (s : State) : Outcome' := whenInited s (.next (s.pointBlank c))

/-- An operation that may run a fill: in a text mode the font meets R108 and R109 (I14). -/
def whenFillable (s : State) (k : Outcome') : Outcome' :=
  if Mode.isText s.mode && !Platform.fontReady s.plat then .refused .badFont else k

/-- `LINE_ACTIVE c`: fill or reuse a line buffer and point the channel at it, `V_SCANLINE` being an
active line (R89, R81). -/
def execLineActive (c : Channel) (s : State) : Outcome' :=
  whenInited s <| whenFillable s <|
    if s.vInactive ≤ s.vScanline.toNat ∧ s.vScanline.toNat < s.vTotal then .next (s.pointActive c)
    else .refused .outOfDomain

/-- `BUILD_VLIST` run by name (R86). -/
def execBuildVlist (s : State) : Outcome' := whenInited s (.next s.withVlists)

/-- `BUILD_HDR` run by name (R87). -/
def execBuildHdr (s : State) : Outcome' := whenInited s (.next s.withHdr)

/-- `BUILD_LB` run by name (R88). -/
def execBuildLb (s : State) : Outcome' := whenInited s (.next s.withLb)

/-- `PROGRAM c` run by name (R89). -/
def execProgram (c : Channel) (s : State) : Outcome' :=
  whenInited s <| whenFillable s (.next (s.programChannel c))

/-- `PRIME` run by name (R90). -/
def execPrime (s : State) : Outcome' := whenInited s <| whenFillable s (.next s.primed)

/-- `XFER`: the channel is `ACTIVE_CH`; a channel that is not armed misses its deadline (R91, R141). -/
def execXfer (s : State) : Outcome' :=
  whenInited s <|
    if s.armed.get s.activeCh then .next (s.transfer s.activeCh)
    else raise (.deadlineMiss s.activeCh) s

/-- `REFILL`: the channel is `CH` (R92). -/
def execRefill (s : State) : Outcome' :=
  if s.refillEnabled then whenFillable s (.next s.refilled) else .refused .notEnabled

end Sys2Proof.Machine
end

