-- ==== Sys2Proof/Machine/Lifecycle.lean ====
section
/-!
DEFINITION. Timing selection, validity and the lifecycle (44_flip_and_host.md sections 2 and 3): SELECT_TIMING,
VALID, INIT, RESET.
-/

namespace Sys2Proof.Machine

/-- The pairs (horizontal shift, vertical shift) in the order of R116. -/
def shiftPairs : List (BitVec 2 × BitVec 2) :=
  [(0, 0), (0, 1), (0, 2), (1, 0), (1, 1), (1, 2), (2, 0), (2, 1), (2, 2)]

/-- A catalog entry matches a graphic request at the given shifts; nothing is truncated (R116, R137). -/
def matchesGraphic (width height : Half) (hs vs : BitVec 2) (t : TimingDescriptor) : Bool :=
  decide (t.hAct.toNat = width.toNat <<< hs.toNat) && decide (t.vAct.toNat = height.toNat <<< vs.toNat)

/-- A catalog entry matches a text request (R116). -/
def matchesText (width height : Half) (f : Font) (t : TimingDescriptor) : Bool :=
  decide (cellW + 1 ≤ t.hAct.toNat) && decide (width.toNat = (t.hAct.toNat - 1) / cellW) &&
    decide (height.toNat * f.glyphH = t.vAct.toNat)

/-- The graphic search: the shifts outermost, the catalog's order innermost (R116). -/
def selectGraphic (catalog : List TimingDescriptor) (width height : Half) : Option Selection :=
  shiftPairs.findSome? fun p =>
    (catalog.find? (matchesGraphic width height p.1 p.2)).map fun t => ⟨t, p.1, p.2⟩

/-- The text search (R116). -/
def selectText (catalog : List TimingDescriptor) (font : Option Font) (width height : Half) :
    Option Selection :=
  match font with
  | none => none
  | some f => (catalog.find? (matchesText width height f)).map fun t => ⟨t, 0, 0⟩

/-- `SELECT_TIMING(width, height, mode)` (R116). -/
def selectTiming (p : Platform) (width height : Half) (mode : Mode) : Option Selection :=
  if Mode.isText mode then selectText p.catalog p.font width height
  else selectGraphic p.catalog width height

/-- `VALID` (R117). -/
def validTiming (t : TimingDescriptor) : Bool :=
  -- (a) every command-word count is in [1, 4095]
  decide (1 ≤ t.hFp.toNat) && decide (t.hFp.toNat ≤ 4095) && decide (1 ≤ t.hSw.toNat) &&
  decide (t.hSw.toNat ≤ 4095) && decide (1 ≤ t.hBp.toNat) && decide (t.hBp.toNat ≤ 4095) &&
  decide (1 ≤ t.hAct.toNat) && decide (t.hBp.toNat + t.hAct.toNat ≤ 4095) &&
  -- (b)
  decide (1 ≤ t.vSw.toNat) && decide (1 ≤ t.vAct.toNat) &&
  -- (c) the ring is primed with inactive lines only
  decide (nCh ≤ vInactiveOf t) &&
  -- (d)
  decide (vTotalOf t ≤ 65535)

/-- The state after `RESET` of an initialised block (R50, R119): what R119 lists, and every element that
has no value now holds what it holds at power-on (log 6).  `PAL` and `OUT` keep their contents, the
parameters are constant, and what stands outside the block (the host port, the host's replies, the
consumer, the model's own fields) is untouched. -/
def State.released (s : State) : State :=
  { State.reset with
    plat := s.plat
    pal := s.pal
    out := s.out
    serIn := s.serIn
    wire := s.wire
    port := s.port
    busy := s.busy
    reply := s.reply
    result := s.result
    invoke := s.invoke
    turns := s.turns
    tick := s.tick
    epoch := s.epoch }

/-- `RESET()` (R119): idempotent, no effect when not initialised. -/
def State.afterReset (s : State) : State := if s.inited then s.released else s

/-- The commit of INIT before the command lists are built: the selection, the operands, and two new
frame buffers of unspecified contents (R118, R33). -/
def State.configured (s : State) (sel : Selection) (width height : Half) (mode : Mode) : State :=
  { s with
    timing := sel.timing
    hShift := sel.hShift
    vShift := sel.vShift
    mode := mode
    frameW := width
    frameH := height
    fb0 := []
    fb1 := []
    epoch := s.epoch + 1 }

/-- The command lists, the line buffers and, in TextAttributed, the Font Cache (R118). -/
def State.built (s : State) : State :=
  let t := s.withVlists.withHdr.withLb
  if t.mode = .textAttributed then t.withFontCache else t

/-- `OUT` starts empty, and with it the consumer (R118; log 14); `INITED = 1`. -/
def State.opened (s : State) : State :=
  { s with out := [], serIn := [], wire := [], inited := true }

/-- The whole commit of INIT, the prime included: it cannot fail (R118). -/
def State.committed (s : State) (sel : Selection) (width height : Half) (mode : Mode) : State :=
  (s.configured sel width height mode).built.opened.primed

/-- INIT after its RESET: the tests in the order of R139 and R144 (d), then the commit (R118). -/
def initFrom (width height : Half) (mode : Mode) (s : State) : Outcome' :=
  if width = 0 ∨ height = 0 then raise .configError s
  -- a configured FONT that breaks R108 or R109 has no meaning in a text mode (I14)
  else if Mode.isText mode && s.plat.font.isSome && !Platform.fontReady s.plat then .refused .badFont
  else
    match selectTiming s.plat width height mode with
    | none => raise .configError s
    | some sel =>
      if validTiming sel.timing then
        if Platform.clockOk s.plat sel.timing.bitClk then
          .next ((s.committed sel width height mode).replied [statusOk])
        else raise .fatalClock s
      else raise .configError s

/-- `INIT width, height, mode` (R118). -/
def execInit (width height : Half) (mode : Mode) (s : State) : Outcome' :=
  initFrom width height mode s.afterReset

/-- `RESET` (R119). -/
def execReset (s : State) : Outcome' := .next s.afterReset

/-- `SELECT_TIMING` run by name, in every state: it reads the parameters only (R116). -/
def execSelectTiming (width height : Half) (mode : Mode) (s : State) : Outcome' :=
  if Mode.isText mode && s.plat.font.isSome && !Platform.fontReady s.plat then .refused .badFont
  else .next (s.returned (.selection (selectTiming s.plat width height mode)))

/-- `VALID` run by name, in every state: a pure test (R117). -/
def execValid (t : TimingDescriptor) (s : State) : Outcome' :=
  .next (s.returned (.flag (validTiming t)))

end Sys2Proof.Machine
end

