-- ==== Sys2Proof/Machine/Flip.lean ====
section
/-!
DEFINITION. The flip protocol arbiter (44_flip_and_host.md section 4): FLIP_ASYNC, WAIT_FLIP, FLIP_BLOCKING,
FLIP_NOW, WAIT_VSYNC.  A wait that finds its condition false is blocked: it stays under way in `busy`, and each
later turn of the application is a wake or a re-check (R122, R125, R155; log 18).
-/

namespace Sys2Proof.Machine

/-- The application leaves the host operation it was in. -/
def State.leaveOp (s : State) : State := { s with busy := none }

/-- The application is in a host operation. -/
def State.enterOp (s : State) (op : HostOp) : State := { s with busy := some op }

/-- The check of `WAIT_FLIP`: a fresh read of `FLIP_REQ`; return, or wait for `EVENT` (R122). -/
def State.checkFlip (s : State) : State :=
  if s.flipDone then s.leaveOp else s.enterOp (.waitFlip true)

/-- The check of `WAIT_VSYNC`: a fresh read of `V_SCANLINE`; return, or wait for `EVENT` (R125). -/
def State.checkVsync (s : State) : State :=
  if s.inVsync then s.leaveOp else s.enterOp (.waitVsync true)

/-- `FLIP_ASYNC` (R121). -/
def execFlipAsync (s : State) : Outcome' := whenInited s (.next s.requestFlip)

/-- `WAIT_FLIP` (R122): returns at once when no flip is pending. -/
def execWaitFlip (s : State) : Outcome' := whenInited s (.next s.checkFlip)

/-- `FLIP_BLOCKING` is `FLIP_ASYNC; WAIT_FLIP`, and the handler may run between the two (R123): the
check of the wait is still to be made. -/
def execFlipBlocking (s : State) : Outcome' :=
  whenInited s (.next (s.requestFlip.enterOp (.waitFlip false)))

/-- `FLIP_NOW`: its meaning is the platform's policy (R124). -/
def execFlipNow (s : State) : Outcome' :=
  whenInited s <|
    match s.plat.flipNow with
    | .refuse => .refused .flipNowRefused
    | .immediate => .next { s with front := !s.front }

/-- `WAIT_VSYNC` (R125): returns at once when the counter is in the inactive region. -/
def execWaitVsync (s : State) : Outcome' := whenInited s (.next s.checkVsync)

end Sys2Proof.Machine
end

