-- ==== Sys2Proof/Machine/Access.lean ====
section
/-!
DEFINITION. Buffer access (44_flip_and_host.md section 5): CLEAR, WRITE_PIXEL, WRITE_SPAN_FILL, WRITE_SPAN_COPY,
READ_SPAN, PAL_SET, PAL_GET, WRITE_TEXT, and the single accesses of a host operation under way.

A host operation reads `FRONT` once, at its start; the meaning of the operation makes that read, checks what R115,
R73 and R126 ask for, and leaves the accesses in `busy`.  Each later turn of the application makes one single access
(R59, R62 (d)), so that a step of another agent may fall before, between and after any of them.
-/

namespace Sys2Proof.Machine

/-- Continue with `op`, or leave the operation when nothing remains of it. -/
def State.goOn (s : State) (remains : Bool) (op : HostOp) : State :=
  if remains then s.enterOp op else s.leaveOp

/-- One single access, wake or re-check of the host operation under way (R62 (d), R126). -/
def State.opStep (s : State) : HostOp → State
  | .clear b off => (s.writeFb8 b off 0).goOn (decide (off + 1 < s.fbBytes)) (.clear b (off + 1))
  | .pixel b n v => (s.writeUnit b n v).leaveOp
  | .spanFill b n len v => (s.writeUnit b n v).goOn (decide (1 < len)) (.spanFill b (n + 1) (len - 1) v)
  | .spanCopy b n data =>
    match data with
    | [] => s.leaveOp
    | v :: rest => (s.writeUnit b n v).goOn (!rest.isEmpty) (.spanCopy b (n + 1) rest)
  | .readSpan b n len got =>
    if 1 < len then s.enterOp (.readSpan b (n + 1) (len - 1) (got ++ [s.readUnit b n]))
    else (s.replied (got ++ [s.readUnit b n])).leaveOp
  | .text b n bytes attr attrNext =>
    match bytes with
    | [] => s.leaveOp
    | c :: rest =>
      if attrNext then
        (s.writeFb8 b (s.attrOffset n) attr).goOn (!rest.isEmpty) (.text b (n + 1) rest attr false)
      else if s.mode = .textAttributed then
        (s.writeFb8 b n c).enterOp (.text b n (c :: rest) attr true)
      else (s.writeFb8 b n c).goOn (!rest.isEmpty) (.text b (n + 1) rest attr false)
  -- a turn while asleep is a wake: `EVENT <- 0`, the re-check comes with the next turn
  | .waitFlip asleep => if asleep then s.clearEvent.enterOp (.waitFlip false) else s.checkFlip
  | .waitVsync asleep => if asleep then s.clearEvent.enterOp (.waitVsync false) else s.checkVsync

/-- `CLEAR`: every byte of the back buffer (R127). -/
def execClear (s : State) : Outcome' :=
  whenInited s (.next (s.goOn (decide (0 < s.fbBytes)) (.clear s.back 0)))

/-- `WRITE_PIXEL x, y, value` (R128). -/
def execWritePixel (x y : Half) (value : Word) (s : State) : Outcome' :=
  graphicAccess s x y 1 [value] (.next (s.enterOp (.pixel s.back (s.linear x y) value)))

/-- `WRITE_SPAN_FILL x, y, len, value` (R129): `len = 0` makes no access. -/
def execWriteSpanFill (x y len : Half) (value : Word) (s : State) : Outcome' :=
  graphicAccess s x y len.toNat [value]
    (.next (s.goOn (decide (0 < len.toNat)) (.spanFill s.back (s.linear x y) len.toNat value)))

/-- `WRITE_SPAN_COPY x, y, len, data` (R130). -/
def execWriteSpanCopy (x y : Half) (data : List Word) (s : State) : Outcome' :=
  graphicAccess s x y data.length data
    (.next (s.goOn (!data.isEmpty) (.spanCopy s.back (s.linear x y) data)))

/-- `READ_SPAN x, y, len`, from the front buffer (R131): `len = 0` returns nothing. -/
def execReadSpan (x y len : Half) (s : State) : Outcome' :=
  graphicAccess s x y len.toNat []
    (.next (s.goOn (decide (0 < len.toNat)) (.readSpan s.front (s.linear x y) len.toNat [])))

/-- `PAL_SET index, colour`, one atomic word write in every state and mode (R132). -/
def execPalSet (index : Byte) (colour : Word) (s : State) : Outcome' :=
  .next (s.writePal index (colourOf colour))

/-- `PAL_GET index`, in every state and mode (R133). -/
def execPalGet (index : Byte) (s : State) : Outcome' := .next (s.replied [s.readPal index])

/-- `WRITE_TEXT x, y, bytes, attribute, immediate` (R134): the immediate flag takes the front buffer. -/
def execWriteText (x y : Half) (bytes : List Byte) (attr : Byte) (immediate : Bool) (s : State) :
    Outcome' :=
  textAccess s x y bytes.length
    (.next (s.goOn (!bytes.isEmpty)
      (.text (if immediate then s.front else s.back) (s.linear x y) bytes attr false)))

/-- The operation under way brought to its end with no step of another agent in between: its remaining
accesses, at most `k` of them. -/
def State.finishOp : Nat → State → State
  | 0, s => s
  | k + 1, s =>
    match s.busy with
    | none => s
    | some op => State.finishOp k (s.opStep op)

end Sys2Proof.Machine
end

