-- ==== Sys2Proof/Machine/Serial.lean ====
section
/-!
DEFINITION. The contract of the serial peripheral's command interpreter for the two command words of a line
(30_encoding.md R71, R72): RAW_REPEAT and STREAM.  The peripheral is outside the block (R5 (f)); how it expands a
pixel word is not modelled (R5 (e), I18; log 12).
-/

namespace Sys2Proof.Machine

/-- `RAW_REPEAT n` followed by data word d: d on the serial output for n consecutive pixel periods
(R72). -/
def execRawRepeat (count : BitVec 12) (s : State) : Outcome' :=
  if count = 0 then .refused .zeroCount
  else
    match s.serIn with
    | (d :: rest) :: lines =>
      .next { s with serIn := rest :: lines, wire := s.wire ++ [.raw d count.toNat] }
    | _ => .refused .noDataWord

/-- `STREAM n` followed by the data words to the end of the line: n pixels taken from them, one pixel
period each (R71, R72). -/
def execStream (count : BitVec 12) (s : State) : Outcome' :=
  if count = 0 then .refused .zeroCount
  else
    match s.serIn with
    | (d :: rest) :: lines =>
      .next { s with serIn := lines, wire := s.wire ++ [.pixels count.toNat (d :: rest)] }
    | _ => .refused .noDataWord

end Sys2Proof.Machine
end

