-- ==== Sys2Proof/Machine/Dispatch.lean ====
section
/-! DEFINITION. The dispatch of an operation to its meaning, one arm for each constructor of Instr. -/

namespace Sys2Proof.Machine

def exec (i : Instr) (s : State) : Host.Outcome State Fault Refusal :=
  match i with
  | .init width height mode => Sys2Proof.Machine.execInit width height mode s
  | .reset => Sys2Proof.Machine.execReset s
  | .flipAsync => Sys2Proof.Machine.execFlipAsync s
  | .flipBlocking => Sys2Proof.Machine.execFlipBlocking s
  | .flipNow => Sys2Proof.Machine.execFlipNow s
  | .waitVsync => Sys2Proof.Machine.execWaitVsync s
  | .waitFlip => Sys2Proof.Machine.execWaitFlip s
  | .clear => Sys2Proof.Machine.execClear s
  | .writePixel x y value => Sys2Proof.Machine.execWritePixel x y value s
  | .writeSpanFill x y len value => Sys2Proof.Machine.execWriteSpanFill x y len value s
  | .writeSpanCopy x y data => Sys2Proof.Machine.execWriteSpanCopy x y data s
  | .readSpan x y len => Sys2Proof.Machine.execReadSpan x y len s
  | .palSet index colour => Sys2Proof.Machine.execPalSet index colour s
  | .palGet index => Sys2Proof.Machine.execPalGet index s
  | .writeText x y bytes attr immediate => Sys2Proof.Machine.execWriteText x y bytes attr immediate s
  | .rawRepeat count => Sys2Proof.Machine.execRawRepeat count s
  | .stream count => Sys2Proof.Machine.execStream count s
  | .xfer => Sys2Proof.Machine.execXfer s
  | .refill => Sys2Proof.Machine.execRefill s
  | .fillRgb565 k y => Sys2Proof.Machine.execFillRgb565 k y s
  | .fillPal8 k y => Sys2Proof.Machine.execFillPal8 k y s
  | .fillTextmono k y => Sys2Proof.Machine.execFillTextmono k y s
  | .fillTextattr k y => Sys2Proof.Machine.execFillTextattr k y s
  | .lineSync c => Sys2Proof.Machine.execLineSync c s
  | .lineBlank c => Sys2Proof.Machine.execLineBlank c s
  | .lineActive c => Sys2Proof.Machine.execLineActive c s
  | .classify v => Sys2Proof.Machine.execClassify v s
  | .srcrow v => Sys2Proof.Machine.execSrcrow v s
  | .vadvance => Sys2Proof.Machine.execVadvance s
  | .buildVlist => Sys2Proof.Machine.execBuildVlist s
  | .buildHdr => Sys2Proof.Machine.execBuildHdr s
  | .buildLb => Sys2Proof.Machine.execBuildLb s
  | .program c => Sys2Proof.Machine.execProgram c s
  | .prime => Sys2Proof.Machine.execPrime s
  | .fill k y => Sys2Proof.Machine.execFill k y s
  | .slot c y => Sys2Proof.Machine.execSlot c y s
  | .attrDecode cw a => Sys2Proof.Machine.execAttrDecode cw a s
  | .renderCharLine code row => Sys2Proof.Machine.execRenderCharLine code row s
  | .buildFc => Sys2Proof.Machine.execBuildFc s
  | .fcLookup code r => Sys2Proof.Machine.execFcLookup code r s
  | .selectTiming width height mode => Sys2Proof.Machine.execSelectTiming width height mode s
  | .valid t => Sys2Proof.Machine.execValid t s

end Sys2Proof.Machine
end

