-- ==== Sys2Proof/Machine/Turns.lean ====
section
/-!
DEFINITION. What each agent does with its turn (00_scope.md R24, 20_memory.md R62): where its next operation is
fetched.  An agent that has no enabled step passes its turn (log 28).
-/

namespace Sys2Proof.Machine

/-- Whose turn it is: the next of the list of turns, and a free value when the list is empty (log 1). -/
def State.nextTurn (s : State) : Agent :=
  match s.turns with
  | a :: _ => a
  | [] => Config.turn s.tick

/-- The state with that turn taken. -/
def State.took (s : State) : State := { s with turns := s.turns.tail, tick := s.tick + 1 }

/-- The application: one single access of the operation under way (R62 (d)), or the next host operation
at the host port (R73). -/
def appTurn (s : State) : Outcome' :=
  match s.busy with
  | some op => .next (s.opStep op)
  | none =>
    match s.port with
    | [] => .next s
    | _ =>
      match decodeH s.port with
      | .ok (i, rest) => exec i { s with port := rest }
      | .error e => .refused (.undecodable e)

/-- The handler: its invocation by the completion event of `CH` (R75, R92, R145). -/
def handlerTurn (s : State) : Outcome' :=
  if s.inited && s.irqEn then
    match decodeE s.ints s.ch with
    | .ok i => exec i s
    | .error _ => .next s
  else .next s

/-- The DMA ring: `XFER`, which has no encoding of its own (R75); no step exists while `INITED = 0`
(R27). -/
def dmaTurn (s : State) : Outcome' := if s.xferEnabled then exec .xfer s else .next s

/-- The serial peripheral: the next command word of the line it is reading (R71, R72); a line read to
its end is left behind. -/
def serialTurn (s : State) : Outcome' :=
  match s.serIn with
  | [] => .next s
  | [] :: lines => .next { s with serIn := lines }
  | (w :: rest) :: lines =>
    match decodeC w with
    | .ok i => exec i { s with serIn := rest :: lines }
    | .error e => .refused (.undecodable e)

/-- The turn of an agent. -/
def agentTurn (a : Agent) (s : State) : Outcome' :=
  match a with
  | .app => appTurn s
  | .handler => handlerTurn s
  | .dma => dmaTurn s
  | .serial => serialTurn s

/-- The operation the table's word is placed as: a format M code is run by name, a format C word is the
head of the line the serial peripheral reads, a format H word stands at the host port (log 17). -/
def placeWord (s : State) (nbits w : Nat) : State :=
  if nbits ≤ 8 then
    match decodeTableWord nbits w with
    | some i => { s with invoke := i :: s.invoke }
    | none => s
  else if isFormatC (tableWord w 0) then
    { s with invoke := [], turns := .serial :: s.turns, serIn := tableWords w :: s.serIn }
  else
    { s with invoke := [], turns := .app :: s.turns, busy := none, port := tableWords w ++ s.port }

end Sys2Proof.Machine
end

