-- ==== Sys2Proof/Machine/Step.lean ====
section
/-! DEFINITION. One step of the machine, and where the next operation is fetched. -/

namespace Sys2Proof.Machine

/-- One step: an internal operation run by name if there is one (log 15), else the turn of the agent that
moves next. -/
def step (s : State) : Host.Outcome State Fault Refusal :=
  match s.invoke with
  | i :: rest => exec i { s with invoke := rest }
  | [] => agentTurn s.nextTurn s.took

/-- The state whose next step runs the operation whose bits are `w` (log 17). -/
def State.withFetchWord (s : State) (nbits w : Nat) : State := placeWord s nbits w

end Sys2Proof.Machine
end

