-- ==== Sys2Proof/Safety.lean ====
section
/-!
DEFINITION. The terms the statements use: the well-formed state (the invariant of the machine), what a descriptor
carries, a safe step, and the duration of a run on the serial output.
-/

namespace Sys2Proof.Machine

/-- Every address of a memory lies below a bound, and every value meets a test. -/
def storeWithin {α : Type} (bound : Nat) (ok : α → Bool) (m : List (Nat × α)) : Bool :=
  m.all fun c => decide (c.1 < bound) && ok c.2

/-- The memories are in their canonical form and inside their regions (R33, R53); a palette entry that
has been written has a zero top byte (R39, R132). -/
abbrev State.memoryOk (s : State) : Prop :=
  Memory.wf s.fb0 = true ∧ Memory.wf s.fb1 = true ∧ Memory.wf s.pal = true ∧
  storeWithin s.fbBytes (fun _ => true) s.fb0 = true ∧
  storeWithin s.fbBytes (fun _ => true) s.fb1 = true ∧
  storeWithin palSize (fun w => decide (w.toNat < 16777216)) s.pal = true

/-- The selected configuration is one that INIT accepts (R116, R117, R118). -/
abbrev State.configOk (s : State) : Prop :=
  validTiming s.timing = true ∧ 1 ≤ s.frameW.toNat ∧ 1 ≤ s.frameH.toNat ∧
  s.hShift.toNat ≤ 2 ∧ s.vShift.toNat ≤ 2 ∧
  (Mode.isText s.mode = false →
    s.timing.hAct.toNat = s.frameW.toNat * s.hRep ∧ s.timing.vAct.toNat = s.frameH.toNat * s.vRep) ∧
  (Mode.isText s.mode = true →
    Platform.fontReady s.plat = true ∧ s.hShift = 0 ∧ s.vShift = 0 ∧
    cellW + 1 ≤ s.timing.hAct.toNat ∧ s.frameW.toNat = (s.timing.hAct.toNat - 1) / cellW ∧
    s.frameH.toNat * s.font.glyphH = s.timing.vAct.toNat)

/-- The tables INIT built are still what INIT built, and the line buffers have their shape (R36, R38,
R40, R67). -/
abbrev State.buffersOk (s : State) : Prop :=
  s.clOn = s.vlist true ∧ s.clOff = s.vlist false ∧ s.hdr = s.header ∧
  s.lb.length = s.pool ∧
  (∀ b ∈ s.lb, b.header = s.hdr ∧ b.pix.length = 4 * s.lineWords) ∧
  s.fc = (if s.mode = .textAttributed then fontCacheWords s.font else [])

/-- The number of armed channels: the lines programmed and not yet sent (R93). -/
def State.armedCount (s : State) : Nat :=
  s.armed.k0.toNat + s.armed.k1.toNat + s.armed.k2.toNat

/-- The descriptor `PROGRAM` writes for scanline `v` on channel `c` (R89). -/
def State.descFor (s : State) (c : Channel) (v : Nat) : Descriptor :=
  match s.classOf v with
  | .sync => ⟨.clOn, vlistLen⟩
  | .blank => ⟨.clOff, vlistLen⟩
  | .active => ⟨.lb (s.slotOf c (s.rowOf v)), s.lbLen⟩

/-- The ring of a running block without a deadline miss (R43 to R46, R93): a channel is armed or its
completion is pending, never both; the armed channels are the next ones to transfer, `CH` is the
channel after them, and each carries the scanline it was programmed for. -/
abbrev State.ringOk (s : State) : Prop :=
  s.irqEn = true ∧ s.vScanline.toNat < s.vTotal ∧
  (∀ k : Channel, s.pending.get k = !s.armed.get k) ∧
  s.ch = s.activeCh + Fin.ofNat 3 s.armedCount ∧
  (∀ j : Channel, s.armed.get (s.activeCh + j) = decide (j.val < s.armedCount)) ∧
  (∀ j : Channel, j.val < s.armedCount →
    s.desc.get (s.activeCh + j) =
      s.descFor (s.activeCh + j) ((s.vScanline.toNat + s.vTotal - s.armedCount + j.val) % s.vTotal))

/-- The slot of the most recent fill in the current frame (R42): none before the first active line of
the frame, then the slot of the line programmed last. -/
abbrev State.markerOk (s : State) : Prop :=
  s.marker =
    if s.vScanline.toNat ≤ s.vInactive then none
    else some (s.slotOf (s.ch + 2) (s.rowOf (s.vScanline.toNat - 1)))

/-- The block that is not initialised (R50): the ring is stopped and no buffer exists. -/
abbrev State.stoppedOk (s : State) : Prop :=
  s.irqEn = false ∧ s.armed = PerChannel.all false ∧ s.pending = PerChannel.all false ∧
  s.fb0 = [] ∧ s.fb1 = [] ∧ s.lb = [] ∧ s.clOn = [] ∧ s.clOff = [] ∧ s.hdr = [] ∧ s.fc = [] ∧
  s.busy = none

/-- The remaining accesses of a host operation lie inside the frame buffer (R126). -/
def State.opOk (s : State) : HostOp → Bool
  | .clear _ off => decide (off < s.fbBytes)
  | .pixel _ n _ => !Mode.isText s.mode && decide (n < s.units)
  | .spanFill _ n len _ => !Mode.isText s.mode && decide (1 ≤ len) && decide (n + len ≤ s.units)
  | .spanCopy _ n data =>
    !Mode.isText s.mode && !data.isEmpty && decide (n + data.length ≤ s.units)
  | .readSpan _ n len _ => !Mode.isText s.mode && decide (1 ≤ len) && decide (n + len ≤ s.units)
  | .text _ n bytes _ attrNext =>
    Mode.isText s.mode && !bytes.isEmpty && decide (n + bytes.length ≤ s.units) &&
      (!attrNext || decide (s.mode = .textAttributed))
  | .waitFlip _ => true
  | .waitVsync _ => true

/-- The host operation under way, if any, is well formed. -/
def State.busyOk (s : State) : Bool :=
  match s.busy with
  | none => true
  | some op => s.opOk op

/-- The well-formed states: what every run of the machine without a fault stays in.  The last conjunct is
R16's: the sizes of the catalog are pairwise distinct. -/
abbrev State.Inv (s : State) : Prop :=
  s.invoke = [] ∧ s.memoryOk ∧ s.busyOk = true ∧
  (s.inited = true → s.configOk ∧ s.buffersOk ∧ s.ringOk ∧ s.markerOk) ∧
  (s.inited = false → s.stoppedOk) ∧ catalogOk s.plat.catalog = true

/-- The operands break the precondition of an access operation (R126). -/
abbrev State.outside (s : State) (x y : Half) (len : Nat) : Prop :=
  s.frameW.toNat ≤ x.toNat ∨ s.frameH.toNat ≤ y.toNat ∨
    s.frameW.toNat * s.frameH.toNat < y.toNat * s.frameW.toNat + x.toNat + len

/-- A safe step: no deadline miss and no fatal clock; a refusal is no claim about the machine. -/
def safeOutcome (o : Host.Outcome State Fault Refusal) : Prop := ∀ f, o ≠ .fault f

/-- The pixel periods of a run on the serial output (R72). -/
def WireRun.duration : WireRun → Nat
  | .raw _ n => n
  | .pixels n _ => n

/-- The pixel periods of a list of runs (R72). -/
def wireDuration (ws : List WireRun) : Nat := (ws.map WireRun.duration).sum

/-- `k` turns of the serial peripheral, no other agent in between. -/
def serialTurns : Nat → State → Host.Outcome State Fault Refusal
  | 0, s => .next s
  | k + 1, s =>
    match serialTurn s with
    | .next t => serialTurns k t
    | .fault f => .fault f
    | .refused r => .refused r

end Sys2Proof.Machine
end

