-- ==== Sys2Proof/Certificates/Slice0/Obligations.lean ====
section
/-!
DEFINITION. The statements for the provers: what the spec's rules say, over every state of the model.
-/

open Sys2Proof Sys2Proof.Machine

/-! ## Encodings (30_encoding.md) -/

/-- R73, R74: every well-formed host operation decodes from its words to itself, with every operand at
every value, whatever stands after it. -/
def Obligations.DecodeEncodeHostOps : Prop :=
  ∀ (i : Instr) (rest : List Word), i.format = .h → i.wellFormed = true →
    decodeH (encode i ++ rest) = .ok (i, rest)

/-- R73, R74, R76: words decode to a host operation only if they are that operation's encoding, so a
reserved opcode or a non-zero unused field is never read as a neighbour. -/
def Obligations.HostWordsHaveOneReading : Prop :=
  ∀ (ws rest : List Word) (i : Instr), decodeH ws = .ok (i, rest) →
    i.format = .h ∧ i.wellFormed = true ∧ ws = encode i ++ rest

/-- R70, R71: a command word decodes to the operation whose encoding it is and to no other; the codes of
the formats M and L name the operation whose code they are, and the class code 0b11 names none. -/
def Obligations.CommandWordsAndCodesDecode : Prop :=
  (∀ (w : Word) (i : Instr), decodeC w = .ok i ↔ i.format = .c ∧ encode i = [w]) ∧
  (∀ (code : BitVec 2) (k y : Nat),
    (decodeM code k y).format = .m ∧ encode (decodeM code k y) = [0#30 ++ code]) ∧
  (∀ (code : BitVec 2) (c : Channel),
    (∃ i, decodeL code c = .ok i ∧ i.format = .l ∧ encode i = [0#30 ++ code]) ↔ code ≠ 3#2)

/-- R74, the words written out in 95_test_vectors.md V6.1 and V6.2. -/
def Obligations.WrittenOutWordsDecode : Prop :=
  decodeH [0x01000000#32, 0x01E00280#32] = .ok (.init 640 480 .rgb565, []) ∧
  decodeH [0x10000000#32, 0x00090000#32, 0x0000001F#32] = .ok (.writePixel 0 9 0x1F#32, []) ∧
  decodeH [0x11000004#32, 0x00000002#32, 0x0000001F#32] = .ok (.writeSpanFill 2 0 4 0x1F#32, []) ∧
  decodeH [0x1A010001#32, 0x00000001#32, 0x00000080#32, 0x00000041#32] =
    .ok (.writeText 1 0 [0x41#8] 0x80#8 true, []) ∧
  decodeH [0x18000001#32, 0x00123456#32] = .ok (.palSet 1 0x123456#32, []) ∧
  decodeH [0x09000000#32] = .error (.unknownOpcode 9#8) ∧
  decodeH [0x03000001#32] = .error .unusedFieldSet ∧
  decodeC 0x00001FFF#32 = .ok (.rawRepeat 4095#12) ∧
  decodeC 0x00002280#32 = .ok (.stream 640#12)

/-- R76, R73, R74: the application's turn refuses host words that are no operation, with the decoder's
reason.  The reason is: an opcode that R74 does not list; words that end before the operation does (the model's choice,
log 20); a non-zero unused field, operation by operation, and in WRITE_TEXT an attribute or a code above 8 bits. -/
def Obligations.UndecodableHostWordsRefused : Prop :=
  (∀ (s : State) (e : DecodeError), s.invoke = [] → s.nextTurn = .app → s.busy = none → s.port ≠ [] →
    decodeH s.port = .error e → step s = .refused (.undecodable e)) ∧
  (∀ (w0 : Word) (rest : List Word),
    (opcField w0 ∉ [0x01#8, 0x02#8, 0x03#8, 0x04#8, 0x05#8, 0x06#8, 0x07#8, 0x08#8, 0x10#8, 0x11#8,
        0x12#8, 0x13#8, 0x18#8, 0x19#8, 0x1A#8] →
      decodeH (w0 :: rest) = .error (.unknownOpcode (opcField w0))) ∧
    (opcField w0 ∈ [0x01#8, 0x10#8, 0x11#8, 0x12#8, 0x13#8, 0x18#8, 0x1A#8] →
      rest.length < wordsAfter w0 → decodeH (w0 :: rest) = .error .truncated) ∧
    -- the operations without operand words, and INIT: `FLG` (of INIT bits 7:2) and `A`
    (opcField w0 ∈ [0x02#8, 0x03#8, 0x04#8, 0x05#8, 0x06#8, 0x07#8, 0x08#8] →
      flgField w0 ≠ 0 ∨ aField w0 ≠ 0 → decodeH (w0 :: rest) = .error .unusedFieldSet) ∧
    (opcField w0 = 0x01#8 → rest ≠ [] → (flgField w0).extractLsb' 2 6 ≠ 0#6 ∨ aField w0 ≠ 0 →
      decodeH (w0 :: rest) = .error .unusedFieldSet) ∧
    -- WRITE_PIXEL, the spans, READ_SPAN, PAL_SET, PAL_GET: `FLG`, and what they do not use of `A`
    (opcField w0 ∈ [0x10#8, 0x11#8, 0x12#8, 0x13#8, 0x18#8, 0x19#8] → wordsAfter w0 ≤ rest.length →
      flgField w0 ≠ 0 → decodeH (w0 :: rest) = .error .unusedFieldSet) ∧
    (opcField w0 = 0x10#8 → wordsAfter w0 ≤ rest.length → aField w0 ≠ 0 →
      decodeH (w0 :: rest) = .error .unusedFieldSet) ∧
    (opcField w0 ∈ [0x18#8, 0x19#8] → wordsAfter w0 ≤ rest.length →
      (aField w0).extractLsb' 8 8 ≠ 0#8 → decodeH (w0 :: rest) = .error .unusedFieldSet)) ∧
  -- WRITE_TEXT: `FLG[7:1]`, bits 31:8 of the attribute word, bits 31:8 of a payload word
  (∀ (w0 w1 w2 : Word) (data rest : List Word), opcField w0 = 0x1A#8 → data.length = (aField w0).toNat →
    (flgField w0).extractLsb' 1 7 ≠ 0#7 ∨ 256 ≤ w2.toNat ∨ (∃ w ∈ data, 256 ≤ w.toNat) →
    decodeH (w0 :: w1 :: w2 :: (data ++ rest)) = .error .unusedFieldSet)

/-! ## The step -/

/-- A step runs the operation it fetches: the host operation at the host port, the next access of the
operation under way, `XFER`, `REFILL`, the command word at the head of the line being read, and an internal operation
run by name.  Around it the model's own count of turns advances (`took`), and the words taken leave their place.
That one agent moves a turn is the model's choice (log 1), that a host operation under way makes one access a turn is
log 2, that the host's words stand at a port log 17, and that internal operations can be run by name from a list
log 15. -/
def Obligations.StepRunsNextOperation : Prop :=
  (∀ (s : State) (i : Instr) (rest : List Word), s.invoke = [] → s.nextTurn = .app → s.busy = none →
    decodeH s.port = .ok (i, rest) → step s = exec i { s.took with port := rest }) ∧
  (∀ (s : State) (op : HostOp), s.invoke = [] → s.nextTurn = .app → s.busy = some op →
    step s = .next (s.took.opStep op)) ∧
  (∀ s : State, s.invoke = [] → s.nextTurn = .dma → s.inited = true → step s = exec .xfer s.took) ∧
  (∀ s : State, s.invoke = [] → s.nextTurn = .handler → s.refillEnabled = true →
    step s = exec .refill s.took) ∧
  (∀ (s : State) (w : Word) (rest : List Word) (lines : List (List Word)) (i : Instr), s.invoke = [] →
    s.nextTurn = .serial → s.serIn = (w :: rest) :: lines → decodeC w = .ok i →
    step s = exec i { s.took with serIn := rest :: lines }) ∧
  (∀ (s : State) (i : Instr) (is : List Instr), s.invoke = i :: is →
    step s = exec i { s with invoke := is })

/-- R27: while `INITED = 0`, `XFER` and `REFILL` have no step; R92: neither has the handler while the
completion of `CH` is not pending.  The agent passes its turn (the model's choice, log 28). -/
def Obligations.DisabledAgentsPassTheirTurn : Prop :=
  ∀ s : State, s.invoke = [] →
    (s.nextTurn = .dma → s.inited = false → step s = .next s.took) ∧
    (s.nextTurn = .handler → s.refillEnabled = false → step s = .next s.took)

/-! ## Invariants and whole-machine rules -/

/-- Every step from a well-formed state gives a well-formed state: memories canonical and inside their
regions, tables as INIT built them, the ring's descriptors carrying the lines they were programmed for, the marker
naming the slot of the last active line, the host operation under way inside the frame buffer, the sizes of the
catalog pairwise distinct (R16). -/
def Obligations.StepKeepsInvariant : Prop :=
  ∀ s t : State, s.Inv → step s = .next t → t.Inv

/-- The machine right after reset is well formed, whatever its platform is (R50, R157, R16). -/
def Obligations.ResetStateHasInvariant : Prop := State.reset.Inv

/-- R68: the line buffer that an armed channel's descriptor names is never written by the handler. -/
def Obligations.InFlightBuffersNeverOverwritten : Prop :=
  ∀ (s : State) (k : Channel) (sl n : Nat), s.Inv → s.refillEnabled = true →
    s.armed.get k = true → s.desc.get k = ⟨.lb sl, n⟩ →
    ∃ t, exec .refill s = .next t ∧ t.lb[sl]? = s.lb[sl]? ∧ t.desc.get k = ⟨.lb sl, n⟩

/-- R144 (c): an enabled `XFER` and an enabled `REFILL` commute, on the state and on `OUT`. -/
def Obligations.XferAndRefillCommute : Prop :=
  ∀ s : State, s.Inv → s.refillEnabled = true → s.armed.get s.activeCh = true →
    ∃ t u w, exec .xfer s = .next t ∧ exec .refill s = .next u ∧
      exec .refill t = .next w ∧ exec .xfer u = .next w

/-- R98, R99: when the handler programs an active line, the reuse test finds the marker at the line's slot
exactly for the lines of a row after its first one, of which there are none without vertical repeat.  For those the
handler leaves every line buffer alone; for the first line of a row it fills the slot with the row. -/
def Obligations.EachRowFilledOnceAFrame : Prop :=
  ∀ s : State, s.Inv → s.refillEnabled = true → s.vInactive ≤ s.vScanline.toNat →
    ∃ t, exec .refill s = .next t ∧
      (s.marker = some (s.slotOf s.ch (s.rowOf s.vScanline.toNat)) ↔
        s.vShift ≠ 0 ∧ (s.vScanline.toNat - s.vInactive) % s.vRep ≠ 0) ∧
      (s.vShift ≠ 0 ∧ (s.vScanline.toNat - s.vInactive) % s.vRep ≠ 0 → t.lb = s.lb) ∧
      (s.vShift = 0 ∨ (s.vScanline.toNat - s.vInactive) % s.vRep = 0 →
        t.lb = (s.fillLine (s.slotOf s.ch (s.rowOf s.vScanline.toNat))
          (s.rowOf s.vScanline.toNat)).lb)

/-- R96, R120: the handler's step does not depend on what the back buffer holds, and leaves it as it is. -/
def Obligations.HandlerNeverReadsBackBuffer : Prop :=
  ∀ (s t : State) (m : List Host.Cell), exec .refill s = .next t →
    exec .refill (s.withFb s.back m) = .next (t.withFb s.back m)

/-- R83 (c), R136 (a): under the policy `refuse` the buffer roles change, between an INIT and the next
RESET or INIT, only in the handler's step that wraps the counter, only with a flip pending, and that step clears the
request. -/
def Obligations.FrontChangesOnlyAtWrap : Prop :=
  ∀ s t : State, s.invoke = [] → s.plat.flipNow = .refuse → s.inited = true → t.inited = true →
    t.epoch = s.epoch → step s = .next t → t.front ≠ s.front →
    s.nextTurn = .handler ∧ s.flipReq = true ∧ s.vScanline.toNat + 1 = s.vTotal ∧
      t.vScanline = 0 ∧ t.flipReq = false ∧ t.marker = none ∧ t.event = true

/-- R148: outside INIT and RESET (and `FLIP_NOW` under the policy `immediate`) no turn of the application
writes what the handler context alone writes: it never clears `FLIP_REQ` and never sets `EVENT`. -/
def Obligations.ApplicationKeepsHandlerState : Prop :=
  ∀ s t : State, s.invoke = [] → s.nextTurn = .app → s.plat.flipNow = .refuse → s.inited = true →
    t.inited = true → t.epoch = s.epoch → step s = .next t →
    t.vScanline = s.vScanline ∧ t.ch = s.ch ∧ t.marker = s.marker ∧ t.desc = s.desc ∧
    t.armed = s.armed ∧ t.pending = s.pending ∧ t.activeCh = s.activeCh ∧ t.irqEn = s.irqEn ∧
    t.lb = s.lb ∧ t.front = s.front ∧ t.out = s.out ∧
    (s.flipReq = true → t.flipReq = true) ∧ (t.event = true → s.event = true)

/-- R148: no turn of the handler, of the DMA ring or of the serial peripheral writes a frame buffer, the
palette, the configuration or the host's side; none of them sets `FLIP_REQ` or clears `EVENT`. -/
def Obligations.OtherAgentsKeepApplicationState : Prop :=
  ∀ s t : State, s.invoke = [] → s.nextTurn ≠ .app → step s = .next t →
    (∀ (b : Bool) (a : Nat), t.readFb8 b a = s.readFb8 b a) ∧ (∀ i : Byte, t.readPal i = s.readPal i) ∧
    t.inited = s.inited ∧ t.timing = s.timing ∧ t.mode = s.mode ∧ t.hShift = s.hShift ∧
    t.vShift = s.vShift ∧ t.frameW = s.frameW ∧ t.frameH = s.frameH ∧ t.epoch = s.epoch ∧
    t.port = s.port ∧ t.busy = s.busy ∧ t.reply = s.reply ∧
    (t.flipReq = true → s.flipReq = true) ∧ (s.event = true → t.event = true)

/-- R38, R40, R67, R16: the command lists, the line-buffer headers and the Font Cache are written by INIT
and RESET only, and the platform's data by nothing. -/
def Obligations.TablesWrittenAtInitOnly : Prop :=
  ∀ s t : State, s.invoke = [] → step s = .next t →
    t.plat = s.plat ∧
    (s.inited = true → t.inited = true → t.epoch = s.epoch →
      t.clOn = s.clOn ∧ t.clOff = s.clOff ∧ t.hdr = s.hdr ∧ t.fc = s.fc ∧
      t.lb.map LineBuffer.header = s.lb.map LineBuffer.header)

/-! ## Lifecycle (44_flip_and_host.md sections 2 and 3) -/

/-- R51, R118: a successful INIT, element by element; the host port and the operation under way are the
model's own (logs 2, 17). -/
def Obligations.InitBringsUpTheBlock : Prop :=
  ∀ (s : State) (width height : Half) (mode : Mode) (sel : Selection),
    width ≠ 0 → height ≠ 0 → (Mode.isText mode = true → Platform.fontReady s.plat = true) →
    selectTiming s.plat width height mode = some sel → validTiming sel.timing = true →
    Platform.clockOk s.plat sel.timing.bitClk = true → (s.inited = false → s.stoppedOk) →
    ∃ t, exec (.init width height mode) s = .next t ∧
      t.inited = true ∧ t.timing = sel.timing ∧ t.mode = mode ∧ t.hShift = sel.hShift ∧
      t.vShift = sel.vShift ∧ t.frameW = width ∧ t.frameH = height ∧
      (∀ (b : Bool) (a : Nat), t.readFb8 b a = Config.fbByte (s.epoch + 1) b a) ∧
      t.front = false ∧ t.flipReq = false ∧ t.clOn = t.vlist true ∧ t.clOff = t.vlist false ∧
      t.hdr = t.header ∧ t.lb = List.replicate t.pool ⟨t.hdr, List.replicate (4 * t.lineWords) 0⟩ ∧
      t.fc = (if mode = .textAttributed then fontCacheWords t.font else []) ∧
      t.irqEn = true ∧ t.pending = PerChannel.all false ∧ t.armed = PerChannel.all true ∧
      (∀ k : Channel, t.classOf k.val ≠ .active ∧ t.desc.get k = t.descFor k k.val) ∧
      t.ch = 0 ∧ t.activeCh = 0 ∧ t.vScanline = 3 ∧ t.marker = none ∧ t.event = false ∧
      t.out = [] ∧ t.plat = s.plat ∧ (∀ i : Byte, t.readPal i = s.readPal i) ∧
      t.reply = s.reply ++ [0x00000000#32] ∧ t.port = s.port ∧ t.busy = s.busy

/-- R139: the three configuration errors of INIT.  INIT answers -1, and the state is the one its RESET
leaves. -/
def Obligations.InitConfigErrorAnswersMinusOne : Prop :=
  ∀ (s : State) (width height : Half) (mode : Mode),
    (width = 0 ∨ height = 0 ∨
      ((Mode.isText mode = false ∨ s.plat.font = none ∨ Platform.fontReady s.plat = true) ∧
        (selectTiming s.plat width height mode = none ∨
          ∃ sel, selectTiming s.plat width height mode = some sel ∧
            validTiming sel.timing = false))) →
    ∃ t u, exec .reset s = .next t ∧ exec (.init width height mode) s = .next u ∧
      u = { t with reply := s.reply ++ [0xFFFFFFFF#32] } ∧ u.inited = false

/-- R140: INIT with a matching, valid descriptor whose exact bit clock the bring-up does not reach ends
the run; the test comes after the configuration errors. -/
def Obligations.InitFatalClockEndsTheRun : Prop :=
  ∀ (s : State) (width height : Half) (mode : Mode) (sel : Selection),
    width ≠ 0 → height ≠ 0 → (Mode.isText mode = true → Platform.fontReady s.plat = true) →
    selectTiming s.plat width height mode = some sel → validTiming sel.timing = true →
    Platform.clockOk s.plat sel.timing.bitClk = false →
    exec (.init width height mode) s = .fault .fatalClock

/-- R119, R50: RESET of an initialised block disables the interrupt, aborts all channels and releases the
buffers; of a block that is not initialised it changes nothing; twice is once; the palette and `OUT` are kept.  That the
reply words (log 27), the consumer's lists `serIn` and `wire` (log 14), the host port (log 17) and the operation under way
(log 2) are kept is the model's choice. -/
def Obligations.ResetReleasesTheBlock : Prop :=
  ∀ s : State, ∃ t, exec .reset s = .next t ∧ exec .reset t = .next t ∧
    (s.inited = false → t = s) ∧ t.inited = false ∧
    (s.inited = true →
      t.irqEn = false ∧ t.armed = PerChannel.all false ∧ t.pending = PerChannel.all false ∧
      t.fb0 = [] ∧ t.fb1 = [] ∧ t.lb = [] ∧ t.clOn = [] ∧ t.clOff = [] ∧ t.hdr = [] ∧ t.fc = []) ∧
    (∀ i : Byte, t.readPal i = s.readPal i) ∧ t.out = s.out ∧ t.plat = s.plat ∧ t.reply = s.reply ∧
    t.port = s.port ∧ t.busy = s.busy ∧ t.serIn = s.serIn ∧ t.wire = s.wire

/-- R116: in a graphic mode `SELECT_TIMING` returns the first catalog entry at the smallest horizontal,
then the smallest vertical repeat that matches exactly, and none only if nothing matches.  R16: the sizes of the
catalog being pairwise distinct, no other entry matches at that pair. -/
def Obligations.SelectTimingSmallestRepeat : Prop :=
  ∀ (s : State) (width height : Half) (mode : Mode), Mode.isText mode = false →
    ∃ r, exec (.selectTiming width height mode) s = .next { s with result := .selection r } ∧
      (∀ t hs vs, r = some ⟨t, hs, vs⟩ →
        (s.plat.catalog.find? (matchesGraphic width height hs vs) = some t ∧
          hs.toNat ≤ 2 ∧ vs.toNat ≤ 2 ∧
          (catalogOk s.plat.catalog = true →
            ∀ t' ∈ s.plat.catalog, matchesGraphic width height hs vs t' = true → t' = t) ∧
          ∀ (hs' vs' : BitVec 2), hs'.toNat ≤ 2 → vs'.toNat ≤ 2 →
            (hs'.toNat < hs.toNat ∨ hs' = hs ∧ vs'.toNat < vs.toNat) →
            ∀ t' ∈ s.plat.catalog, matchesGraphic width height hs' vs' t' = false)) ∧
      (r = none → ∀ (hs vs : BitVec 2), hs.toNat ≤ 2 → vs.toNat ≤ 2 →
        ∀ t ∈ s.plat.catalog, matchesGraphic width height hs vs t = false)

/-- R116: in a text mode `SELECT_TIMING` returns the first catalog entry whose height is that of the
cells and whose width leaves 1 to 14 filler pixels, without repeat; without a font it returns none. -/
def Obligations.SelectTimingTextCells : Prop :=
  ∀ (s : State) (width height : Half) (mode : Mode), Mode.isText mode = true →
    (s.plat.font = none ∨ Platform.fontReady s.plat = true) →
    ∃ r, exec (.selectTiming width height mode) s = .next { s with result := .selection r } ∧
      (s.plat.font = none → r = none) ∧
      (∀ t hs vs, r = some ⟨t, hs, vs⟩ →
        s.plat.catalog.find? (matchesText width height s.font) = some t ∧ hs = 0 ∧ vs = 0 ∧
        height.toNat * s.font.glyphH = t.vAct.toNat ∧
        width.toNat * 14 + 1 ≤ t.hAct.toNat ∧ t.hAct.toNat ≤ width.toNat * 14 + 14) ∧
      (r = none → s.plat.font = none ∨ ∀ t ∈ s.plat.catalog,
        height.toNat * s.font.glyphH ≠ t.vAct.toNat ∨ t.hAct.toNat < 15 ∨
          t.hAct.toNat < width.toNat * 14 + 1 ∨ width.toNat * 14 + 14 < t.hAct.toNat)

/-- R117: what `VALID` accepts. -/
def Obligations.ValidAcceptsExactly : Prop :=
  ∀ (s : State) (t : TimingDescriptor), ∃ b : Bool,
    exec (.valid t) s = .next { s with result := .flag b } ∧
    (b = true ↔
      (1 ≤ t.hFp.toNat ∧ t.hFp.toNat ≤ 4095) ∧ (1 ≤ t.hSw.toNat ∧ t.hSw.toNat ≤ 4095) ∧
      (1 ≤ t.hBp.toNat ∧ t.hBp.toNat ≤ 4095) ∧ 1 ≤ t.hAct.toNat ∧
      t.hBp.toNat + t.hAct.toNat ≤ 4095 ∧ 1 ≤ t.vSw.toNat ∧ 1 ≤ t.vAct.toNat ∧
      3 ≤ t.vFp.toNat + t.vSw.toNat + t.vBp.toNat ∧
      t.vFp.toNat + t.vSw.toNat + t.vBp.toNat + t.vAct.toNat ≤ 65535)

/-! ## The vertical state machine (40_vertical.md) -/

/-- R80: the class of a scanline. -/
def Obligations.ClassifyScanline : Prop :=
  ∀ (s : State) (v : Nat), s.inited = true → v < s.vTotal →
    ∃ c : LineClass, exec (.classify v) s = .next { s with result := .lineClass c } ∧
      (c = .sync ↔ s.timing.vFp.toNat ≤ v ∧ v < s.timing.vFp.toNat + s.timing.vSw.toNat) ∧
      (c = .active ↔ s.timing.vFp.toNat + s.timing.vSw.toNat + s.timing.vBp.toNat ≤ v)

/-- R81, R83 (b): the source row of an active scanline, a pixel row of the frame; every row is the row of
`V_REP` consecutive lines. -/
def Obligations.SourceRowOfScanline : Prop :=
  ∀ (s : State) (v : Nat), s.inited = true → s.configOk → s.vInactive ≤ v → v < s.vTotal →
    ∃ y, exec (.srcrow v) s = .next { s with result := .number y } ∧ y < s.rows ∧
      s.vInactive + y * s.vRep ≤ v ∧ v < s.vInactive + (y + 1) * s.vRep

/-- R82: the advance of the counter, the wrap sequence included. -/
def Obligations.VadvanceCountsAndWraps : Prop :=
  ∀ s : State, s.inited = true →
    (s.vScanline.toNat + 1 ≠ s.vTotal →
      exec .vadvance s = .next { s with vScanline := s.vScanline + 1 }) ∧
    (s.vScanline.toNat + 1 = s.vTotal →
      exec .vadvance s = .next { s with
        vScanline := 0
        front := if s.flipReq = true then !s.front else s.front
        flipReq := false
        marker := none
        event := true })

/-! ## The ring (41_dma_ring.md) -/

/-- R86, R87, R88: the three builders. -/
def Obligations.BuildersWriteTheTables : Prop :=
  ∀ s : State, s.inited = true → s.configOk →
    exec .buildVlist s = .next { s with
      clOn := [BitVec.ofNat 32 (4096 + s.timing.hFp.toNat), s.plat.syncw10,
        BitVec.ofNat 32 (4096 + s.timing.hSw.toNat), s.plat.syncw11,
        BitVec.ofNat 32 (4096 + (s.timing.hBp.toNat + s.timing.hAct.toNat)), s.plat.syncw10]
      clOff := [BitVec.ofNat 32 (4096 + s.timing.hFp.toNat), s.plat.syncw00,
        BitVec.ofNat 32 (4096 + s.timing.hSw.toNat), s.plat.syncw01,
        BitVec.ofNat 32 (4096 + (s.timing.hBp.toNat + s.timing.hAct.toNat)), s.plat.syncw00] } ∧
    exec .buildHdr s = .next { s with
      hdr := [BitVec.ofNat 32 (4096 + s.timing.hFp.toNat), s.plat.syncw00,
        BitVec.ofNat 32 (4096 + s.timing.hSw.toNat), s.plat.syncw01,
        BitVec.ofNat 32 (4096 + s.timing.hBp.toNat), s.plat.syncw00] ++
        (if Mode.isText s.mode then
          [BitVec.ofNat 32 (4096 + (s.timing.hAct.toNat - s.frameW.toNat * 14)), s.plat.blankPixel,
           BitVec.ofNat 32 (8192 + s.frameW.toNat * 14)]
         else [BitVec.ofNat 32 (8192 + s.timing.hAct.toNat)]) } ∧
    exec .buildLb s = .next { s with
      lb := List.replicate (if s.vShift = 0 then 3 else 2)
        ⟨s.hdr, List.replicate (4 * s.lineWords) 0⟩ }

/-- R89: `PROGRAM c` points channel `c` at what the class of `V_SCANLINE` asks for, arms it, and advances
the counter; the other channels keep their descriptors, and nothing else changes (no frame buffer, palette entry,
table or pending completion). -/
def Obligations.ProgramSetsUpOneChannel : Prop :=
  ∀ (s : State) (c : Channel), s.inited = true →
    (Mode.isText s.mode = true → Platform.fontReady s.plat = true) →
    ∃ t, exec (.program c) s = .next t ∧
      t.desc.get c = s.descFor c s.vScanline.toNat ∧ t.armed.get c = true ∧
      (∀ k : Channel, k ≠ c → t.desc.get k = s.desc.get k ∧ t.armed.get k = s.armed.get k) ∧
      (s.vScanline.toNat + 1 ≠ s.vTotal →
        t.vScanline = s.vScanline + 1 ∧ t.front = s.front ∧ t.flipReq = s.flipReq ∧
        t.event = s.event ∧
        (s.classOf s.vScanline.toNat ≠ .active → t.marker = s.marker) ∧
        (s.classOf s.vScanline.toNat = .active →
          t.marker = some (s.slotOf c (s.rowOf s.vScanline.toNat)))) ∧
      (s.vScanline.toNat + 1 = s.vTotal →
        t.vScanline = 0 ∧ t.front = (if s.flipReq = true then !s.front else s.front) ∧
        t.flipReq = false ∧ t.event = true ∧ t.marker = none) ∧
      (∀ k : Nat, ¬(s.classOf s.vScanline.toNat = .active ∧
          s.marker ≠ some k ∧ k = s.slotOf c (s.rowOf s.vScanline.toNat)) → t.lb[k]? = s.lb[k]?) ∧
      (s.classOf s.vScanline.toNat = .active →
        s.marker ≠ some (s.slotOf c (s.rowOf s.vScanline.toNat)) →
        t.lb = (s.fillLine (s.slotOf c (s.rowOf s.vScanline.toNat)) (s.rowOf s.vScanline.toNat)).lb) ∧
      t = { s with
        desc := t.desc, armed := t.armed, vScanline := t.vScanline, front := t.front
        flipReq := t.flipReq, event := t.event, marker := t.marker, lb := t.lb }

/-- R90: `PRIME` programs the three channels for scanlines 0, 1, 2 and starts channel 0. -/
def Obligations.PrimeStartsTheRing : Prop :=
  ∀ s : State, s.inited = true → s.configOk →
    ∃ t, exec .prime s = .next t ∧
      t = { s with
        vScanline := 3, ch := 0, activeCh := 0, marker := none, front := false, flipReq := false
        event := false, irqEn := true, armed := PerChannel.all true
        pending := PerChannel.all false, desc := t.desc } ∧
      (∀ k : Channel, t.desc.get k = s.descFor k k.val ∧ (t.desc.get k).count = 6)

/-- R89, format L: what each line class points a channel at, and that nothing else changes for the two
inactive classes. -/
def Obligations.LineClassesPointAChannel : Prop :=
  ∀ (s : State) (c : Channel), s.inited = true →
    exec (.lineSync c) s = .next { s with desc := s.desc.set c ⟨.clOn, 6⟩ } ∧
    exec (.lineBlank c) s = .next { s with desc := s.desc.set c ⟨.clOff, 6⟩ } ∧
    ((Mode.isText s.mode = true → Platform.fontReady s.plat = true) →
      s.vInactive ≤ s.vScanline.toNat → s.vScanline.toNat < s.vTotal →
      ∃ t, exec (.lineActive c) s = .next t ∧
        t = { s with
          desc := s.desc.set c ⟨.lb (s.slotOf c (s.rowOf s.vScanline.toNat)), s.lbLen⟩
          marker := some (s.slotOf c (s.rowOf s.vScanline.toNat))
          lb := t.lb } ∧
        (s.marker = some (s.slotOf c (s.rowOf s.vScanline.toNat)) → t.lb = s.lb) ∧
        (s.marker ≠ some (s.slotOf c (s.rowOf s.vScanline.toNat)) →
          t.lb = (s.fillLine (s.slotOf c (s.rowOf s.vScanline.toNat))
            (s.rowOf s.vScanline.toNat)).lb))

/-- R91: the channel whose turn it is sends the words of its region, raises its completion interrupt and
triggers the next channel.  `serIn` is the consumer's input (log 12). -/
def Obligations.XferSendsOneScanline : Prop :=
  ∀ s : State, s.inited = true → s.armed.get s.activeCh = true →
    exec .xfer s = .next { s with
      out := s.out ++ [(s.region (s.desc.get s.activeCh).src).take (s.desc.get s.activeCh).count]
      serIn := s.serIn ++ [(s.region (s.desc.get s.activeCh).src).take (s.desc.get s.activeCh).count]
      armed := s.armed.set s.activeCh false
      pending := s.pending.set s.activeCh true
      activeCh := s.activeCh + 1 }

/-- R91, R43, R36: in a well-formed state a transfer sends its whole region: `COUNT` words, all of
them. -/
def Obligations.XferSendsWholeRegion : Prop :=
  ∀ s t : State, s.Inv → exec .xfer s = .next t →
    ∃ line, t.out = s.out ++ [line] ∧ line = s.region (s.desc.get s.activeCh).src ∧
      line.length = (s.desc.get s.activeCh).count

/-- R141: a channel whose turn comes while it is not armed is a deadline miss. -/
def Obligations.XferUnarmedMissesDeadline : Prop :=
  ∀ s : State, s.inited = true → s.armed.get s.activeCh = false →
    exec .xfer s = .fault (.deadlineMiss s.activeCh)

/-- R92: the handler acknowledges the completion of `CH`, advances the channel index, and programs the
channel that has just been freed. -/
def Obligations.RefillServesOneCompletion : Prop :=
  ∀ s : State, s.inited = true → s.irqEn = true → s.pending.get s.ch = true →
    (Mode.isText s.mode = true → Platform.fontReady s.plat = true) →
    ∃ t, exec .refill s = .next t ∧
      exec (.program s.ch) { s with pending := s.pending.set s.ch false, ch := s.ch + 1 } = .next t ∧
      t.pending.get s.ch = false ∧ t.ch = s.ch + 1 ∧ t.armed.get s.ch = true ∧
      t.desc.get s.ch = s.descFor s.ch s.vScanline.toNat

/-! ## The pixel pipeline (42_pixel_pipeline.md) -/

/-- R97, R98: the fill that `MODE` selects, and the slot of a line. -/
def Obligations.FillAndSlotByName : Prop :=
  (∀ (s : State) (k y : Nat),
    exec (.fill k y) s = match s.mode with
      | .rgb565 => exec (.fillRgb565 k y) s
      | .palette8 => exec (.fillPal8 k y) s
      | .textMono => exec (.fillTextmono k y) s
      | .textAttributed => exec (.fillTextattr k y) s) ∧
  (∀ (s : State) (k y : Nat), s.inited = true → k < s.pool → y < s.rows →
    (Mode.isText s.mode = true → Platform.fontReady s.plat = true) →
    exec (.fill k y) s = .next (s.fillLine k y)) ∧
  (∀ (s : State) (c : Channel) (y : Nat), s.inited = true →
    exec (.slot c y) s = .next { s with result := .number (if s.vShift = 0 then c.val else y % 2) })

/-- R103: the 13 bytes of a decoded coverage word, the level of column k in bits `25-2k : 24-2k` times the
attribute.  Of the product the low 8 bits are kept, which is the spec's own decision D19. -/
def Obligations.AttrDecodeMultipliesLevels : Prop :=
  ∀ (s : State) (cw : Word) (a : Byte), ∃ bs : List Byte,
    exec (.attrDecode cw a) s = .next { s with result := .bytes bs } ∧ bs.length = 13 ∧
    ∀ k, k < 13 → (bs.getD k 0).toNat = (cw.toNat / 2 ^ (24 - 2 * k) % 4) * a.toNat % 256

/-- R100, R105, R96: `FILL_RGB565`.  Output pixel n is source pixel `n >> H_SHIFT` of the row, low byte
first; the pad bytes, the header and the other line buffers keep what they held, and nothing else changes. -/
def Obligations.FillRgb565RepeatsPixels : Prop :=
  ∀ (s : State) (k y : Nat) (b : LineBuffer), s.inited = true → s.mode = .rgb565 → k < s.pool →
    y < s.frameH.toNat → s.lb[k]? = some b → b.pix.length = 4 * s.lineWords →
    ∃ (t : State) (b' : LineBuffer), exec (.fillRgb565 k y) s = .next t ∧ t = { s with lb := t.lb } ∧
      t.lb[k]? = some b' ∧ b'.header = b.header ∧ b'.pix.length = b.pix.length ∧
      (∀ j, j ≠ k → t.lb[j]? = s.lb[j]?) ∧
      (∀ n, n < s.frameW.toNat * s.hRep →
        halfOf (b'.pix.getD (2 * n) 0) (b'.pix.getD (2 * n + 1) 0) =
          s.readFb16 s.front ((y * s.frameW.toNat + n / s.hRep) * 2)) ∧
      (∀ off, s.lineBytes ≤ off → b'.pix.getD off 0 = b.pix.getD off 0)

/-- R101, R105, R96: `FILL_PAL8`.  Output word n is the palette entry of source byte `n >> H_SHIFT`. -/
def Obligations.FillPal8RepeatsColours : Prop :=
  ∀ (s : State) (k y : Nat) (b : LineBuffer), s.inited = true → s.mode = .palette8 → k < s.pool →
    y < s.frameH.toNat → s.lb[k]? = some b → b.pix.length = 4 * s.lineWords →
    ∃ (t : State) (b' : LineBuffer), exec (.fillPal8 k y) s = .next t ∧ t = { s with lb := t.lb } ∧
      t.lb[k]? = some b' ∧ b'.header = b.header ∧ b'.pix.length = b.pix.length ∧
      (∀ j, j ≠ k → t.lb[j]? = s.lb[j]?) ∧
      (∀ n, n < s.frameW.toNat * s.hRep →
        (pixWords b'.pix)[n]? =
          some (s.readPal (s.readFb8 s.front (y * s.frameW.toNat + n / s.hRep))))

/-- R102, R96: `FILL_TEXTMONO`.  Pixel word j is the coverage word of cell j's code in the glyph row of
the pixel row. -/
def Obligations.FillTextmonoWritesCoverage : Prop :=
  ∀ (s : State) (k y : Nat) (b : LineBuffer), s.inited = true → s.mode = .textMono →
    Platform.fontReady s.plat = true → k < s.pool → y < s.frameH.toNat * s.font.glyphH →
    s.lb[k]? = some b → b.pix.length = 4 * s.lineWords →
    ∃ (t : State) (b' : LineBuffer), exec (.fillTextmono k y) s = .next t ∧ t = { s with lb := t.lb } ∧
      t.lb[k]? = some b' ∧ b'.header = b.header ∧ b'.pix.length = b.pix.length ∧
      (∀ j, j ≠ k → t.lb[j]? = s.lb[j]?) ∧
      (∀ j, j < s.frameW.toNat →
        (pixWords b'.pix)[j]? = some (renderCharLine s.font
          (s.readFb8 s.front (y / s.font.glyphH * s.frameW.toNat + j)) (y % s.font.glyphH : Nat)))

/-- R104, R96: `FILL_TEXTATTR`.  Cell j is 13 bytes, the coverage levels of its code times its attribute
modulo 256, and a filler byte 0; the pad bytes keep what they held. -/
def Obligations.FillTextattrWritesCells : Prop :=
  ∀ (s : State) (k y : Nat) (b : LineBuffer), s.inited = true → s.mode = .textAttributed →
    Platform.fontReady s.plat = true → k < s.pool → y < s.frameH.toNat * s.font.glyphH →
    s.lb[k]? = some b → b.pix.length = 4 * s.lineWords →
    ∃ (t : State) (b' : LineBuffer), exec (.fillTextattr k y) s = .next t ∧ t = { s with lb := t.lb } ∧
      t.lb[k]? = some b' ∧ b'.header = b.header ∧ b'.pix.length = b.pix.length ∧
      (∀ j, j ≠ k → t.lb[j]? = s.lb[j]?) ∧
      (∀ j c, j < s.frameW.toNat → c < 13 →
        b'.pix.getD (14 * j + c) 0 = BitVec.ofNat 8
          ((coverageField (s.fcWord
              (s.readFb8 s.front (y / s.font.glyphH * s.frameW.toNat + j)) (y % s.font.glyphH)) c).toNat *
            (s.readFb8 s.front (s.frameW.toNat * s.frameH.toNat +
              (y / s.font.glyphH * s.frameW.toNat + j))).toNat)) ∧
      (∀ j, j < s.frameW.toNat → b'.pix.getD (14 * j + 13) 0 = 0) ∧
      (∀ off, s.lineBytes ≤ off → b'.pix.getD off 0 = b.pix.getD off 0)

/-! ## The font unit (43_font.md) -/

/-- R110: the coverage word of one row of one glyph, column by column; 0 outside the font's range and
outside the drawn box; bits 31:26 are always 0. -/
def Obligations.RenderCharLineColumns : Prop :=
  ∀ (s : State) (code : Byte) (row : Int), Platform.fontReady s.plat = true →
    ∃ w : Word, exec (.renderCharLine code row) s = .next { s with result := .word w } ∧
      w.toNat < 2 ^ 26 ∧
      (code.toNat < s.font.firstCode ∨ s.font.firstCode + s.font.glyphs.length ≤ code.toNat → w = 0) ∧
      (∀ g, s.font.firstCode ≤ code.toNat → s.font.glyphs[code.toNat - s.font.firstCode]? = some g →
        (row < glyphTop s.font g ∨ glyphTop s.font g + g.height ≤ row → w = 0) ∧
        (∀ (gy : Nat) (col : Nat), row = glyphTop s.font g + gy → gy < g.height → col ≤ 12 →
          (∀ c : Nat, c < g.width → (col : Int) = g.xOffset + c →
            coverageField w col = glyphLevel s.font g (gy * g.width + c)) ∧
          ((∀ c : Nat, c < g.width → (col : Int) ≠ g.xOffset + c) → coverageField w col = 0)))

/-- R111, R112, R113 (a): `BUILD_FC` then `FC_LOOKUP` returns what `RENDER_CHAR_LINE` returns, for every
code and every row of the cell: the cache refines the rasterizer. -/
def Obligations.FontCacheRefinesRasterizer : Prop :=
  ∀ (s : State) (code : Byte) (r : Nat), s.inited = true → s.mode = .textAttributed →
    Platform.fontReady s.plat = true → r < s.font.glyphH →
    ∃ t, exec .buildFc s = .next t ∧ t = { s with fc := t.fc } ∧
      t.fc.length = s.font.glyphs.length * s.font.glyphH ∧
      exec (.fcLookup code r) t =
        .next { t with result := .word (renderCharLine s.font code (r : Nat)) }

/-! ## The flip protocol (44_flip_and_host.md section 4) -/

/-- R121: one atomic write of the flag. -/
def Obligations.FlipAsyncSetsTheFlag : Prop :=
  ∀ s : State, s.inited = true → exec .flipAsync s = .next { s with flipReq := true }

/-- R122: `WAIT_FLIP` returns, changing nothing, when no flip is pending, and is blocked while one is; a
wake clears `EVENT` and the re-check reads the flag afresh. -/
def Obligations.WaitFlipIsAGuard : Prop :=
  ∀ s : State, s.inited = true →
    (s.flipReq = false → exec .waitFlip s = .next { s with busy := none }) ∧
    (s.flipReq = true → exec .waitFlip s = .next { s with busy := some (.waitFlip true) }) ∧
    s.opStep (.waitFlip true) = { s with event := false, busy := some (.waitFlip false) } ∧
    (s.flipReq = false → s.opStep (.waitFlip false) = { s with busy := none }) ∧
    (s.flipReq = true → s.opStep (.waitFlip false) = { s with busy := some (.waitFlip true) })

/-- R123: `FLIP_BLOCKING` requests the flip and returns only when the flag has been cleared.  That the wait
is left at a re-check and not at a wake (`asleep = false`) rests on the two phases of a wait, log 18. -/
def Obligations.FlipBlockingRequestsAndWaits : Prop :=
  ∀ s : State, s.inited = true →
    ∃ t, exec .flipBlocking s = .next t ∧
      t = { s with flipReq := true, busy := some (.waitFlip false) } ∧
      ∀ (u : State) (asleep : Bool), (u.opStep (.waitFlip asleep)).busy = none →
        u.flipReq = false ∧ asleep = false

/-- R124: `FLIP_NOW` is refused under the policy `refuse`, and exchanges the roles at once, leaving the
request alone, under the policy `immediate`. -/
def Obligations.FlipNowFollowsThePolicy : Prop :=
  ∀ s : State, s.inited = true →
    (s.plat.flipNow = .refuse → exec .flipNow s = .refused .flipNowRefused) ∧
    (s.plat.flipNow = .immediate → exec .flipNow s = .next { s with front := !s.front })

/-- R125: `WAIT_VSYNC` returns at once while the counter is in the inactive region, and is blocked while
it is not. -/
def Obligations.WaitVsyncIsAGuard : Prop :=
  ∀ s : State, s.inited = true →
    (s.vScanline.toNat < s.vInactive → exec .waitVsync s = .next { s with busy := none }) ∧
    (s.vInactive ≤ s.vScanline.toNat →
      exec .waitVsync s = .next { s with busy := some (.waitVsync true) }) ∧
    s.opStep (.waitVsync true) = { s with event := false, busy := some (.waitVsync false) } ∧
    (s.vScanline.toNat < s.vInactive → s.opStep (.waitVsync false) = { s with busy := none }) ∧
    (s.vInactive ≤ s.vScanline.toNat →
      s.opStep (.waitVsync false) = { s with busy := some (.waitVsync true) })

/-! ## Buffer access (44_flip_and_host.md section 5) -/

/-- R127: `CLEAR` zeroes every byte of the buffer that was the back buffer when it began, one access a
turn, and writes nothing else. -/
def Obligations.ClearZeroesTheBackBuffer : Prop :=
  ∀ s : State, s.inited = true →
    ∃ t u, exec .clear s = .next t ∧ u = State.finishOp s.fbBytes t ∧
      u = { s with fb0 := u.fb0, fb1 := u.fb1, busy := none } ∧
      (∀ off, off < s.fbBytes → u.readFb8 (!s.front) off = 0) ∧
      (∀ off, s.fbBytes ≤ off → u.readFb8 (!s.front) off = s.readFb8 (!s.front) off) ∧
      (∀ off, u.readFb8 s.front off = s.readFb8 s.front off)

/-- R128, R55: `WRITE_PIXEL` stores the unit at linear index `y*FRAME_W + x` of the back buffer, low byte
first, and no other byte. -/
def Obligations.WritePixelStoresOneUnit : Prop :=
  ∀ (s : State) (x y : Half) (value : Word), s.inited = true → Mode.isText s.mode = false →
    x.toNat < s.frameW.toNat → y.toNat < s.frameH.toNat → valueFits s.mode value = true →
    ∃ t u, exec (.writePixel x y value) s = .next t ∧ u = State.finishOp 1 t ∧
      u = { s with fb0 := u.fb0, fb1 := u.fb1, busy := none } ∧
      (s.mode = .rgb565 →
        u.readFb16 (!s.front) (2 * (y.toNat * s.frameW.toNat + x.toNat)) = value.extractLsb' 0 16) ∧
      (s.mode = .palette8 →
        u.readFb8 (!s.front) (y.toNat * s.frameW.toNat + x.toNat) = value.extractLsb' 0 8) ∧
      (∀ off, (off < unitOffset s.mode (s.linear x y) ∨
          unitOffset s.mode (s.linear x y) + unitBytes s.mode ≤ off) →
        u.readFb8 (!s.front) off = s.readFb8 (!s.front) off) ∧
      (∀ off, u.readFb8 s.front off = s.readFb8 s.front off)

/-- R129, R130: the two span writes store `len` consecutive units from `y*FRAME_W + x` on, running on
into the following rows, and no other byte. -/
def Obligations.WriteSpansStoreConsecutiveUnits : Prop :=
  (∀ (s : State) (x y len : Half) (value : Word), s.inited = true → Mode.isText s.mode = false →
    valueFits s.mode value = true → s.inBounds x y len.toNat = true →
    ∃ t u, exec (.writeSpanFill x y len value) s = .next t ∧ u = State.finishOp len.toNat t ∧
      u = { s with fb0 := u.fb0, fb1 := u.fb1, busy := none } ∧
      (∀ i, i < len.toNat → u.readUnit (!s.front) (y.toNat * s.frameW.toNat + x.toNat + i) = value) ∧
      (∀ off, (off < unitOffset s.mode (s.linear x y) ∨
          unitOffset s.mode (s.linear x y + len.toNat) ≤ off) →
        u.readFb8 (!s.front) off = s.readFb8 (!s.front) off) ∧
      (∀ off, u.readFb8 s.front off = s.readFb8 s.front off)) ∧
  (∀ (s : State) (x y : Half) (data : List Word), s.inited = true → Mode.isText s.mode = false →
    data.all (valueFits s.mode) = true → s.inBounds x y data.length = true →
    ∃ t u, exec (.writeSpanCopy x y data) s = .next t ∧ u = State.finishOp data.length t ∧
      u = { s with fb0 := u.fb0, fb1 := u.fb1, busy := none } ∧
      (∀ i w, data[i]? = some w →
        u.readUnit (!s.front) (y.toNat * s.frameW.toNat + x.toNat + i) = w) ∧
      (∀ off, (off < unitOffset s.mode (s.linear x y) ∨
          unitOffset s.mode (s.linear x y + data.length) ≤ off) →
        u.readFb8 (!s.front) off = s.readFb8 (!s.front) off) ∧
      (∀ off, u.readFb8 s.front off = s.readFb8 s.front off))

/-- R131: `READ_SPAN` replies with `len` units of the front buffer, zero-extended, and writes nothing. -/
def Obligations.ReadSpanRepliesFrontUnits : Prop :=
  ∀ (s : State) (x y len : Half), s.inited = true → Mode.isText s.mode = false →
    s.inBounds x y len.toNat = true →
    ∃ t, exec (.readSpan x y len) s = .next t ∧
      State.finishOp len.toNat t = { s with
        busy := none
        reply := s.reply ++ (List.range len.toNat).map fun i =>
          s.readUnit s.front (y.toNat * s.frameW.toNat + x.toNat + i) }

/-- R132: `PAL_SET` stores the low 24 bits of the colour with a zero top byte in its entry and in no
other, in every state. -/
def Obligations.PaletteSetStoresColour : Prop :=
  ∀ (s : State) (i : Byte) (colour : Word),
    ∃ t, exec (.palSet i colour) s = .next t ∧ t = { s with pal := t.pal } ∧
      (t.readPal i).toNat = colour.toNat % 16777216 ∧
      (∀ j, j ≠ i → t.readPal j = s.readPal j)

/-- R133: `PAL_GET` replies with the entry, in every state, and writes nothing; an entry that nothing has
written since power-on reads as its unspecified value, the same at every read. -/
def Obligations.PaletteGetRepliesEntry : Prop :=
  ∀ (s : State) (i : Byte),
    exec (.palGet i) s = .next { s with reply := s.reply ++ [s.readPal i] } ∧
    ((∀ c ∈ s.pal, c.1 ≠ i.toNat) → s.readPal i = Config.palWord i.toNat)

/-- R134: `WRITE_TEXT` stores the codes in consecutive cells of the target buffer as they are, and in
TextAttributed the attribute of each cell in plane 1; the immediate flag takes the front buffer. -/
def Obligations.WriteTextStoresCells : Prop :=
  ∀ (s : State) (x y : Half) (bytes : List Byte) (attr : Byte) (immediate : Bool) (b : Bool),
    s.inited = true → Mode.isText s.mode = true → s.inBounds x y bytes.length = true →
    b = (if immediate then s.front else !s.front) →
    ∃ t u, exec (.writeText x y bytes attr immediate) s = .next t ∧
      u = State.finishOp (2 * bytes.length) t ∧
      u = { s with fb0 := u.fb0, fb1 := u.fb1, busy := none } ∧
      (∀ i c, bytes[i]? = some c → u.readFb8 b (y.toNat * s.frameW.toNat + x.toNat + i) = c) ∧
      (s.mode = .textAttributed → ∀ i, i < bytes.length →
        u.readFb8 b (s.frameW.toNat * s.frameH.toNat + (y.toNat * s.frameW.toNat + x.toNat + i)) =
          attr) ∧
      (∀ off, (off < s.linear x y ∨ s.linear x y + bytes.length ≤ off) →
        (s.mode = .textAttributed →
          off < s.attrOffset (s.linear x y) ∨ s.attrOffset (s.linear x y) + bytes.length ≤ off) →
        u.readFb8 b off = s.readFb8 b off) ∧
      (∀ off, u.readFb8 (!b) off = s.readFb8 (!b) off)

/-- R115, R126, R142 (a), R73, R76: where host operations are refused: before INIT, in a mode they do not
belong to, outside the frame, and with a pixel value that has a bit above the unit's width (which is refused whatever the
position: log 21). -/
def Obligations.HostOperationsRefusedWhere : Prop :=
  (∀ (s : State) (i : Instr), s.inited = false → i.format = .h → (∀ w h m, i ≠ .init w h m) →
    i ≠ .reset → (∀ k c, i ≠ .palSet k c) → (∀ k, i ≠ .palGet k) →
    exec i s = .refused .notInitialised) ∧
  (∀ (s : State) (x y len : Half) (v : Word) (data : List Word), s.inited = true →
    Mode.isText s.mode = true →
    exec (.writePixel x y v) s = .refused .wrongMode ∧
    exec (.writeSpanFill x y len v) s = .refused .wrongMode ∧
    exec (.writeSpanCopy x y data) s = .refused .wrongMode ∧
    exec (.readSpan x y len) s = .refused .wrongMode) ∧
  (∀ (s : State) (x y : Half) (bytes : List Byte) (a : Byte) (imm : Bool), s.inited = true →
    Mode.isText s.mode = false → exec (.writeText x y bytes a imm) s = .refused .wrongMode) ∧
  -- outside the frame
  (∀ (s : State) (x y len : Half) (v : Word) (data : List Word), s.inited = true →
    Mode.isText s.mode = false → valueFits s.mode v = true → data.all (valueFits s.mode) = true →
    (s.outside x y 1 → exec (.writePixel x y v) s = .refused .contractViolation) ∧
    (s.outside x y len.toNat →
      exec (.writeSpanFill x y len v) s = .refused .contractViolation ∧
      exec (.readSpan x y len) s = .refused .contractViolation) ∧
    (s.outside x y data.length → exec (.writeSpanCopy x y data) s = .refused .contractViolation)) ∧
  (∀ (s : State) (x y : Half) (bytes : List Byte) (a : Byte) (imm : Bool), s.inited = true →
    Mode.isText s.mode = true → s.outside x y bytes.length →
    exec (.writeText x y bytes a imm) s = .refused .contractViolation) ∧
  -- a value wider than the unit
  (∀ (s : State) (x y len : Half) (v : Word) (data : List Word), s.inited = true →
    (s.mode = .rgb565 ∧ 65536 ≤ v.toNat ∨ s.mode = .palette8 ∧ 256 ≤ v.toNat) →
    exec (.writePixel x y v) s = .refused .valueTooWide ∧
    exec (.writeSpanFill x y len v) s = .refused .valueTooWide ∧
    (v ∈ data → exec (.writeSpanCopy x y data) s = .refused .valueTooWide))

/-- R126: the target buffer is read once, at the start: what the operation under way does does not depend
on which buffer is the front buffer by then. -/
def Obligations.TargetBufferCapturedAtStart : Prop :=
  ∀ (s : State) (op : HostOp) (front : Bool),
    ({ s with front := front }).opStep op = { s.opStep op with front := front }

/-- R136 (b), R128, R131: a pixel written, the roles exchanged, the same position read: the reply is the
value, in RGB565 and in Palette8. -/
def Obligations.PixelRoundTrip : Prop :=
  ∀ (s : State) (x y : Half) (value : Word), s.inited = true → Mode.isText s.mode = false →
    valueFits s.mode value = true → s.inBounds x y 1 = true →
    ∃ t u, exec (.writePixel x y value) s = .next t ∧
      exec (.readSpan x y 1) { State.finishOp 1 t with front := !s.front } = .next u ∧
      (State.finishOp 1 u).reply = s.reply ++ [value]

/-! ## The serial output (30_encoding.md R71, R72) -/

/-- R72: the two command words on the serial output.  A count of 0 and a missing data word, which the
block never emits, are refused (the model's choice, logs 12, 13). -/
def Obligations.CommandWordsDriveSerialOutput : Prop :=
  ∀ (s : State) (n : BitVec 12) (d : Word) (rest : List Word) (lines : List (List Word)),
    (n ≠ 0 → s.serIn = (d :: rest) :: lines →
      exec (.rawRepeat n) s = .next { s with
        serIn := rest :: lines, wire := s.wire ++ [.raw d n.toNat] } ∧
      exec (.stream n) s = .next { s with
        serIn := lines, wire := s.wire ++ [.pixels n.toNat (d :: rest)] }) ∧
    exec (.rawRepeat 0) s = .refused .zeroCount ∧ exec (.stream 0) s = .refused .zeroCount

/-- R72: every scanline lasts `H_TOTAL` pixel periods on the serial output: the two vertical lists, and a
line buffer, whose pixel region is streamed as `N_PIX` pixels. -/
def Obligations.EveryScanlineLastsHTotal : Prop :=
  ∀ (s : State) (lines : List (List Word)), s.configOk →
    (∀ v : Bool, s.serIn = s.vlist v :: lines →
      ∃ t ws, serialTurns 3 s = .next t ∧ t = { s with serIn := [] :: lines, wire := s.wire ++ ws } ∧
        wireDuration ws = hTotalOf s.timing) ∧
    (∀ data : List Word, data ≠ [] → s.serIn = (s.header ++ data) :: lines →
      ∃ t ws, serialTurns (if Mode.isText s.mode then 5 else 4) s = .next t ∧
        t = { s with serIn := lines, wire := s.wire ++ ws } ∧
        wireDuration ws = hTotalOf s.timing ∧ ws.getLast? = some (.pixels s.nPix data))
end

