-- ==== Sys2Proof/Laws/Bits.lean ====
section
/-!
SUPPORT. Byte order and bit fields: a value is its bytes, and what a write to a pixel region or to a coverage word
leaves.
-/

namespace Sys2Proof.Machine

/-! ## Values and their bytes -/

/-- Two bit vectors side by side, as a number. -/
theorem toNat_append_eq {m n : Nat} (x : BitVec m) (y : BitVec n) :
    (x ++ y).toNat = x.toNat * 2 ^ n + y.toNat := by
  rw [BitVec.toNat_append, Nat.shiftLeft_eq, Nat.mul_comm, Nat.two_pow_add_eq_or_of_lt y.isLt]

theorem toNat_halfOf (b0 b1 : Byte) : (halfOf b0 b1).toNat = b1.toNat * 256 + b0.toNat :=
  toNat_append_eq b1 b0

theorem toNat_wordOf (b0 b1 b2 b3 : Byte) : (wordOf b0 b1 b2 b3).toNat =
    ((b3.toNat * 256 + b2.toNat) * 256 + b1.toNat) * 256 + b0.toNat := by
  change (b3 ++ b2 ++ b1 ++ b0).toNat = _
  simp only [toNat_append_eq, Nat.reducePow]

theorem toNat_halfByte (h : Half) (j : Nat) : (halfByte h j).toNat = h.toNat / 2 ^ (8 * j) % 256 := by
  simp [halfByte, Nat.shiftRight_eq_div_pow]

theorem toNat_wordByte (w : Word) (j : Nat) : (wordByte w j).toNat = w.toNat / 2 ^ (8 * j) % 256 := by
  simp [wordByte, Nat.shiftRight_eq_div_pow]

@[simp] theorem halfOf_halfByte (h : Half) : halfOf (halfByte h 0) (halfByte h 1) = h := by
  apply BitVec.eq_of_toNat_eq
  rw [toNat_halfOf, toNat_halfByte, toNat_halfByte]
  have := h.isLt
  omega

@[simp] theorem wordOf_wordByte (w : Word) :
    wordOf (wordByte w 0) (wordByte w 1) (wordByte w 2) (wordByte w 3) = w := by
  apply BitVec.eq_of_toNat_eq
  simp only [toNat_wordOf, toNat_wordByte]
  have := w.isLt
  omega

/-- A 16-bit unit survives the way through a 32-bit operand. -/
theorem zextHalf_truncHalf {w : Word} (h : w.toNat < 65536) : zextHalf (truncHalf w) = w := by
  apply BitVec.eq_of_toNat_eq
  change (0#16 ++ w.extractLsb' 0 16).toNat = _
  rw [toNat_append_eq]
  simp [Nat.mod_eq_of_lt h]

/-- A byte survives the way through a 32-bit operand. -/
theorem zextByte_truncByte {w : Word} (h : w.toNat < 256) : zextByte (truncByte w) = w := by
  apply BitVec.eq_of_toNat_eq
  change (0#24 ++ w.extractLsb' 0 8).toNat = _
  rw [toNat_append_eq]
  simp [Nat.mod_eq_of_lt h]

/-- The colour the palette stores: the low 24 bits. -/
theorem toNat_colourOf (w : Word) : (colourOf w).toNat = w.toNat % 16777216 := by
  change (0#8 ++ w.extractLsb' 0 24).toNat = _
  rw [toNat_append_eq]
  simp

/-! ## Pixel regions -/

@[simp] theorem length_setPix8 (p : List Byte) (off : Nat) (v : Byte) :
    (setPix8 p off v).length = p.length := by simp [setPix8]

@[simp] theorem length_setPix16 (p : List Byte) (off : Nat) (v : Half) :
    (setPix16 p off v).length = p.length := by simp [setPix16]

@[simp] theorem length_setPix32 (p : List Byte) (i : Nat) (v : Word) :
    (setPix32 p i v).length = p.length := by simp [setPix32]

/-- A byte of a pixel region after a byte write. -/
theorem getD_setPix8 (p : List Byte) (off a : Nat) (v : Byte) :
    (setPix8 p off v).getD a 0 = if a = off ∧ off < p.length then v else p.getD a 0 := by
  simp only [setPix8, List.getD_eq_getElem?_getD, List.getElem?_set]
  by_cases h : off = a
  · subst h
    by_cases hl : off < p.length <;> simp [hl]
  · rw [if_neg h, if_neg fun hn => h hn.1.symm]

/-- A byte of a pixel region after a 16-bit write. -/
theorem getD_setPix16 (p : List Byte) (off a : Nat) (v : Half) :
    (setPix16 p off v).getD a 0 =
      if a = off + 1 ∧ off + 1 < p.length then halfByte v 1
      else if a = off ∧ off < p.length then halfByte v 0 else p.getD a 0 := by
  simp only [setPix16, getD_setPix8, length_setPix8]

/-- The bytes outside a 32-bit write keep their value. -/
theorem getD_setPix32_frame (p : List Byte) (i a : Nat) (v : Word) (h : a < 4 * i ∨ 4 * i + 4 ≤ a) :
    (setPix32 p i v).getD a 0 = p.getD a 0 := by
  simp only [setPix32, getD_setPix8, length_setPix8]
  rw [if_neg, if_neg, if_neg, if_neg] <;> omega

/-- The bytes of a 32-bit write. -/
theorem getD_setPix32 (p : List Byte) (i j : Nat) (v : Word) (h : 4 * i + 4 ≤ p.length) (hj : j < 4) :
    (setPix32 p i v).getD (4 * i + j) 0 = wordByte v j := by
  simp only [setPix32, getD_setPix8, length_setPix8]
  have : j = 0 ∨ j = 1 ∨ j = 2 ∨ j = 3 := by omega
  rcases this with rfl | rfl | rfl | rfl
  · rw [if_neg (by omega), if_neg (by omega), if_neg (by omega), if_pos (by omega)]
  · rw [if_neg (by omega), if_neg (by omega), if_pos (by omega)]
  · rw [if_neg (by omega), if_pos (by omega)]
  · rw [if_pos (by omega)]

/-- How many pixel words a pixel region holds. -/
theorem length_pixWords (p : List Byte) : (pixWords p).length = p.length / 4 := by
  fun_induction pixWords p with
  | case1 b0 b1 b2 b3 rest ih => simp [ih]; omega
  | case2 p h =>
    have : p.length < 4 := by
      rcases p with _ | ⟨a, _ | ⟨b, _ | ⟨c, _ | ⟨d, r⟩⟩⟩⟩ <;> first | (exact (h a b c d r rfl).elim) | simp
    simp; omega

/-- Pixel word `i` is the bytes `4i .. 4i+3`. -/
theorem getElem?_pixWords (p : List Byte) (i : Nat) (h : 4 * i + 4 ≤ p.length) :
    (pixWords p)[i]? = some (wordOf (p.getD (4 * i) 0) (p.getD (4 * i + 1) 0) (p.getD (4 * i + 2) 0)
      (p.getD (4 * i + 3) 0)) := by
  induction i generalizing p with
  | zero =>
    rcases p with _ | ⟨a, _ | ⟨b, _ | ⟨c, _ | ⟨d, r⟩⟩⟩⟩ <;> simp at h
    simp [pixWords]
  | succ i ih =>
    rcases p with _ | ⟨a, _ | ⟨b, _ | ⟨c, _ | ⟨d, r⟩⟩⟩⟩
    iterate 4 (simp at h; try omega)
    · have hr : 4 * i + 4 ≤ r.length := by simp at h; omega
      have e : ∀ k, (a :: b :: c :: d :: r).getD (4 * (i + 1) + k) 0 = r.getD (4 * i + k) 0 := by
        intro k
        have : 4 * (i + 1) + k = 4 * i + k + 1 + 1 + 1 + 1 := by omega
        rw [this]
        simp
      rw [pixWords, List.getElem?_cons_succ, ih r hr]
      have e0 := e 0
      simp only [Nat.add_zero] at e0
      rw [e0, e 1, e 2, e 3]

/-! ## Folds that keep the length of a pixel region -/

theorem length_foldl_keep {β : Type} (f : List Byte → β → List Byte)
    (h : ∀ q x, (f q x).length = q.length) (l : List β) (p : List Byte) :
    (l.foldl f p).length = p.length := by
  induction l generalizing p with
  | nil => rfl
  | cons x l ih => rw [List.foldl_cons, ih, h]

@[simp] theorem length_putRgb (rep : Nat) (v : Half) (x : Nat) (p : List Byte) :
    (putRgb rep v x p).length = p.length :=
  length_foldl_keep (fun q i => setPix16 q ((x * rep + i) * 2) v) (fun _ _ => length_setPix16 ..) _ p

@[simp] theorem length_putPal (rep : Nat) (c : Word) (x : Nat) (p : List Byte) :
    (putPal rep c x p).length = p.length :=
  length_foldl_keep (fun q i => setPix32 q (x * rep + i) c) (fun _ _ => length_setPix32 ..) _ p

@[simp] theorem length_putCell (bytes : List Byte) (j : Nat) (p : List Byte) :
    (putCell bytes j p).length = p.length := by
  rw [putCell, length_setPix8]
  exact length_foldl_keep (fun q k => setPix8 q (14 * j + k) (bytes.getD k 0))
    (fun _ _ => length_setPix8 ..) _ p

@[simp] theorem length_pixRgb565 (s : State) (y : Nat) (p : List Byte) :
    (s.pixRgb565 y p).length = p.length :=
  length_foldl_keep (fun q x => putRgb s.hRep (s.srcRgb s.front y x) x q) (fun _ _ => length_putRgb ..) _ p

@[simp] theorem length_pixPal8 (s : State) (y : Nat) (p : List Byte) :
    (s.pixPal8 y p).length = p.length :=
  length_foldl_keep (fun q x => putPal s.hRep (s.readPal (s.srcByte s.front y x)) x q)
    (fun _ _ => length_putPal ..) _ p

@[simp] theorem length_pixTextmono (s : State) (y : Nat) (p : List Byte) :
    (s.pixTextmono y p).length = p.length :=
  length_foldl_keep (fun q j => setPix32 q j (s.monoWord y j)) (fun _ _ => length_setPix32 ..) _ p

@[simp] theorem length_pixTextattr (s : State) (y : Nat) (p : List Byte) :
    (s.pixTextattr y p).length = p.length :=
  length_foldl_keep (fun q j => putCell (s.attrCell y j) j q) (fun _ _ => length_putCell ..) _ p

/-! ## The coverage word -/

/-- A bit of a coverage word with one column set. -/
theorem getLsbD_setCoverageField (cw : Word) (k : Nat) (level : BitVec 2) (i : Nat) (hi : i < 32) :
    (setCoverageField cw k level).getLsbD i =
      if 24 - 2 * k ≤ i ∧ i < 24 - 2 * k + 2 then level.getLsbD (i - (24 - 2 * k)) else cw.getLsbD i := by
  simp only [setCoverageField, BitVec.getLsbD_or, BitVec.getLsbD_and, BitVec.getLsbD_not,
    BitVec.getLsbD_shiftLeft, BitVec.getLsbD_append, hi, decide_true, Bool.true_and]
  by_cases h1 : i < 24 - 2 * k
  · rw [if_neg (c := 24 - 2 * k ≤ i ∧ i < 24 - 2 * k + 2) (by omega)]
    simp [h1]
  · by_cases h2 : i < 24 - 2 * k + 2
    · rw [if_pos (c := 24 - 2 * k ≤ i ∧ i < 24 - 2 * k + 2) (by omega)]
      have h3 : i - (24 - 2 * k) = 0 ∨ i - (24 - 2 * k) = 1 := by omega
      rcases h3 with h3 | h3 <;> simp [h1, h3]
    · rw [if_neg (c := 24 - 2 * k ≤ i ∧ i < 24 - 2 * k + 2) (by omega)]
      have h3 : ¬ i - (24 - 2 * k) < 2 := by omega
      have h4 : (3#32).getLsbD (i - (24 - 2 * k)) = false := by
        rw [BitVec.getLsbD, BitVec.toNat_ofNat]
        exact Nat.testBit_lt_two_pow (lt_of_lt_of_le (by decide : 3 % 2 ^ 32 < 2 ^ 2)
          (Nat.pow_le_pow_right (by decide) (by omega)))
      simp [h1, h3, h4]

/-- The column just set. -/
theorem coverageField_set_same (cw : Word) (k : Nat) (level : BitVec 2) :
    coverageField (setCoverageField cw k level) k = level := by
  apply BitVec.eq_of_getLsbD_eq
  intro i hi
  rw [coverageField, BitVec.getLsbD_extractLsb', getLsbD_setCoverageField _ _ _ _ (by omega),
    if_pos (by omega)]
  simp [hi]

/-- The other columns keep their level. -/
theorem coverageField_set_ne (cw : Word) {k j : Nat} (level : BitVec 2) (hk : k ≤ 12) (hj : j ≤ 12)
    (h : j ≠ k) : coverageField (setCoverageField cw k level) j = coverageField cw j := by
  apply BitVec.eq_of_getLsbD_eq
  intro i hi
  rw [coverageField, coverageField, BitVec.getLsbD_extractLsb', BitVec.getLsbD_extractLsb',
    getLsbD_setCoverageField _ _ _ _ (by omega), if_neg (by omega)]

/-- Setting a column keeps bits 31:26 zero. -/
theorem setCoverageField_lt {cw : Word} (h : cw.toNat < 2 ^ 26) {k : Nat} (level : BitVec 2) :
    (setCoverageField cw k level).toNat < 2 ^ 26 := by
  apply Nat.lt_pow_two_of_testBit
  intro i hi
  by_cases h32 : i < 32
  · have e := getLsbD_setCoverageField cw k level i h32
    rw [if_neg (by omega)] at e
    rw [BitVec.getLsbD] at e
    rw [e, BitVec.getLsbD]
    exact Nat.testBit_lt_two_pow (lt_of_lt_of_le h (Nat.pow_le_pow_right (by decide) hi))
  · exact Nat.testBit_lt_two_pow (lt_of_lt_of_le (setCoverageField cw k level).isLt
      (Nat.pow_le_pow_right (by decide) (by omega)))

end Sys2Proof.Machine
end

