-- ==== Sys2Proof/Laws/Catalog.lean ====
section
/-!
SUPPORT. The Timing Table: pairwise distinct sizes, the platform of the machine has them, and a graphic match is
unique at its repeat pair.
-/

namespace Sys2Proof.Machine

theorem sameSize_iff {t u : TimingDescriptor} : sameSize t u = true ↔ t.hAct = u.hAct ∧ t.vAct = u.vAct := by
  simp [sameSize]

/-- What `catalogOk` says: no two entries have one size. -/
theorem catalogOk_iff {c : List TimingDescriptor} :
    catalogOk c = true ↔ c.Pairwise fun t u => ¬(t.hAct = u.hAct ∧ t.vAct = u.vAct) := by
  induction c with
  | nil => simp [catalogOk]
  | cons t ts ih =>
    simp only [catalogOk, Bool.and_eq_true, List.all_eq_true, Bool.not_eq_true', ← Bool.not_eq_true,
      sameSize_iff, ih, List.pairwise_cons]

/-- Two entries of one size are the same entry. -/
theorem catalogOk_unique {c : List TimingDescriptor} (h : catalogOk c = true) {t u : TimingDescriptor}
    (ht : t ∈ c) (hu : u ∈ c) (hh : t.hAct = u.hAct) (hv : t.vAct = u.vAct) : t = u := by
  induction c with
  | nil => cases ht
  | cons w ws ih =>
    obtain ⟨hw, hws⟩ := List.pairwise_cons.1 (catalogOk_iff.1 h)
    rcases List.mem_cons.1 ht with rfl | ht' <;> rcases List.mem_cons.1 hu with rfl | hu'
    · rfl
    · exact absurd ⟨hh, hv⟩ (hw u hu')
    · exact absurd ⟨hh.symm, hv.symm⟩ (hw t ht')
    · exact ih (catalogOk_iff.2 hws) ht' hu'

/-- The catalog made of any list has pairwise distinct sizes. -/
theorem catalogOk_distinctSizes (c : List TimingDescriptor) : catalogOk (distinctSizes c) = true := by
  rw [catalogOk_iff]
  induction c with
  | nil => exact List.Pairwise.nil
  | cons t ts ih =>
    refine List.pairwise_cons.2 ⟨fun u hu => ?_, ih.filter _⟩
    rw [← sameSize_iff, Bool.not_eq_true, ← Bool.not_eq_true']
    exact (List.mem_filter.1 hu).2

/-- A catalog that R16 allows is left as it is. -/
theorem distinctSizes_of_ok {c : List TimingDescriptor} (h : catalogOk c = true) : distinctSizes c = c := by
  induction c with
  | nil => rfl
  | cons t ts ih =>
    simp only [catalogOk, Bool.and_eq_true, List.all_eq_true] at h
    rw [distinctSizes, ih h.2, List.filter_eq_self.2 h.1]

/-- A platform whose catalog R16 allows is left as it is: `tabulated` takes no platform away. -/
theorem Platform.tabulated_of_ok {p : Platform} (h : catalogOk p.catalog = true) :
    Platform.tabulated p = p := by
  rw [Platform.tabulated, distinctSizes_of_ok h]

/-- The platform of the machine right after reset has a catalog R16 allows, whatever it is. -/
theorem reset_catalogOk : catalogOk State.reset.plat.catalog = true := catalogOk_distinctSizes _

/-- At one repeat pair at most one entry matches a graphic request. -/
theorem matchesGraphic_unique {c : List TimingDescriptor} (h : catalogOk c = true) {width height : Half}
    {hs vs : BitVec 2} {t u : TimingDescriptor} (ht : t ∈ c) (hu : u ∈ c)
    (mt : matchesGraphic width height hs vs t = true) (mu : matchesGraphic width height hs vs u = true) :
    t = u := by
  simp only [matchesGraphic, Bool.and_eq_true, decide_eq_true_eq] at mt mu
  exact catalogOk_unique h ht hu (BitVec.eq_of_toNat_eq (mt.1.trans mu.1.symm))
    (BitVec.eq_of_toNat_eq (mt.2.trans mu.2.symm))

end Sys2Proof.Machine
end

