-- ==== Sys2Proof/Laws/Encoding.lean ====
section
/-!
SUPPORT. The fields of packed words, and the words a decoder takes.
-/

namespace Sys2Proof

open Machine (toNat_append_eq)

@[simp] theorem opcField_packW0 (opc flg : Byte) (a : Half) : opcField (packW0 opc flg a) = opc := by
  apply BitVec.eq_of_toNat_eq
  change (BitVec.extractLsb' 24 8 (opc ++ flg ++ a)).toNat = _
  rw [BitVec.extractLsb'_toNat, toNat_append_eq, toNat_append_eq, Nat.shiftRight_eq_div_pow]
  have := opc.isLt; have := flg.isLt; have := a.isLt
  omega

@[simp] theorem flgField_packW0 (opc flg : Byte) (a : Half) : flgField (packW0 opc flg a) = flg := by
  apply BitVec.eq_of_toNat_eq
  change (BitVec.extractLsb' 16 8 (opc ++ flg ++ a)).toNat = _
  rw [BitVec.extractLsb'_toNat, toNat_append_eq, toNat_append_eq, Nat.shiftRight_eq_div_pow]
  have := opc.isLt; have := flg.isLt; have := a.isLt
  omega

@[simp] theorem aField_packW0 (opc flg : Byte) (a : Half) : aField (packW0 opc flg a) = a := by
  apply BitVec.eq_of_toNat_eq
  change (BitVec.extractLsb' 0 16 (opc ++ flg ++ a)).toNat = _
  rw [BitVec.extractLsb'_toNat, toNat_append_eq, toNat_append_eq, Nat.shiftRight_eq_div_pow]
  have := opc.isLt; have := flg.isLt; have := a.isLt
  omega

@[simp] theorem xField_packW1 (x y : Half) : xField (packW1 x y) = x := by
  apply BitVec.eq_of_toNat_eq
  change (BitVec.extractLsb' 0 16 (y ++ x)).toNat = _
  rw [BitVec.extractLsb'_toNat, toNat_append_eq, Nat.shiftRight_eq_div_pow]
  have := x.isLt; have := y.isLt
  omega

@[simp] theorem yField_packW1 (x y : Half) : yField (packW1 x y) = y := by
  apply BitVec.eq_of_toNat_eq
  change (BitVec.extractLsb' 16 16 (y ++ x)).toNat = _
  rw [BitVec.extractLsb'_toNat, toNat_append_eq, Nat.shiftRight_eq_div_pow]
  have := x.isLt; have := y.isLt
  omega

/-- A word is its three fields. -/
theorem packW0_fields (w : Word) : packW0 (opcField w) (flgField w) (aField w) = w := by
  apply BitVec.eq_of_toNat_eq
  change (opcField w ++ flgField w ++ aField w).toNat = _
  rw [toNat_append_eq, toNat_append_eq, opcField, flgField, aField]
  simp only [BitVec.extractLsb'_toNat, Nat.shiftRight_eq_div_pow]
  have := w.isLt
  omega

/-- A word is its two halves. -/
theorem packW1_fields (w : Word) : packW1 (xField w) (yField w) = w := by
  apply BitVec.eq_of_toNat_eq
  change (yField w ++ xField w).toNat = _
  rw [toNat_append_eq, yField, xField]
  simp only [BitVec.extractLsb'_toNat, Nat.shiftRight_eq_div_pow]
  have := w.isLt
  omega

theorem toNat_byteWord (b : Byte) : (byteWord b).toNat = b.toNat := by
  change (0#24 ++ b).toNat = _
  rw [toNat_append_eq]
  simp

@[simp] theorem isByte_byteWord (b : Byte) : isByte (byteWord b) = true := by
  simp only [isByte, toNat_byteWord, decide_eq_true_eq]
  exact b.isLt

@[simp] theorem lowByte_byteWord (b : Byte) : lowByte (byteWord b) = b := by
  apply BitVec.eq_of_toNat_eq
  rw [lowByte, BitVec.extractLsb'_toNat, toNat_byteWord]
  exact Nat.mod_eq_of_lt b.isLt

theorem byteWord_lowByte {w : Word} (h : isByte w = true) : byteWord (lowByte w) = w := by
  apply BitVec.eq_of_toNat_eq
  simp only [isByte, decide_eq_true_eq] at h
  rw [toNat_byteWord, lowByte, BitVec.extractLsb'_toNat]
  simp [Nat.mod_eq_of_lt h]

/-- Taking as many words as a list has, from that list and more. -/
theorem takeWords_append (ws rest : List Word) :
    takeWords ws.length (ws ++ rest) = some (ws, rest) := by
  induction ws with
  | nil => rfl
  | cons w ws ih => simp [takeWords, ih]

/-- The words taken and the words left are the words there were. -/
theorem takeWords_some {n : Nat} {ws front rest : List Word} (h : takeWords n ws = some (front, rest)) :
    ws = front ++ rest ∧ front.length = n := by
  induction n generalizing ws front rest with
  | zero =>
    simp only [takeWords, Option.some.injEq, Prod.mk.injEq] at h
    obtain ⟨rfl, rfl⟩ := h
    simp
  | succ n ih =>
    cases ws with
    | nil => simp [takeWords] at h
    | cons w ws =>
      simp only [takeWords] at h
      split at h
      · next f r hf =>
        simp only [Option.some.injEq, Prod.mk.injEq] at h
        obtain ⟨rfl, rfl⟩ := h
        obtain ⟨h1, h2⟩ := ih hf
        simp [h1, h2]
      · cases h

/-- Taking words fails exactly when there are too few. -/
theorem takeWords_eq_none {n : Nat} {ws : List Word} : takeWords n ws = none ↔ ws.length < n := by
  induction n generalizing ws with
  | zero => simp [takeWords]
  | succ n ih =>
    cases ws with
    | nil => simp [takeWords]
    | cons w ws =>
      rw [List.length_cons, Nat.succ_lt_succ_iff, ← ih]
      cases h : takeWords n ws <;> simp [takeWords, h]

@[simp] theorem Mode.ofCode_code (m : Mode) : Mode.ofCode m.code = m := by
  cases m <;> rfl

@[simp] theorem Mode.code_ofCode (c : BitVec 2) : (Mode.ofCode c).code = c := by
  revert c; decide

end Sys2Proof
end

