-- ==== Sys2Proof/Laws/State.lean ====
section
/-!
SUPPORT. One lemma for each field of each update of the state, so that no proof unfolds a record update, and for each
derived quantity the fields it depends on.
-/

namespace Sys2Proof.Machine

variable (s : State)

/-! ## `State.withFb` -/

@[simp] theorem State.withFb_plat (b : Bool) (m : List Host.Cell) :
    (s.withFb b m).plat = s.plat := by cases b <;> rfl
@[simp] theorem State.withFb_inited (b : Bool) (m : List Host.Cell) :
    (s.withFb b m).inited = s.inited := by cases b <;> rfl
@[simp] theorem State.withFb_timing (b : Bool) (m : List Host.Cell) :
    (s.withFb b m).timing = s.timing := by cases b <;> rfl
@[simp] theorem State.withFb_mode (b : Bool) (m : List Host.Cell) :
    (s.withFb b m).mode = s.mode := by cases b <;> rfl
@[simp] theorem State.withFb_hShift (b : Bool) (m : List Host.Cell) :
    (s.withFb b m).hShift = s.hShift := by cases b <;> rfl
@[simp] theorem State.withFb_vShift (b : Bool) (m : List Host.Cell) :
    (s.withFb b m).vShift = s.vShift := by cases b <;> rfl
@[simp] theorem State.withFb_frameW (b : Bool) (m : List Host.Cell) :
    (s.withFb b m).frameW = s.frameW := by cases b <;> rfl
@[simp] theorem State.withFb_frameH (b : Bool) (m : List Host.Cell) :
    (s.withFb b m).frameH = s.frameH := by cases b <;> rfl
@[simp] theorem State.withFb_fb0 (b : Bool) (m : List Host.Cell) :
    (s.withFb b m).fb0 = if b then s.fb0 else m := by cases b <;> rfl
@[simp] theorem State.withFb_fb1 (b : Bool) (m : List Host.Cell) :
    (s.withFb b m).fb1 = if b then m else s.fb1 := by cases b <;> rfl
@[simp] theorem State.withFb_front (b : Bool) (m : List Host.Cell) :
    (s.withFb b m).front = s.front := by cases b <;> rfl
@[simp] theorem State.withFb_flipReq (b : Bool) (m : List Host.Cell) :
    (s.withFb b m).flipReq = s.flipReq := by cases b <;> rfl
@[simp] theorem State.withFb_lb (b : Bool) (m : List Host.Cell) :
    (s.withFb b m).lb = s.lb := by cases b <;> rfl
@[simp] theorem State.withFb_vScanline (b : Bool) (m : List Host.Cell) :
    (s.withFb b m).vScanline = s.vScanline := by cases b <;> rfl
@[simp] theorem State.withFb_clOn (b : Bool) (m : List Host.Cell) :
    (s.withFb b m).clOn = s.clOn := by cases b <;> rfl
@[simp] theorem State.withFb_clOff (b : Bool) (m : List Host.Cell) :
    (s.withFb b m).clOff = s.clOff := by cases b <;> rfl
@[simp] theorem State.withFb_hdr (b : Bool) (m : List Host.Cell) :
    (s.withFb b m).hdr = s.hdr := by cases b <;> rfl
@[simp] theorem State.withFb_pal (b : Bool) (m : List Host.Cell) :
    (s.withFb b m).pal = s.pal := by cases b <;> rfl
@[simp] theorem State.withFb_fc (b : Bool) (m : List Host.Cell) :
    (s.withFb b m).fc = s.fc := by cases b <;> rfl
@[simp] theorem State.withFb_ch (b : Bool) (m : List Host.Cell) :
    (s.withFb b m).ch = s.ch := by cases b <;> rfl
@[simp] theorem State.withFb_marker (b : Bool) (m : List Host.Cell) :
    (s.withFb b m).marker = s.marker := by cases b <;> rfl
@[simp] theorem State.withFb_desc (b : Bool) (m : List Host.Cell) :
    (s.withFb b m).desc = s.desc := by cases b <;> rfl
@[simp] theorem State.withFb_armed (b : Bool) (m : List Host.Cell) :
    (s.withFb b m).armed = s.armed := by cases b <;> rfl
@[simp] theorem State.withFb_pending (b : Bool) (m : List Host.Cell) :
    (s.withFb b m).pending = s.pending := by cases b <;> rfl
@[simp] theorem State.withFb_irqEn (b : Bool) (m : List Host.Cell) :
    (s.withFb b m).irqEn = s.irqEn := by cases b <;> rfl
@[simp] theorem State.withFb_activeCh (b : Bool) (m : List Host.Cell) :
    (s.withFb b m).activeCh = s.activeCh := by cases b <;> rfl
@[simp] theorem State.withFb_event (b : Bool) (m : List Host.Cell) :
    (s.withFb b m).event = s.event := by cases b <;> rfl
@[simp] theorem State.withFb_out (b : Bool) (m : List Host.Cell) :
    (s.withFb b m).out = s.out := by cases b <;> rfl
@[simp] theorem State.withFb_serIn (b : Bool) (m : List Host.Cell) :
    (s.withFb b m).serIn = s.serIn := by cases b <;> rfl
@[simp] theorem State.withFb_wire (b : Bool) (m : List Host.Cell) :
    (s.withFb b m).wire = s.wire := by cases b <;> rfl
@[simp] theorem State.withFb_port (b : Bool) (m : List Host.Cell) :
    (s.withFb b m).port = s.port := by cases b <;> rfl
@[simp] theorem State.withFb_busy (b : Bool) (m : List Host.Cell) :
    (s.withFb b m).busy = s.busy := by cases b <;> rfl
@[simp] theorem State.withFb_reply (b : Bool) (m : List Host.Cell) :
    (s.withFb b m).reply = s.reply := by cases b <;> rfl
@[simp] theorem State.withFb_result (b : Bool) (m : List Host.Cell) :
    (s.withFb b m).result = s.result := by cases b <;> rfl
@[simp] theorem State.withFb_invoke (b : Bool) (m : List Host.Cell) :
    (s.withFb b m).invoke = s.invoke := by cases b <;> rfl
@[simp] theorem State.withFb_turns (b : Bool) (m : List Host.Cell) :
    (s.withFb b m).turns = s.turns := by cases b <;> rfl
@[simp] theorem State.withFb_tick (b : Bool) (m : List Host.Cell) :
    (s.withFb b m).tick = s.tick := by cases b <;> rfl
@[simp] theorem State.withFb_epoch (b : Bool) (m : List Host.Cell) :
    (s.withFb b m).epoch = s.epoch := by cases b <;> rfl

/-! ## `State.writeFb8` -/

@[simp] theorem State.writeFb8_plat (b : Bool) (off : Nat) (v : Byte) :
    (s.writeFb8 b off v).plat = s.plat := by cases b <;> rfl
@[simp] theorem State.writeFb8_inited (b : Bool) (off : Nat) (v : Byte) :
    (s.writeFb8 b off v).inited = s.inited := by cases b <;> rfl
@[simp] theorem State.writeFb8_timing (b : Bool) (off : Nat) (v : Byte) :
    (s.writeFb8 b off v).timing = s.timing := by cases b <;> rfl
@[simp] theorem State.writeFb8_mode (b : Bool) (off : Nat) (v : Byte) :
    (s.writeFb8 b off v).mode = s.mode := by cases b <;> rfl
@[simp] theorem State.writeFb8_hShift (b : Bool) (off : Nat) (v : Byte) :
    (s.writeFb8 b off v).hShift = s.hShift := by cases b <;> rfl
@[simp] theorem State.writeFb8_vShift (b : Bool) (off : Nat) (v : Byte) :
    (s.writeFb8 b off v).vShift = s.vShift := by cases b <;> rfl
@[simp] theorem State.writeFb8_frameW (b : Bool) (off : Nat) (v : Byte) :
    (s.writeFb8 b off v).frameW = s.frameW := by cases b <;> rfl
@[simp] theorem State.writeFb8_frameH (b : Bool) (off : Nat) (v : Byte) :
    (s.writeFb8 b off v).frameH = s.frameH := by cases b <;> rfl
@[simp] theorem State.writeFb8_front (b : Bool) (off : Nat) (v : Byte) :
    (s.writeFb8 b off v).front = s.front := by cases b <;> rfl
@[simp] theorem State.writeFb8_flipReq (b : Bool) (off : Nat) (v : Byte) :
    (s.writeFb8 b off v).flipReq = s.flipReq := by cases b <;> rfl
@[simp] theorem State.writeFb8_lb (b : Bool) (off : Nat) (v : Byte) :
    (s.writeFb8 b off v).lb = s.lb := by cases b <;> rfl
@[simp] theorem State.writeFb8_vScanline (b : Bool) (off : Nat) (v : Byte) :
    (s.writeFb8 b off v).vScanline = s.vScanline := by cases b <;> rfl
@[simp] theorem State.writeFb8_clOn (b : Bool) (off : Nat) (v : Byte) :
    (s.writeFb8 b off v).clOn = s.clOn := by cases b <;> rfl
@[simp] theorem State.writeFb8_clOff (b : Bool) (off : Nat) (v : Byte) :
    (s.writeFb8 b off v).clOff = s.clOff := by cases b <;> rfl
@[simp] theorem State.writeFb8_hdr (b : Bool) (off : Nat) (v : Byte) :
    (s.writeFb8 b off v).hdr = s.hdr := by cases b <;> rfl
@[simp] theorem State.writeFb8_pal (b : Bool) (off : Nat) (v : Byte) :
    (s.writeFb8 b off v).pal = s.pal := by cases b <;> rfl
@[simp] theorem State.writeFb8_fc (b : Bool) (off : Nat) (v : Byte) :
    (s.writeFb8 b off v).fc = s.fc := by cases b <;> rfl
@[simp] theorem State.writeFb8_ch (b : Bool) (off : Nat) (v : Byte) :
    (s.writeFb8 b off v).ch = s.ch := by cases b <;> rfl
@[simp] theorem State.writeFb8_marker (b : Bool) (off : Nat) (v : Byte) :
    (s.writeFb8 b off v).marker = s.marker := by cases b <;> rfl
@[simp] theorem State.writeFb8_desc (b : Bool) (off : Nat) (v : Byte) :
    (s.writeFb8 b off v).desc = s.desc := by cases b <;> rfl
@[simp] theorem State.writeFb8_armed (b : Bool) (off : Nat) (v : Byte) :
    (s.writeFb8 b off v).armed = s.armed := by cases b <;> rfl
@[simp] theorem State.writeFb8_pending (b : Bool) (off : Nat) (v : Byte) :
    (s.writeFb8 b off v).pending = s.pending := by cases b <;> rfl
@[simp] theorem State.writeFb8_irqEn (b : Bool) (off : Nat) (v : Byte) :
    (s.writeFb8 b off v).irqEn = s.irqEn := by cases b <;> rfl
@[simp] theorem State.writeFb8_activeCh (b : Bool) (off : Nat) (v : Byte) :
    (s.writeFb8 b off v).activeCh = s.activeCh := by cases b <;> rfl
@[simp] theorem State.writeFb8_event (b : Bool) (off : Nat) (v : Byte) :
    (s.writeFb8 b off v).event = s.event := by cases b <;> rfl
@[simp] theorem State.writeFb8_out (b : Bool) (off : Nat) (v : Byte) :
    (s.writeFb8 b off v).out = s.out := by cases b <;> rfl
@[simp] theorem State.writeFb8_serIn (b : Bool) (off : Nat) (v : Byte) :
    (s.writeFb8 b off v).serIn = s.serIn := by cases b <;> rfl
@[simp] theorem State.writeFb8_wire (b : Bool) (off : Nat) (v : Byte) :
    (s.writeFb8 b off v).wire = s.wire := by cases b <;> rfl
@[simp] theorem State.writeFb8_port (b : Bool) (off : Nat) (v : Byte) :
    (s.writeFb8 b off v).port = s.port := by cases b <;> rfl
@[simp] theorem State.writeFb8_busy (b : Bool) (off : Nat) (v : Byte) :
    (s.writeFb8 b off v).busy = s.busy := by cases b <;> rfl
@[simp] theorem State.writeFb8_reply (b : Bool) (off : Nat) (v : Byte) :
    (s.writeFb8 b off v).reply = s.reply := by cases b <;> rfl
@[simp] theorem State.writeFb8_result (b : Bool) (off : Nat) (v : Byte) :
    (s.writeFb8 b off v).result = s.result := by cases b <;> rfl
@[simp] theorem State.writeFb8_invoke (b : Bool) (off : Nat) (v : Byte) :
    (s.writeFb8 b off v).invoke = s.invoke := by cases b <;> rfl
@[simp] theorem State.writeFb8_turns (b : Bool) (off : Nat) (v : Byte) :
    (s.writeFb8 b off v).turns = s.turns := by cases b <;> rfl
@[simp] theorem State.writeFb8_tick (b : Bool) (off : Nat) (v : Byte) :
    (s.writeFb8 b off v).tick = s.tick := by cases b <;> rfl
@[simp] theorem State.writeFb8_epoch (b : Bool) (off : Nat) (v : Byte) :
    (s.writeFb8 b off v).epoch = s.epoch := by cases b <;> rfl

/-! ## `State.writeFb16` -/

@[simp] theorem State.writeFb16_plat (b : Bool) (off : Nat) (v : Half) :
    (s.writeFb16 b off v).plat = s.plat := by cases b <;> rfl
@[simp] theorem State.writeFb16_inited (b : Bool) (off : Nat) (v : Half) :
    (s.writeFb16 b off v).inited = s.inited := by cases b <;> rfl
@[simp] theorem State.writeFb16_timing (b : Bool) (off : Nat) (v : Half) :
    (s.writeFb16 b off v).timing = s.timing := by cases b <;> rfl
@[simp] theorem State.writeFb16_mode (b : Bool) (off : Nat) (v : Half) :
    (s.writeFb16 b off v).mode = s.mode := by cases b <;> rfl
@[simp] theorem State.writeFb16_hShift (b : Bool) (off : Nat) (v : Half) :
    (s.writeFb16 b off v).hShift = s.hShift := by cases b <;> rfl
@[simp] theorem State.writeFb16_vShift (b : Bool) (off : Nat) (v : Half) :
    (s.writeFb16 b off v).vShift = s.vShift := by cases b <;> rfl
@[simp] theorem State.writeFb16_frameW (b : Bool) (off : Nat) (v : Half) :
    (s.writeFb16 b off v).frameW = s.frameW := by cases b <;> rfl
@[simp] theorem State.writeFb16_frameH (b : Bool) (off : Nat) (v : Half) :
    (s.writeFb16 b off v).frameH = s.frameH := by cases b <;> rfl
@[simp] theorem State.writeFb16_front (b : Bool) (off : Nat) (v : Half) :
    (s.writeFb16 b off v).front = s.front := by cases b <;> rfl
@[simp] theorem State.writeFb16_flipReq (b : Bool) (off : Nat) (v : Half) :
    (s.writeFb16 b off v).flipReq = s.flipReq := by cases b <;> rfl
@[simp] theorem State.writeFb16_lb (b : Bool) (off : Nat) (v : Half) :
    (s.writeFb16 b off v).lb = s.lb := by cases b <;> rfl
@[simp] theorem State.writeFb16_vScanline (b : Bool) (off : Nat) (v : Half) :
    (s.writeFb16 b off v).vScanline = s.vScanline := by cases b <;> rfl
@[simp] theorem State.writeFb16_clOn (b : Bool) (off : Nat) (v : Half) :
    (s.writeFb16 b off v).clOn = s.clOn := by cases b <;> rfl
@[simp] theorem State.writeFb16_clOff (b : Bool) (off : Nat) (v : Half) :
    (s.writeFb16 b off v).clOff = s.clOff := by cases b <;> rfl
@[simp] theorem State.writeFb16_hdr (b : Bool) (off : Nat) (v : Half) :
    (s.writeFb16 b off v).hdr = s.hdr := by cases b <;> rfl
@[simp] theorem State.writeFb16_pal (b : Bool) (off : Nat) (v : Half) :
    (s.writeFb16 b off v).pal = s.pal := by cases b <;> rfl
@[simp] theorem State.writeFb16_fc (b : Bool) (off : Nat) (v : Half) :
    (s.writeFb16 b off v).fc = s.fc := by cases b <;> rfl
@[simp] theorem State.writeFb16_ch (b : Bool) (off : Nat) (v : Half) :
    (s.writeFb16 b off v).ch = s.ch := by cases b <;> rfl
@[simp] theorem State.writeFb16_marker (b : Bool) (off : Nat) (v : Half) :
    (s.writeFb16 b off v).marker = s.marker := by cases b <;> rfl
@[simp] theorem State.writeFb16_desc (b : Bool) (off : Nat) (v : Half) :
    (s.writeFb16 b off v).desc = s.desc := by cases b <;> rfl
@[simp] theorem State.writeFb16_armed (b : Bool) (off : Nat) (v : Half) :
    (s.writeFb16 b off v).armed = s.armed := by cases b <;> rfl
@[simp] theorem State.writeFb16_pending (b : Bool) (off : Nat) (v : Half) :
    (s.writeFb16 b off v).pending = s.pending := by cases b <;> rfl
@[simp] theorem State.writeFb16_irqEn (b : Bool) (off : Nat) (v : Half) :
    (s.writeFb16 b off v).irqEn = s.irqEn := by cases b <;> rfl
@[simp] theorem State.writeFb16_activeCh (b : Bool) (off : Nat) (v : Half) :
    (s.writeFb16 b off v).activeCh = s.activeCh := by cases b <;> rfl
@[simp] theorem State.writeFb16_event (b : Bool) (off : Nat) (v : Half) :
    (s.writeFb16 b off v).event = s.event := by cases b <;> rfl
@[simp] theorem State.writeFb16_out (b : Bool) (off : Nat) (v : Half) :
    (s.writeFb16 b off v).out = s.out := by cases b <;> rfl
@[simp] theorem State.writeFb16_serIn (b : Bool) (off : Nat) (v : Half) :
    (s.writeFb16 b off v).serIn = s.serIn := by cases b <;> rfl
@[simp] theorem State.writeFb16_wire (b : Bool) (off : Nat) (v : Half) :
    (s.writeFb16 b off v).wire = s.wire := by cases b <;> rfl
@[simp] theorem State.writeFb16_port (b : Bool) (off : Nat) (v : Half) :
    (s.writeFb16 b off v).port = s.port := by cases b <;> rfl
@[simp] theorem State.writeFb16_busy (b : Bool) (off : Nat) (v : Half) :
    (s.writeFb16 b off v).busy = s.busy := by cases b <;> rfl
@[simp] theorem State.writeFb16_reply (b : Bool) (off : Nat) (v : Half) :
    (s.writeFb16 b off v).reply = s.reply := by cases b <;> rfl
@[simp] theorem State.writeFb16_result (b : Bool) (off : Nat) (v : Half) :
    (s.writeFb16 b off v).result = s.result := by cases b <;> rfl
@[simp] theorem State.writeFb16_invoke (b : Bool) (off : Nat) (v : Half) :
    (s.writeFb16 b off v).invoke = s.invoke := by cases b <;> rfl
@[simp] theorem State.writeFb16_turns (b : Bool) (off : Nat) (v : Half) :
    (s.writeFb16 b off v).turns = s.turns := by cases b <;> rfl
@[simp] theorem State.writeFb16_tick (b : Bool) (off : Nat) (v : Half) :
    (s.writeFb16 b off v).tick = s.tick := by cases b <;> rfl
@[simp] theorem State.writeFb16_epoch (b : Bool) (off : Nat) (v : Half) :
    (s.writeFb16 b off v).epoch = s.epoch := by cases b <;> rfl

/-! ## `State.writeUnit` -/

@[simp] theorem State.writeUnit_plat (b : Bool) (n : Nat) (v : Word) :
    (s.writeUnit b n v).plat = s.plat := by unfold State.writeUnit; split <;> simp
@[simp] theorem State.writeUnit_inited (b : Bool) (n : Nat) (v : Word) :
    (s.writeUnit b n v).inited = s.inited := by unfold State.writeUnit; split <;> simp
@[simp] theorem State.writeUnit_timing (b : Bool) (n : Nat) (v : Word) :
    (s.writeUnit b n v).timing = s.timing := by unfold State.writeUnit; split <;> simp
@[simp] theorem State.writeUnit_mode (b : Bool) (n : Nat) (v : Word) :
    (s.writeUnit b n v).mode = s.mode := by unfold State.writeUnit; split <;> simp
@[simp] theorem State.writeUnit_hShift (b : Bool) (n : Nat) (v : Word) :
    (s.writeUnit b n v).hShift = s.hShift := by unfold State.writeUnit; split <;> simp
@[simp] theorem State.writeUnit_vShift (b : Bool) (n : Nat) (v : Word) :
    (s.writeUnit b n v).vShift = s.vShift := by unfold State.writeUnit; split <;> simp
@[simp] theorem State.writeUnit_frameW (b : Bool) (n : Nat) (v : Word) :
    (s.writeUnit b n v).frameW = s.frameW := by unfold State.writeUnit; split <;> simp
@[simp] theorem State.writeUnit_frameH (b : Bool) (n : Nat) (v : Word) :
    (s.writeUnit b n v).frameH = s.frameH := by unfold State.writeUnit; split <;> simp
@[simp] theorem State.writeUnit_front (b : Bool) (n : Nat) (v : Word) :
    (s.writeUnit b n v).front = s.front := by unfold State.writeUnit; split <;> simp
@[simp] theorem State.writeUnit_flipReq (b : Bool) (n : Nat) (v : Word) :
    (s.writeUnit b n v).flipReq = s.flipReq := by unfold State.writeUnit; split <;> simp
@[simp] theorem State.writeUnit_lb (b : Bool) (n : Nat) (v : Word) :
    (s.writeUnit b n v).lb = s.lb := by unfold State.writeUnit; split <;> simp
@[simp] theorem State.writeUnit_vScanline (b : Bool) (n : Nat) (v : Word) :
    (s.writeUnit b n v).vScanline = s.vScanline := by unfold State.writeUnit; split <;> simp
@[simp] theorem State.writeUnit_clOn (b : Bool) (n : Nat) (v : Word) :
    (s.writeUnit b n v).clOn = s.clOn := by unfold State.writeUnit; split <;> simp
@[simp] theorem State.writeUnit_clOff (b : Bool) (n : Nat) (v : Word) :
    (s.writeUnit b n v).clOff = s.clOff := by unfold State.writeUnit; split <;> simp
@[simp] theorem State.writeUnit_hdr (b : Bool) (n : Nat) (v : Word) :
    (s.writeUnit b n v).hdr = s.hdr := by unfold State.writeUnit; split <;> simp
@[simp] theorem State.writeUnit_pal (b : Bool) (n : Nat) (v : Word) :
    (s.writeUnit b n v).pal = s.pal := by unfold State.writeUnit; split <;> simp
@[simp] theorem State.writeUnit_fc (b : Bool) (n : Nat) (v : Word) :
    (s.writeUnit b n v).fc = s.fc := by unfold State.writeUnit; split <;> simp
@[simp] theorem State.writeUnit_ch (b : Bool) (n : Nat) (v : Word) :
    (s.writeUnit b n v).ch = s.ch := by unfold State.writeUnit; split <;> simp
@[simp] theorem State.writeUnit_marker (b : Bool) (n : Nat) (v : Word) :
    (s.writeUnit b n v).marker = s.marker := by unfold State.writeUnit; split <;> simp
@[simp] theorem State.writeUnit_desc (b : Bool) (n : Nat) (v : Word) :
    (s.writeUnit b n v).desc = s.desc := by unfold State.writeUnit; split <;> simp
@[simp] theorem State.writeUnit_armed (b : Bool) (n : Nat) (v : Word) :
    (s.writeUnit b n v).armed = s.armed := by unfold State.writeUnit; split <;> simp
@[simp] theorem State.writeUnit_pending (b : Bool) (n : Nat) (v : Word) :
    (s.writeUnit b n v).pending = s.pending := by unfold State.writeUnit; split <;> simp
@[simp] theorem State.writeUnit_irqEn (b : Bool) (n : Nat) (v : Word) :
    (s.writeUnit b n v).irqEn = s.irqEn := by unfold State.writeUnit; split <;> simp
@[simp] theorem State.writeUnit_activeCh (b : Bool) (n : Nat) (v : Word) :
    (s.writeUnit b n v).activeCh = s.activeCh := by unfold State.writeUnit; split <;> simp
@[simp] theorem State.writeUnit_event (b : Bool) (n : Nat) (v : Word) :
    (s.writeUnit b n v).event = s.event := by unfold State.writeUnit; split <;> simp
@[simp] theorem State.writeUnit_out (b : Bool) (n : Nat) (v : Word) :
    (s.writeUnit b n v).out = s.out := by unfold State.writeUnit; split <;> simp
@[simp] theorem State.writeUnit_serIn (b : Bool) (n : Nat) (v : Word) :
    (s.writeUnit b n v).serIn = s.serIn := by unfold State.writeUnit; split <;> simp
@[simp] theorem State.writeUnit_wire (b : Bool) (n : Nat) (v : Word) :
    (s.writeUnit b n v).wire = s.wire := by unfold State.writeUnit; split <;> simp
@[simp] theorem State.writeUnit_port (b : Bool) (n : Nat) (v : Word) :
    (s.writeUnit b n v).port = s.port := by unfold State.writeUnit; split <;> simp
@[simp] theorem State.writeUnit_busy (b : Bool) (n : Nat) (v : Word) :
    (s.writeUnit b n v).busy = s.busy := by unfold State.writeUnit; split <;> simp
@[simp] theorem State.writeUnit_reply (b : Bool) (n : Nat) (v : Word) :
    (s.writeUnit b n v).reply = s.reply := by unfold State.writeUnit; split <;> simp
@[simp] theorem State.writeUnit_result (b : Bool) (n : Nat) (v : Word) :
    (s.writeUnit b n v).result = s.result := by unfold State.writeUnit; split <;> simp
@[simp] theorem State.writeUnit_invoke (b : Bool) (n : Nat) (v : Word) :
    (s.writeUnit b n v).invoke = s.invoke := by unfold State.writeUnit; split <;> simp
@[simp] theorem State.writeUnit_turns (b : Bool) (n : Nat) (v : Word) :
    (s.writeUnit b n v).turns = s.turns := by unfold State.writeUnit; split <;> simp
@[simp] theorem State.writeUnit_tick (b : Bool) (n : Nat) (v : Word) :
    (s.writeUnit b n v).tick = s.tick := by unfold State.writeUnit; split <;> simp
@[simp] theorem State.writeUnit_epoch (b : Bool) (n : Nat) (v : Word) :
    (s.writeUnit b n v).epoch = s.epoch := by unfold State.writeUnit; split <;> simp

/-! ## `State.writePal` -/

@[simp] theorem State.writePal_plat (i : Byte) (w : Word) : (s.writePal i w).plat = s.plat := rfl
@[simp] theorem State.writePal_inited (i : Byte) (w : Word) : (s.writePal i w).inited = s.inited := rfl
@[simp] theorem State.writePal_timing (i : Byte) (w : Word) : (s.writePal i w).timing = s.timing := rfl
@[simp] theorem State.writePal_mode (i : Byte) (w : Word) : (s.writePal i w).mode = s.mode := rfl
@[simp] theorem State.writePal_hShift (i : Byte) (w : Word) : (s.writePal i w).hShift = s.hShift := rfl
@[simp] theorem State.writePal_vShift (i : Byte) (w : Word) : (s.writePal i w).vShift = s.vShift := rfl
@[simp] theorem State.writePal_frameW (i : Byte) (w : Word) : (s.writePal i w).frameW = s.frameW := rfl
@[simp] theorem State.writePal_frameH (i : Byte) (w : Word) : (s.writePal i w).frameH = s.frameH := rfl
@[simp] theorem State.writePal_fb0 (i : Byte) (w : Word) : (s.writePal i w).fb0 = s.fb0 := rfl
@[simp] theorem State.writePal_fb1 (i : Byte) (w : Word) : (s.writePal i w).fb1 = s.fb1 := rfl
@[simp] theorem State.writePal_front (i : Byte) (w : Word) : (s.writePal i w).front = s.front := rfl
@[simp] theorem State.writePal_flipReq (i : Byte) (w : Word) : (s.writePal i w).flipReq = s.flipReq := rfl
@[simp] theorem State.writePal_lb (i : Byte) (w : Word) : (s.writePal i w).lb = s.lb := rfl
@[simp] theorem State.writePal_vScanline (i : Byte) (w : Word) :
    (s.writePal i w).vScanline = s.vScanline := rfl
@[simp] theorem State.writePal_clOn (i : Byte) (w : Word) : (s.writePal i w).clOn = s.clOn := rfl
@[simp] theorem State.writePal_clOff (i : Byte) (w : Word) : (s.writePal i w).clOff = s.clOff := rfl
@[simp] theorem State.writePal_hdr (i : Byte) (w : Word) : (s.writePal i w).hdr = s.hdr := rfl
@[simp] theorem State.writePal_pal (i : Byte) (w : Word) :
    (s.writePal i w).pal = storePut s.pal i.toNat w := rfl
@[simp] theorem State.writePal_fc (i : Byte) (w : Word) : (s.writePal i w).fc = s.fc := rfl
@[simp] theorem State.writePal_ch (i : Byte) (w : Word) : (s.writePal i w).ch = s.ch := rfl
@[simp] theorem State.writePal_marker (i : Byte) (w : Word) : (s.writePal i w).marker = s.marker := rfl
@[simp] theorem State.writePal_desc (i : Byte) (w : Word) : (s.writePal i w).desc = s.desc := rfl
@[simp] theorem State.writePal_armed (i : Byte) (w : Word) : (s.writePal i w).armed = s.armed := rfl
@[simp] theorem State.writePal_pending (i : Byte) (w : Word) : (s.writePal i w).pending = s.pending := rfl
@[simp] theorem State.writePal_irqEn (i : Byte) (w : Word) : (s.writePal i w).irqEn = s.irqEn := rfl
@[simp] theorem State.writePal_activeCh (i : Byte) (w : Word) : (s.writePal i w).activeCh = s.activeCh := rfl
@[simp] theorem State.writePal_event (i : Byte) (w : Word) : (s.writePal i w).event = s.event := rfl
@[simp] theorem State.writePal_out (i : Byte) (w : Word) : (s.writePal i w).out = s.out := rfl
@[simp] theorem State.writePal_serIn (i : Byte) (w : Word) : (s.writePal i w).serIn = s.serIn := rfl
@[simp] theorem State.writePal_wire (i : Byte) (w : Word) : (s.writePal i w).wire = s.wire := rfl
@[simp] theorem State.writePal_port (i : Byte) (w : Word) : (s.writePal i w).port = s.port := rfl
@[simp] theorem State.writePal_busy (i : Byte) (w : Word) : (s.writePal i w).busy = s.busy := rfl
@[simp] theorem State.writePal_reply (i : Byte) (w : Word) : (s.writePal i w).reply = s.reply := rfl
@[simp] theorem State.writePal_result (i : Byte) (w : Word) : (s.writePal i w).result = s.result := rfl
@[simp] theorem State.writePal_invoke (i : Byte) (w : Word) : (s.writePal i w).invoke = s.invoke := rfl
@[simp] theorem State.writePal_turns (i : Byte) (w : Word) : (s.writePal i w).turns = s.turns := rfl
@[simp] theorem State.writePal_tick (i : Byte) (w : Word) : (s.writePal i w).tick = s.tick := rfl
@[simp] theorem State.writePal_epoch (i : Byte) (w : Word) : (s.writePal i w).epoch = s.epoch := rfl

/-! ## `State.modifyPix` -/

@[simp] theorem State.modifyPix_plat (k : Nat) (f : List Byte → List Byte) :
    (s.modifyPix k f).plat = s.plat := rfl
@[simp] theorem State.modifyPix_inited (k : Nat) (f : List Byte → List Byte) :
    (s.modifyPix k f).inited = s.inited := rfl
@[simp] theorem State.modifyPix_timing (k : Nat) (f : List Byte → List Byte) :
    (s.modifyPix k f).timing = s.timing := rfl
@[simp] theorem State.modifyPix_mode (k : Nat) (f : List Byte → List Byte) :
    (s.modifyPix k f).mode = s.mode := rfl
@[simp] theorem State.modifyPix_hShift (k : Nat) (f : List Byte → List Byte) :
    (s.modifyPix k f).hShift = s.hShift := rfl
@[simp] theorem State.modifyPix_vShift (k : Nat) (f : List Byte → List Byte) :
    (s.modifyPix k f).vShift = s.vShift := rfl
@[simp] theorem State.modifyPix_frameW (k : Nat) (f : List Byte → List Byte) :
    (s.modifyPix k f).frameW = s.frameW := rfl
@[simp] theorem State.modifyPix_frameH (k : Nat) (f : List Byte → List Byte) :
    (s.modifyPix k f).frameH = s.frameH := rfl
@[simp] theorem State.modifyPix_fb0 (k : Nat) (f : List Byte → List Byte) :
    (s.modifyPix k f).fb0 = s.fb0 := rfl
@[simp] theorem State.modifyPix_fb1 (k : Nat) (f : List Byte → List Byte) :
    (s.modifyPix k f).fb1 = s.fb1 := rfl
@[simp] theorem State.modifyPix_front (k : Nat) (f : List Byte → List Byte) :
    (s.modifyPix k f).front = s.front := rfl
@[simp] theorem State.modifyPix_flipReq (k : Nat) (f : List Byte → List Byte) :
    (s.modifyPix k f).flipReq = s.flipReq := rfl
@[simp] theorem State.modifyPix_lb (k : Nat) (f : List Byte → List Byte) :
    (s.modifyPix k f).lb = s.lb.modify k fun b => { b with pix := f b.pix } := rfl
@[simp] theorem State.modifyPix_vScanline (k : Nat) (f : List Byte → List Byte) :
    (s.modifyPix k f).vScanline = s.vScanline := rfl
@[simp] theorem State.modifyPix_clOn (k : Nat) (f : List Byte → List Byte) :
    (s.modifyPix k f).clOn = s.clOn := rfl
@[simp] theorem State.modifyPix_clOff (k : Nat) (f : List Byte → List Byte) :
    (s.modifyPix k f).clOff = s.clOff := rfl
@[simp] theorem State.modifyPix_hdr (k : Nat) (f : List Byte → List Byte) :
    (s.modifyPix k f).hdr = s.hdr := rfl
@[simp] theorem State.modifyPix_pal (k : Nat) (f : List Byte → List Byte) :
    (s.modifyPix k f).pal = s.pal := rfl
@[simp] theorem State.modifyPix_fc (k : Nat) (f : List Byte → List Byte) : (s.modifyPix k f).fc = s.fc := rfl
@[simp] theorem State.modifyPix_ch (k : Nat) (f : List Byte → List Byte) : (s.modifyPix k f).ch = s.ch := rfl
@[simp] theorem State.modifyPix_marker (k : Nat) (f : List Byte → List Byte) :
    (s.modifyPix k f).marker = s.marker := rfl
@[simp] theorem State.modifyPix_desc (k : Nat) (f : List Byte → List Byte) :
    (s.modifyPix k f).desc = s.desc := rfl
@[simp] theorem State.modifyPix_armed (k : Nat) (f : List Byte → List Byte) :
    (s.modifyPix k f).armed = s.armed := rfl
@[simp] theorem State.modifyPix_pending (k : Nat) (f : List Byte → List Byte) :
    (s.modifyPix k f).pending = s.pending := rfl
@[simp] theorem State.modifyPix_irqEn (k : Nat) (f : List Byte → List Byte) :
    (s.modifyPix k f).irqEn = s.irqEn := rfl
@[simp] theorem State.modifyPix_activeCh (k : Nat) (f : List Byte → List Byte) :
    (s.modifyPix k f).activeCh = s.activeCh := rfl
@[simp] theorem State.modifyPix_event (k : Nat) (f : List Byte → List Byte) :
    (s.modifyPix k f).event = s.event := rfl
@[simp] theorem State.modifyPix_out (k : Nat) (f : List Byte → List Byte) :
    (s.modifyPix k f).out = s.out := rfl
@[simp] theorem State.modifyPix_serIn (k : Nat) (f : List Byte → List Byte) :
    (s.modifyPix k f).serIn = s.serIn := rfl
@[simp] theorem State.modifyPix_wire (k : Nat) (f : List Byte → List Byte) :
    (s.modifyPix k f).wire = s.wire := rfl
@[simp] theorem State.modifyPix_port (k : Nat) (f : List Byte → List Byte) :
    (s.modifyPix k f).port = s.port := rfl
@[simp] theorem State.modifyPix_busy (k : Nat) (f : List Byte → List Byte) :
    (s.modifyPix k f).busy = s.busy := rfl
@[simp] theorem State.modifyPix_reply (k : Nat) (f : List Byte → List Byte) :
    (s.modifyPix k f).reply = s.reply := rfl
@[simp] theorem State.modifyPix_result (k : Nat) (f : List Byte → List Byte) :
    (s.modifyPix k f).result = s.result := rfl
@[simp] theorem State.modifyPix_invoke (k : Nat) (f : List Byte → List Byte) :
    (s.modifyPix k f).invoke = s.invoke := rfl
@[simp] theorem State.modifyPix_turns (k : Nat) (f : List Byte → List Byte) :
    (s.modifyPix k f).turns = s.turns := rfl
@[simp] theorem State.modifyPix_tick (k : Nat) (f : List Byte → List Byte) :
    (s.modifyPix k f).tick = s.tick := rfl
@[simp] theorem State.modifyPix_epoch (k : Nat) (f : List Byte → List Byte) :
    (s.modifyPix k f).epoch = s.epoch := rfl

/-! ## `State.fillLine` -/

@[simp] theorem State.fillLine_plat (k y : Nat) :
    (s.fillLine k y).plat = s.plat := by unfold State.fillLine; split <;> rfl
@[simp] theorem State.fillLine_inited (k y : Nat) :
    (s.fillLine k y).inited = s.inited := by unfold State.fillLine; split <;> rfl
@[simp] theorem State.fillLine_timing (k y : Nat) :
    (s.fillLine k y).timing = s.timing := by unfold State.fillLine; split <;> rfl
@[simp] theorem State.fillLine_mode (k y : Nat) :
    (s.fillLine k y).mode = s.mode := by unfold State.fillLine; split <;> rfl
@[simp] theorem State.fillLine_hShift (k y : Nat) :
    (s.fillLine k y).hShift = s.hShift := by unfold State.fillLine; split <;> rfl
@[simp] theorem State.fillLine_vShift (k y : Nat) :
    (s.fillLine k y).vShift = s.vShift := by unfold State.fillLine; split <;> rfl
@[simp] theorem State.fillLine_frameW (k y : Nat) :
    (s.fillLine k y).frameW = s.frameW := by unfold State.fillLine; split <;> rfl
@[simp] theorem State.fillLine_frameH (k y : Nat) :
    (s.fillLine k y).frameH = s.frameH := by unfold State.fillLine; split <;> rfl
@[simp] theorem State.fillLine_fb0 (k y : Nat) :
    (s.fillLine k y).fb0 = s.fb0 := by unfold State.fillLine; split <;> rfl
@[simp] theorem State.fillLine_fb1 (k y : Nat) :
    (s.fillLine k y).fb1 = s.fb1 := by unfold State.fillLine; split <;> rfl
@[simp] theorem State.fillLine_front (k y : Nat) :
    (s.fillLine k y).front = s.front := by unfold State.fillLine; split <;> rfl
@[simp] theorem State.fillLine_flipReq (k y : Nat) :
    (s.fillLine k y).flipReq = s.flipReq := by unfold State.fillLine; split <;> rfl
@[simp] theorem State.fillLine_vScanline (k y : Nat) :
    (s.fillLine k y).vScanline = s.vScanline := by unfold State.fillLine; split <;> rfl
@[simp] theorem State.fillLine_clOn (k y : Nat) :
    (s.fillLine k y).clOn = s.clOn := by unfold State.fillLine; split <;> rfl
@[simp] theorem State.fillLine_clOff (k y : Nat) :
    (s.fillLine k y).clOff = s.clOff := by unfold State.fillLine; split <;> rfl
@[simp] theorem State.fillLine_hdr (k y : Nat) :
    (s.fillLine k y).hdr = s.hdr := by unfold State.fillLine; split <;> rfl
@[simp] theorem State.fillLine_pal (k y : Nat) :
    (s.fillLine k y).pal = s.pal := by unfold State.fillLine; split <;> rfl
@[simp] theorem State.fillLine_fc (k y : Nat) :
    (s.fillLine k y).fc = s.fc := by unfold State.fillLine; split <;> rfl
@[simp] theorem State.fillLine_ch (k y : Nat) :
    (s.fillLine k y).ch = s.ch := by unfold State.fillLine; split <;> rfl
@[simp] theorem State.fillLine_marker (k y : Nat) :
    (s.fillLine k y).marker = s.marker := by unfold State.fillLine; split <;> rfl
@[simp] theorem State.fillLine_desc (k y : Nat) :
    (s.fillLine k y).desc = s.desc := by unfold State.fillLine; split <;> rfl
@[simp] theorem State.fillLine_armed (k y : Nat) :
    (s.fillLine k y).armed = s.armed := by unfold State.fillLine; split <;> rfl
@[simp] theorem State.fillLine_pending (k y : Nat) :
    (s.fillLine k y).pending = s.pending := by unfold State.fillLine; split <;> rfl
@[simp] theorem State.fillLine_irqEn (k y : Nat) :
    (s.fillLine k y).irqEn = s.irqEn := by unfold State.fillLine; split <;> rfl
@[simp] theorem State.fillLine_activeCh (k y : Nat) :
    (s.fillLine k y).activeCh = s.activeCh := by unfold State.fillLine; split <;> rfl
@[simp] theorem State.fillLine_event (k y : Nat) :
    (s.fillLine k y).event = s.event := by unfold State.fillLine; split <;> rfl
@[simp] theorem State.fillLine_out (k y : Nat) :
    (s.fillLine k y).out = s.out := by unfold State.fillLine; split <;> rfl
@[simp] theorem State.fillLine_serIn (k y : Nat) :
    (s.fillLine k y).serIn = s.serIn := by unfold State.fillLine; split <;> rfl
@[simp] theorem State.fillLine_wire (k y : Nat) :
    (s.fillLine k y).wire = s.wire := by unfold State.fillLine; split <;> rfl
@[simp] theorem State.fillLine_port (k y : Nat) :
    (s.fillLine k y).port = s.port := by unfold State.fillLine; split <;> rfl
@[simp] theorem State.fillLine_busy (k y : Nat) :
    (s.fillLine k y).busy = s.busy := by unfold State.fillLine; split <;> rfl
@[simp] theorem State.fillLine_reply (k y : Nat) :
    (s.fillLine k y).reply = s.reply := by unfold State.fillLine; split <;> rfl
@[simp] theorem State.fillLine_result (k y : Nat) :
    (s.fillLine k y).result = s.result := by unfold State.fillLine; split <;> rfl
@[simp] theorem State.fillLine_invoke (k y : Nat) :
    (s.fillLine k y).invoke = s.invoke := by unfold State.fillLine; split <;> rfl
@[simp] theorem State.fillLine_turns (k y : Nat) :
    (s.fillLine k y).turns = s.turns := by unfold State.fillLine; split <;> rfl
@[simp] theorem State.fillLine_tick (k y : Nat) :
    (s.fillLine k y).tick = s.tick := by unfold State.fillLine; split <;> rfl
@[simp] theorem State.fillLine_epoch (k y : Nat) :
    (s.fillLine k y).epoch = s.epoch := by unfold State.fillLine; split <;> rfl

/-! ## `State.setDesc` -/

@[simp] theorem State.setDesc_plat (c : Channel) (src : Src) (n : Nat) :
    (s.setDesc c src n).plat = s.plat := rfl
@[simp] theorem State.setDesc_inited (c : Channel) (src : Src) (n : Nat) :
    (s.setDesc c src n).inited = s.inited := rfl
@[simp] theorem State.setDesc_timing (c : Channel) (src : Src) (n : Nat) :
    (s.setDesc c src n).timing = s.timing := rfl
@[simp] theorem State.setDesc_mode (c : Channel) (src : Src) (n : Nat) :
    (s.setDesc c src n).mode = s.mode := rfl
@[simp] theorem State.setDesc_hShift (c : Channel) (src : Src) (n : Nat) :
    (s.setDesc c src n).hShift = s.hShift := rfl
@[simp] theorem State.setDesc_vShift (c : Channel) (src : Src) (n : Nat) :
    (s.setDesc c src n).vShift = s.vShift := rfl
@[simp] theorem State.setDesc_frameW (c : Channel) (src : Src) (n : Nat) :
    (s.setDesc c src n).frameW = s.frameW := rfl
@[simp] theorem State.setDesc_frameH (c : Channel) (src : Src) (n : Nat) :
    (s.setDesc c src n).frameH = s.frameH := rfl
@[simp] theorem State.setDesc_fb0 (c : Channel) (src : Src) (n : Nat) : (s.setDesc c src n).fb0 = s.fb0 := rfl
@[simp] theorem State.setDesc_fb1 (c : Channel) (src : Src) (n : Nat) : (s.setDesc c src n).fb1 = s.fb1 := rfl
@[simp] theorem State.setDesc_front (c : Channel) (src : Src) (n : Nat) :
    (s.setDesc c src n).front = s.front := rfl
@[simp] theorem State.setDesc_flipReq (c : Channel) (src : Src) (n : Nat) :
    (s.setDesc c src n).flipReq = s.flipReq := rfl
@[simp] theorem State.setDesc_lb (c : Channel) (src : Src) (n : Nat) : (s.setDesc c src n).lb = s.lb := rfl
@[simp] theorem State.setDesc_vScanline (c : Channel) (src : Src) (n : Nat) :
    (s.setDesc c src n).vScanline = s.vScanline := rfl
@[simp] theorem State.setDesc_clOn (c : Channel) (src : Src) (n : Nat) :
    (s.setDesc c src n).clOn = s.clOn := rfl
@[simp] theorem State.setDesc_clOff (c : Channel) (src : Src) (n : Nat) :
    (s.setDesc c src n).clOff = s.clOff := rfl
@[simp] theorem State.setDesc_hdr (c : Channel) (src : Src) (n : Nat) : (s.setDesc c src n).hdr = s.hdr := rfl
@[simp] theorem State.setDesc_pal (c : Channel) (src : Src) (n : Nat) : (s.setDesc c src n).pal = s.pal := rfl
@[simp] theorem State.setDesc_fc (c : Channel) (src : Src) (n : Nat) : (s.setDesc c src n).fc = s.fc := rfl
@[simp] theorem State.setDesc_ch (c : Channel) (src : Src) (n : Nat) : (s.setDesc c src n).ch = s.ch := rfl
@[simp] theorem State.setDesc_marker (c : Channel) (src : Src) (n : Nat) :
    (s.setDesc c src n).marker = s.marker := rfl
@[simp] theorem State.setDesc_desc (c : Channel) (src : Src) (n : Nat) :
    (s.setDesc c src n).desc = s.desc.set c ⟨src, n⟩ := rfl
@[simp] theorem State.setDesc_armed (c : Channel) (src : Src) (n : Nat) :
    (s.setDesc c src n).armed = s.armed := rfl
@[simp] theorem State.setDesc_pending (c : Channel) (src : Src) (n : Nat) :
    (s.setDesc c src n).pending = s.pending := rfl
@[simp] theorem State.setDesc_irqEn (c : Channel) (src : Src) (n : Nat) :
    (s.setDesc c src n).irqEn = s.irqEn := rfl
@[simp] theorem State.setDesc_activeCh (c : Channel) (src : Src) (n : Nat) :
    (s.setDesc c src n).activeCh = s.activeCh := rfl
@[simp] theorem State.setDesc_event (c : Channel) (src : Src) (n : Nat) :
    (s.setDesc c src n).event = s.event := rfl
@[simp] theorem State.setDesc_out (c : Channel) (src : Src) (n : Nat) : (s.setDesc c src n).out = s.out := rfl
@[simp] theorem State.setDesc_serIn (c : Channel) (src : Src) (n : Nat) :
    (s.setDesc c src n).serIn = s.serIn := rfl
@[simp] theorem State.setDesc_wire (c : Channel) (src : Src) (n : Nat) :
    (s.setDesc c src n).wire = s.wire := rfl
@[simp] theorem State.setDesc_port (c : Channel) (src : Src) (n : Nat) :
    (s.setDesc c src n).port = s.port := rfl
@[simp] theorem State.setDesc_busy (c : Channel) (src : Src) (n : Nat) :
    (s.setDesc c src n).busy = s.busy := rfl
@[simp] theorem State.setDesc_reply (c : Channel) (src : Src) (n : Nat) :
    (s.setDesc c src n).reply = s.reply := rfl
@[simp] theorem State.setDesc_result (c : Channel) (src : Src) (n : Nat) :
    (s.setDesc c src n).result = s.result := rfl
@[simp] theorem State.setDesc_invoke (c : Channel) (src : Src) (n : Nat) :
    (s.setDesc c src n).invoke = s.invoke := rfl
@[simp] theorem State.setDesc_turns (c : Channel) (src : Src) (n : Nat) :
    (s.setDesc c src n).turns = s.turns := rfl
@[simp] theorem State.setDesc_tick (c : Channel) (src : Src) (n : Nat) :
    (s.setDesc c src n).tick = s.tick := rfl
@[simp] theorem State.setDesc_epoch (c : Channel) (src : Src) (n : Nat) :
    (s.setDesc c src n).epoch = s.epoch := rfl

/-! ## `State.replied` -/

@[simp] theorem State.replied_plat (ws : List Word) : (s.replied ws).plat = s.plat := rfl
@[simp] theorem State.replied_inited (ws : List Word) : (s.replied ws).inited = s.inited := rfl
@[simp] theorem State.replied_timing (ws : List Word) : (s.replied ws).timing = s.timing := rfl
@[simp] theorem State.replied_mode (ws : List Word) : (s.replied ws).mode = s.mode := rfl
@[simp] theorem State.replied_hShift (ws : List Word) : (s.replied ws).hShift = s.hShift := rfl
@[simp] theorem State.replied_vShift (ws : List Word) : (s.replied ws).vShift = s.vShift := rfl
@[simp] theorem State.replied_frameW (ws : List Word) : (s.replied ws).frameW = s.frameW := rfl
@[simp] theorem State.replied_frameH (ws : List Word) : (s.replied ws).frameH = s.frameH := rfl
@[simp] theorem State.replied_fb0 (ws : List Word) : (s.replied ws).fb0 = s.fb0 := rfl
@[simp] theorem State.replied_fb1 (ws : List Word) : (s.replied ws).fb1 = s.fb1 := rfl
@[simp] theorem State.replied_front (ws : List Word) : (s.replied ws).front = s.front := rfl
@[simp] theorem State.replied_flipReq (ws : List Word) : (s.replied ws).flipReq = s.flipReq := rfl
@[simp] theorem State.replied_lb (ws : List Word) : (s.replied ws).lb = s.lb := rfl
@[simp] theorem State.replied_vScanline (ws : List Word) : (s.replied ws).vScanline = s.vScanline := rfl
@[simp] theorem State.replied_clOn (ws : List Word) : (s.replied ws).clOn = s.clOn := rfl
@[simp] theorem State.replied_clOff (ws : List Word) : (s.replied ws).clOff = s.clOff := rfl
@[simp] theorem State.replied_hdr (ws : List Word) : (s.replied ws).hdr = s.hdr := rfl
@[simp] theorem State.replied_pal (ws : List Word) : (s.replied ws).pal = s.pal := rfl
@[simp] theorem State.replied_fc (ws : List Word) : (s.replied ws).fc = s.fc := rfl
@[simp] theorem State.replied_ch (ws : List Word) : (s.replied ws).ch = s.ch := rfl
@[simp] theorem State.replied_marker (ws : List Word) : (s.replied ws).marker = s.marker := rfl
@[simp] theorem State.replied_desc (ws : List Word) : (s.replied ws).desc = s.desc := rfl
@[simp] theorem State.replied_armed (ws : List Word) : (s.replied ws).armed = s.armed := rfl
@[simp] theorem State.replied_pending (ws : List Word) : (s.replied ws).pending = s.pending := rfl
@[simp] theorem State.replied_irqEn (ws : List Word) : (s.replied ws).irqEn = s.irqEn := rfl
@[simp] theorem State.replied_activeCh (ws : List Word) : (s.replied ws).activeCh = s.activeCh := rfl
@[simp] theorem State.replied_event (ws : List Word) : (s.replied ws).event = s.event := rfl
@[simp] theorem State.replied_out (ws : List Word) : (s.replied ws).out = s.out := rfl
@[simp] theorem State.replied_serIn (ws : List Word) : (s.replied ws).serIn = s.serIn := rfl
@[simp] theorem State.replied_wire (ws : List Word) : (s.replied ws).wire = s.wire := rfl
@[simp] theorem State.replied_port (ws : List Word) : (s.replied ws).port = s.port := rfl
@[simp] theorem State.replied_busy (ws : List Word) : (s.replied ws).busy = s.busy := rfl
@[simp] theorem State.replied_reply (ws : List Word) : (s.replied ws).reply = s.reply ++ ws := rfl
@[simp] theorem State.replied_result (ws : List Word) : (s.replied ws).result = s.result := rfl
@[simp] theorem State.replied_invoke (ws : List Word) : (s.replied ws).invoke = s.invoke := rfl
@[simp] theorem State.replied_turns (ws : List Word) : (s.replied ws).turns = s.turns := rfl
@[simp] theorem State.replied_tick (ws : List Word) : (s.replied ws).tick = s.tick := rfl
@[simp] theorem State.replied_epoch (ws : List Word) : (s.replied ws).epoch = s.epoch := rfl

/-! ## `State.returned` -/

@[simp] theorem State.returned_plat (r : Result) : (s.returned r).plat = s.plat := rfl
@[simp] theorem State.returned_inited (r : Result) : (s.returned r).inited = s.inited := rfl
@[simp] theorem State.returned_timing (r : Result) : (s.returned r).timing = s.timing := rfl
@[simp] theorem State.returned_mode (r : Result) : (s.returned r).mode = s.mode := rfl
@[simp] theorem State.returned_hShift (r : Result) : (s.returned r).hShift = s.hShift := rfl
@[simp] theorem State.returned_vShift (r : Result) : (s.returned r).vShift = s.vShift := rfl
@[simp] theorem State.returned_frameW (r : Result) : (s.returned r).frameW = s.frameW := rfl
@[simp] theorem State.returned_frameH (r : Result) : (s.returned r).frameH = s.frameH := rfl
@[simp] theorem State.returned_fb0 (r : Result) : (s.returned r).fb0 = s.fb0 := rfl
@[simp] theorem State.returned_fb1 (r : Result) : (s.returned r).fb1 = s.fb1 := rfl
@[simp] theorem State.returned_front (r : Result) : (s.returned r).front = s.front := rfl
@[simp] theorem State.returned_flipReq (r : Result) : (s.returned r).flipReq = s.flipReq := rfl
@[simp] theorem State.returned_lb (r : Result) : (s.returned r).lb = s.lb := rfl
@[simp] theorem State.returned_vScanline (r : Result) : (s.returned r).vScanline = s.vScanline := rfl
@[simp] theorem State.returned_clOn (r : Result) : (s.returned r).clOn = s.clOn := rfl
@[simp] theorem State.returned_clOff (r : Result) : (s.returned r).clOff = s.clOff := rfl
@[simp] theorem State.returned_hdr (r : Result) : (s.returned r).hdr = s.hdr := rfl
@[simp] theorem State.returned_pal (r : Result) : (s.returned r).pal = s.pal := rfl
@[simp] theorem State.returned_fc (r : Result) : (s.returned r).fc = s.fc := rfl
@[simp] theorem State.returned_ch (r : Result) : (s.returned r).ch = s.ch := rfl
@[simp] theorem State.returned_marker (r : Result) : (s.returned r).marker = s.marker := rfl
@[simp] theorem State.returned_desc (r : Result) : (s.returned r).desc = s.desc := rfl
@[simp] theorem State.returned_armed (r : Result) : (s.returned r).armed = s.armed := rfl
@[simp] theorem State.returned_pending (r : Result) : (s.returned r).pending = s.pending := rfl
@[simp] theorem State.returned_irqEn (r : Result) : (s.returned r).irqEn = s.irqEn := rfl
@[simp] theorem State.returned_activeCh (r : Result) : (s.returned r).activeCh = s.activeCh := rfl
@[simp] theorem State.returned_event (r : Result) : (s.returned r).event = s.event := rfl
@[simp] theorem State.returned_out (r : Result) : (s.returned r).out = s.out := rfl
@[simp] theorem State.returned_serIn (r : Result) : (s.returned r).serIn = s.serIn := rfl
@[simp] theorem State.returned_wire (r : Result) : (s.returned r).wire = s.wire := rfl
@[simp] theorem State.returned_port (r : Result) : (s.returned r).port = s.port := rfl
@[simp] theorem State.returned_busy (r : Result) : (s.returned r).busy = s.busy := rfl
@[simp] theorem State.returned_reply (r : Result) : (s.returned r).reply = s.reply := rfl
@[simp] theorem State.returned_result (r : Result) : (s.returned r).result = r := rfl
@[simp] theorem State.returned_invoke (r : Result) : (s.returned r).invoke = s.invoke := rfl
@[simp] theorem State.returned_turns (r : Result) : (s.returned r).turns = s.turns := rfl
@[simp] theorem State.returned_tick (r : Result) : (s.returned r).tick = s.tick := rfl
@[simp] theorem State.returned_epoch (r : Result) : (s.returned r).epoch = s.epoch := rfl

/-! ## `State.requestFlip` -/

@[simp] theorem State.requestFlip_plat : (s.requestFlip).plat = s.plat := rfl
@[simp] theorem State.requestFlip_inited : (s.requestFlip).inited = s.inited := rfl
@[simp] theorem State.requestFlip_timing : (s.requestFlip).timing = s.timing := rfl
@[simp] theorem State.requestFlip_mode : (s.requestFlip).mode = s.mode := rfl
@[simp] theorem State.requestFlip_hShift : (s.requestFlip).hShift = s.hShift := rfl
@[simp] theorem State.requestFlip_vShift : (s.requestFlip).vShift = s.vShift := rfl
@[simp] theorem State.requestFlip_frameW : (s.requestFlip).frameW = s.frameW := rfl
@[simp] theorem State.requestFlip_frameH : (s.requestFlip).frameH = s.frameH := rfl
@[simp] theorem State.requestFlip_fb0 : (s.requestFlip).fb0 = s.fb0 := rfl
@[simp] theorem State.requestFlip_fb1 : (s.requestFlip).fb1 = s.fb1 := rfl
@[simp] theorem State.requestFlip_front : (s.requestFlip).front = s.front := rfl
@[simp] theorem State.requestFlip_flipReq : (s.requestFlip).flipReq = true := rfl
@[simp] theorem State.requestFlip_lb : (s.requestFlip).lb = s.lb := rfl
@[simp] theorem State.requestFlip_vScanline : (s.requestFlip).vScanline = s.vScanline := rfl
@[simp] theorem State.requestFlip_clOn : (s.requestFlip).clOn = s.clOn := rfl
@[simp] theorem State.requestFlip_clOff : (s.requestFlip).clOff = s.clOff := rfl
@[simp] theorem State.requestFlip_hdr : (s.requestFlip).hdr = s.hdr := rfl
@[simp] theorem State.requestFlip_pal : (s.requestFlip).pal = s.pal := rfl
@[simp] theorem State.requestFlip_fc : (s.requestFlip).fc = s.fc := rfl
@[simp] theorem State.requestFlip_ch : (s.requestFlip).ch = s.ch := rfl
@[simp] theorem State.requestFlip_marker : (s.requestFlip).marker = s.marker := rfl
@[simp] theorem State.requestFlip_desc : (s.requestFlip).desc = s.desc := rfl
@[simp] theorem State.requestFlip_armed : (s.requestFlip).armed = s.armed := rfl
@[simp] theorem State.requestFlip_pending : (s.requestFlip).pending = s.pending := rfl
@[simp] theorem State.requestFlip_irqEn : (s.requestFlip).irqEn = s.irqEn := rfl
@[simp] theorem State.requestFlip_activeCh : (s.requestFlip).activeCh = s.activeCh := rfl
@[simp] theorem State.requestFlip_event : (s.requestFlip).event = s.event := rfl
@[simp] theorem State.requestFlip_out : (s.requestFlip).out = s.out := rfl
@[simp] theorem State.requestFlip_serIn : (s.requestFlip).serIn = s.serIn := rfl
@[simp] theorem State.requestFlip_wire : (s.requestFlip).wire = s.wire := rfl
@[simp] theorem State.requestFlip_port : (s.requestFlip).port = s.port := rfl
@[simp] theorem State.requestFlip_busy : (s.requestFlip).busy = s.busy := rfl
@[simp] theorem State.requestFlip_reply : (s.requestFlip).reply = s.reply := rfl
@[simp] theorem State.requestFlip_result : (s.requestFlip).result = s.result := rfl
@[simp] theorem State.requestFlip_invoke : (s.requestFlip).invoke = s.invoke := rfl
@[simp] theorem State.requestFlip_turns : (s.requestFlip).turns = s.turns := rfl
@[simp] theorem State.requestFlip_tick : (s.requestFlip).tick = s.tick := rfl
@[simp] theorem State.requestFlip_epoch : (s.requestFlip).epoch = s.epoch := rfl

/-! ## `State.clearEvent` -/

@[simp] theorem State.clearEvent_plat : (s.clearEvent).plat = s.plat := rfl
@[simp] theorem State.clearEvent_inited : (s.clearEvent).inited = s.inited := rfl
@[simp] theorem State.clearEvent_timing : (s.clearEvent).timing = s.timing := rfl
@[simp] theorem State.clearEvent_mode : (s.clearEvent).mode = s.mode := rfl
@[simp] theorem State.clearEvent_hShift : (s.clearEvent).hShift = s.hShift := rfl
@[simp] theorem State.clearEvent_vShift : (s.clearEvent).vShift = s.vShift := rfl
@[simp] theorem State.clearEvent_frameW : (s.clearEvent).frameW = s.frameW := rfl
@[simp] theorem State.clearEvent_frameH : (s.clearEvent).frameH = s.frameH := rfl
@[simp] theorem State.clearEvent_fb0 : (s.clearEvent).fb0 = s.fb0 := rfl
@[simp] theorem State.clearEvent_fb1 : (s.clearEvent).fb1 = s.fb1 := rfl
@[simp] theorem State.clearEvent_front : (s.clearEvent).front = s.front := rfl
@[simp] theorem State.clearEvent_flipReq : (s.clearEvent).flipReq = s.flipReq := rfl
@[simp] theorem State.clearEvent_lb : (s.clearEvent).lb = s.lb := rfl
@[simp] theorem State.clearEvent_vScanline : (s.clearEvent).vScanline = s.vScanline := rfl
@[simp] theorem State.clearEvent_clOn : (s.clearEvent).clOn = s.clOn := rfl
@[simp] theorem State.clearEvent_clOff : (s.clearEvent).clOff = s.clOff := rfl
@[simp] theorem State.clearEvent_hdr : (s.clearEvent).hdr = s.hdr := rfl
@[simp] theorem State.clearEvent_pal : (s.clearEvent).pal = s.pal := rfl
@[simp] theorem State.clearEvent_fc : (s.clearEvent).fc = s.fc := rfl
@[simp] theorem State.clearEvent_ch : (s.clearEvent).ch = s.ch := rfl
@[simp] theorem State.clearEvent_marker : (s.clearEvent).marker = s.marker := rfl
@[simp] theorem State.clearEvent_desc : (s.clearEvent).desc = s.desc := rfl
@[simp] theorem State.clearEvent_armed : (s.clearEvent).armed = s.armed := rfl
@[simp] theorem State.clearEvent_pending : (s.clearEvent).pending = s.pending := rfl
@[simp] theorem State.clearEvent_irqEn : (s.clearEvent).irqEn = s.irqEn := rfl
@[simp] theorem State.clearEvent_activeCh : (s.clearEvent).activeCh = s.activeCh := rfl
@[simp] theorem State.clearEvent_event : (s.clearEvent).event = false := rfl
@[simp] theorem State.clearEvent_out : (s.clearEvent).out = s.out := rfl
@[simp] theorem State.clearEvent_serIn : (s.clearEvent).serIn = s.serIn := rfl
@[simp] theorem State.clearEvent_wire : (s.clearEvent).wire = s.wire := rfl
@[simp] theorem State.clearEvent_port : (s.clearEvent).port = s.port := rfl
@[simp] theorem State.clearEvent_busy : (s.clearEvent).busy = s.busy := rfl
@[simp] theorem State.clearEvent_reply : (s.clearEvent).reply = s.reply := rfl
@[simp] theorem State.clearEvent_result : (s.clearEvent).result = s.result := rfl
@[simp] theorem State.clearEvent_invoke : (s.clearEvent).invoke = s.invoke := rfl
@[simp] theorem State.clearEvent_turns : (s.clearEvent).turns = s.turns := rfl
@[simp] theorem State.clearEvent_tick : (s.clearEvent).tick = s.tick := rfl
@[simp] theorem State.clearEvent_epoch : (s.clearEvent).epoch = s.epoch := rfl

/-! ## `State.wrap` -/

@[simp] theorem State.wrap_plat : (s.wrap).plat = s.plat := rfl
@[simp] theorem State.wrap_inited : (s.wrap).inited = s.inited := rfl
@[simp] theorem State.wrap_timing : (s.wrap).timing = s.timing := rfl
@[simp] theorem State.wrap_mode : (s.wrap).mode = s.mode := rfl
@[simp] theorem State.wrap_hShift : (s.wrap).hShift = s.hShift := rfl
@[simp] theorem State.wrap_vShift : (s.wrap).vShift = s.vShift := rfl
@[simp] theorem State.wrap_frameW : (s.wrap).frameW = s.frameW := rfl
@[simp] theorem State.wrap_frameH : (s.wrap).frameH = s.frameH := rfl
@[simp] theorem State.wrap_fb0 : (s.wrap).fb0 = s.fb0 := rfl
@[simp] theorem State.wrap_fb1 : (s.wrap).fb1 = s.fb1 := rfl
@[simp] theorem State.wrap_front : (s.wrap).front = if s.flipReq then !s.front else s.front := rfl
@[simp] theorem State.wrap_flipReq : (s.wrap).flipReq = false := rfl
@[simp] theorem State.wrap_lb : (s.wrap).lb = s.lb := rfl
@[simp] theorem State.wrap_vScanline : (s.wrap).vScanline = 0 := rfl
@[simp] theorem State.wrap_clOn : (s.wrap).clOn = s.clOn := rfl
@[simp] theorem State.wrap_clOff : (s.wrap).clOff = s.clOff := rfl
@[simp] theorem State.wrap_hdr : (s.wrap).hdr = s.hdr := rfl
@[simp] theorem State.wrap_pal : (s.wrap).pal = s.pal := rfl
@[simp] theorem State.wrap_fc : (s.wrap).fc = s.fc := rfl
@[simp] theorem State.wrap_ch : (s.wrap).ch = s.ch := rfl
@[simp] theorem State.wrap_marker : (s.wrap).marker = none := rfl
@[simp] theorem State.wrap_desc : (s.wrap).desc = s.desc := rfl
@[simp] theorem State.wrap_armed : (s.wrap).armed = s.armed := rfl
@[simp] theorem State.wrap_pending : (s.wrap).pending = s.pending := rfl
@[simp] theorem State.wrap_irqEn : (s.wrap).irqEn = s.irqEn := rfl
@[simp] theorem State.wrap_activeCh : (s.wrap).activeCh = s.activeCh := rfl
@[simp] theorem State.wrap_event : (s.wrap).event = true := rfl
@[simp] theorem State.wrap_out : (s.wrap).out = s.out := rfl
@[simp] theorem State.wrap_serIn : (s.wrap).serIn = s.serIn := rfl
@[simp] theorem State.wrap_wire : (s.wrap).wire = s.wire := rfl
@[simp] theorem State.wrap_port : (s.wrap).port = s.port := rfl
@[simp] theorem State.wrap_busy : (s.wrap).busy = s.busy := rfl
@[simp] theorem State.wrap_reply : (s.wrap).reply = s.reply := rfl
@[simp] theorem State.wrap_result : (s.wrap).result = s.result := rfl
@[simp] theorem State.wrap_invoke : (s.wrap).invoke = s.invoke := rfl
@[simp] theorem State.wrap_turns : (s.wrap).turns = s.turns := rfl
@[simp] theorem State.wrap_tick : (s.wrap).tick = s.tick := rfl
@[simp] theorem State.wrap_epoch : (s.wrap).epoch = s.epoch := rfl

/-! ## `State.vAdvance` -/

@[simp] theorem State.vAdvance_plat : (s.vAdvance).plat = s.plat := by unfold State.vAdvance; split <;> rfl
@[simp] theorem State.vAdvance_inited :
    (s.vAdvance).inited = s.inited := by unfold State.vAdvance; split <;> rfl
@[simp] theorem State.vAdvance_timing :
    (s.vAdvance).timing = s.timing := by unfold State.vAdvance; split <;> rfl
@[simp] theorem State.vAdvance_mode : (s.vAdvance).mode = s.mode := by unfold State.vAdvance; split <;> rfl
@[simp] theorem State.vAdvance_hShift :
    (s.vAdvance).hShift = s.hShift := by unfold State.vAdvance; split <;> rfl
@[simp] theorem State.vAdvance_vShift :
    (s.vAdvance).vShift = s.vShift := by unfold State.vAdvance; split <;> rfl
@[simp] theorem State.vAdvance_frameW :
    (s.vAdvance).frameW = s.frameW := by unfold State.vAdvance; split <;> rfl
@[simp] theorem State.vAdvance_frameH :
    (s.vAdvance).frameH = s.frameH := by unfold State.vAdvance; split <;> rfl
@[simp] theorem State.vAdvance_fb0 : (s.vAdvance).fb0 = s.fb0 := by unfold State.vAdvance; split <;> rfl
@[simp] theorem State.vAdvance_fb1 : (s.vAdvance).fb1 = s.fb1 := by unfold State.vAdvance; split <;> rfl
@[simp] theorem State.vAdvance_lb : (s.vAdvance).lb = s.lb := by unfold State.vAdvance; split <;> rfl
@[simp] theorem State.vAdvance_clOn : (s.vAdvance).clOn = s.clOn := by unfold State.vAdvance; split <;> rfl
@[simp] theorem State.vAdvance_clOff : (s.vAdvance).clOff = s.clOff := by unfold State.vAdvance; split <;> rfl
@[simp] theorem State.vAdvance_hdr : (s.vAdvance).hdr = s.hdr := by unfold State.vAdvance; split <;> rfl
@[simp] theorem State.vAdvance_pal : (s.vAdvance).pal = s.pal := by unfold State.vAdvance; split <;> rfl
@[simp] theorem State.vAdvance_fc : (s.vAdvance).fc = s.fc := by unfold State.vAdvance; split <;> rfl
@[simp] theorem State.vAdvance_ch : (s.vAdvance).ch = s.ch := by unfold State.vAdvance; split <;> rfl
@[simp] theorem State.vAdvance_desc : (s.vAdvance).desc = s.desc := by unfold State.vAdvance; split <;> rfl
@[simp] theorem State.vAdvance_armed : (s.vAdvance).armed = s.armed := by unfold State.vAdvance; split <;> rfl
@[simp] theorem State.vAdvance_pending :
    (s.vAdvance).pending = s.pending := by unfold State.vAdvance; split <;> rfl
@[simp] theorem State.vAdvance_irqEn : (s.vAdvance).irqEn = s.irqEn := by unfold State.vAdvance; split <;> rfl
@[simp] theorem State.vAdvance_activeCh :
    (s.vAdvance).activeCh = s.activeCh := by unfold State.vAdvance; split <;> rfl
@[simp] theorem State.vAdvance_out : (s.vAdvance).out = s.out := by unfold State.vAdvance; split <;> rfl
@[simp] theorem State.vAdvance_serIn : (s.vAdvance).serIn = s.serIn := by unfold State.vAdvance; split <;> rfl
@[simp] theorem State.vAdvance_wire : (s.vAdvance).wire = s.wire := by unfold State.vAdvance; split <;> rfl
@[simp] theorem State.vAdvance_port : (s.vAdvance).port = s.port := by unfold State.vAdvance; split <;> rfl
@[simp] theorem State.vAdvance_busy : (s.vAdvance).busy = s.busy := by unfold State.vAdvance; split <;> rfl
@[simp] theorem State.vAdvance_reply : (s.vAdvance).reply = s.reply := by unfold State.vAdvance; split <;> rfl
@[simp] theorem State.vAdvance_result :
    (s.vAdvance).result = s.result := by unfold State.vAdvance; split <;> rfl
@[simp] theorem State.vAdvance_invoke :
    (s.vAdvance).invoke = s.invoke := by unfold State.vAdvance; split <;> rfl
@[simp] theorem State.vAdvance_turns : (s.vAdvance).turns = s.turns := by unfold State.vAdvance; split <;> rfl
@[simp] theorem State.vAdvance_tick : (s.vAdvance).tick = s.tick := by unfold State.vAdvance; split <;> rfl
@[simp] theorem State.vAdvance_epoch : (s.vAdvance).epoch = s.epoch := by unfold State.vAdvance; split <;> rfl

/-! ## `State.arm` -/

@[simp] theorem State.arm_plat (c : Channel) : (s.arm c).plat = s.plat := rfl
@[simp] theorem State.arm_inited (c : Channel) : (s.arm c).inited = s.inited := rfl
@[simp] theorem State.arm_timing (c : Channel) : (s.arm c).timing = s.timing := rfl
@[simp] theorem State.arm_mode (c : Channel) : (s.arm c).mode = s.mode := rfl
@[simp] theorem State.arm_hShift (c : Channel) : (s.arm c).hShift = s.hShift := rfl
@[simp] theorem State.arm_vShift (c : Channel) : (s.arm c).vShift = s.vShift := rfl
@[simp] theorem State.arm_frameW (c : Channel) : (s.arm c).frameW = s.frameW := rfl
@[simp] theorem State.arm_frameH (c : Channel) : (s.arm c).frameH = s.frameH := rfl
@[simp] theorem State.arm_fb0 (c : Channel) : (s.arm c).fb0 = s.fb0 := rfl
@[simp] theorem State.arm_fb1 (c : Channel) : (s.arm c).fb1 = s.fb1 := rfl
@[simp] theorem State.arm_front (c : Channel) : (s.arm c).front = s.front := rfl
@[simp] theorem State.arm_flipReq (c : Channel) : (s.arm c).flipReq = s.flipReq := rfl
@[simp] theorem State.arm_lb (c : Channel) : (s.arm c).lb = s.lb := rfl
@[simp] theorem State.arm_vScanline (c : Channel) : (s.arm c).vScanline = s.vScanline := rfl
@[simp] theorem State.arm_clOn (c : Channel) : (s.arm c).clOn = s.clOn := rfl
@[simp] theorem State.arm_clOff (c : Channel) : (s.arm c).clOff = s.clOff := rfl
@[simp] theorem State.arm_hdr (c : Channel) : (s.arm c).hdr = s.hdr := rfl
@[simp] theorem State.arm_pal (c : Channel) : (s.arm c).pal = s.pal := rfl
@[simp] theorem State.arm_fc (c : Channel) : (s.arm c).fc = s.fc := rfl
@[simp] theorem State.arm_ch (c : Channel) : (s.arm c).ch = s.ch := rfl
@[simp] theorem State.arm_marker (c : Channel) : (s.arm c).marker = s.marker := rfl
@[simp] theorem State.arm_desc (c : Channel) : (s.arm c).desc = s.desc := rfl
@[simp] theorem State.arm_armed (c : Channel) : (s.arm c).armed = s.armed.set c true := rfl
@[simp] theorem State.arm_pending (c : Channel) : (s.arm c).pending = s.pending := rfl
@[simp] theorem State.arm_irqEn (c : Channel) : (s.arm c).irqEn = s.irqEn := rfl
@[simp] theorem State.arm_activeCh (c : Channel) : (s.arm c).activeCh = s.activeCh := rfl
@[simp] theorem State.arm_event (c : Channel) : (s.arm c).event = s.event := rfl
@[simp] theorem State.arm_out (c : Channel) : (s.arm c).out = s.out := rfl
@[simp] theorem State.arm_serIn (c : Channel) : (s.arm c).serIn = s.serIn := rfl
@[simp] theorem State.arm_wire (c : Channel) : (s.arm c).wire = s.wire := rfl
@[simp] theorem State.arm_port (c : Channel) : (s.arm c).port = s.port := rfl
@[simp] theorem State.arm_busy (c : Channel) : (s.arm c).busy = s.busy := rfl
@[simp] theorem State.arm_reply (c : Channel) : (s.arm c).reply = s.reply := rfl
@[simp] theorem State.arm_result (c : Channel) : (s.arm c).result = s.result := rfl
@[simp] theorem State.arm_invoke (c : Channel) : (s.arm c).invoke = s.invoke := rfl
@[simp] theorem State.arm_turns (c : Channel) : (s.arm c).turns = s.turns := rfl
@[simp] theorem State.arm_tick (c : Channel) : (s.arm c).tick = s.tick := rfl
@[simp] theorem State.arm_epoch (c : Channel) : (s.arm c).epoch = s.epoch := rfl

/-! ## `State.complete` -/

@[simp] theorem State.complete_plat (k : Channel) : (s.complete k).plat = s.plat := rfl
@[simp] theorem State.complete_inited (k : Channel) : (s.complete k).inited = s.inited := rfl
@[simp] theorem State.complete_timing (k : Channel) : (s.complete k).timing = s.timing := rfl
@[simp] theorem State.complete_mode (k : Channel) : (s.complete k).mode = s.mode := rfl
@[simp] theorem State.complete_hShift (k : Channel) : (s.complete k).hShift = s.hShift := rfl
@[simp] theorem State.complete_vShift (k : Channel) : (s.complete k).vShift = s.vShift := rfl
@[simp] theorem State.complete_frameW (k : Channel) : (s.complete k).frameW = s.frameW := rfl
@[simp] theorem State.complete_frameH (k : Channel) : (s.complete k).frameH = s.frameH := rfl
@[simp] theorem State.complete_fb0 (k : Channel) : (s.complete k).fb0 = s.fb0 := rfl
@[simp] theorem State.complete_fb1 (k : Channel) : (s.complete k).fb1 = s.fb1 := rfl
@[simp] theorem State.complete_front (k : Channel) : (s.complete k).front = s.front := rfl
@[simp] theorem State.complete_flipReq (k : Channel) : (s.complete k).flipReq = s.flipReq := rfl
@[simp] theorem State.complete_lb (k : Channel) : (s.complete k).lb = s.lb := rfl
@[simp] theorem State.complete_vScanline (k : Channel) : (s.complete k).vScanline = s.vScanline := rfl
@[simp] theorem State.complete_clOn (k : Channel) : (s.complete k).clOn = s.clOn := rfl
@[simp] theorem State.complete_clOff (k : Channel) : (s.complete k).clOff = s.clOff := rfl
@[simp] theorem State.complete_hdr (k : Channel) : (s.complete k).hdr = s.hdr := rfl
@[simp] theorem State.complete_pal (k : Channel) : (s.complete k).pal = s.pal := rfl
@[simp] theorem State.complete_fc (k : Channel) : (s.complete k).fc = s.fc := rfl
@[simp] theorem State.complete_ch (k : Channel) : (s.complete k).ch = s.ch := rfl
@[simp] theorem State.complete_marker (k : Channel) : (s.complete k).marker = s.marker := rfl
@[simp] theorem State.complete_desc (k : Channel) : (s.complete k).desc = s.desc := rfl
@[simp] theorem State.complete_armed (k : Channel) : (s.complete k).armed = s.armed.set k false := rfl
@[simp] theorem State.complete_pending (k : Channel) : (s.complete k).pending = s.pending.set k true := rfl
@[simp] theorem State.complete_irqEn (k : Channel) : (s.complete k).irqEn = s.irqEn := rfl
@[simp] theorem State.complete_activeCh (k : Channel) : (s.complete k).activeCh = chain k := rfl
@[simp] theorem State.complete_event (k : Channel) : (s.complete k).event = s.event := rfl
@[simp] theorem State.complete_out (k : Channel) : (s.complete k).out = s.out := rfl
@[simp] theorem State.complete_serIn (k : Channel) : (s.complete k).serIn = s.serIn := rfl
@[simp] theorem State.complete_wire (k : Channel) : (s.complete k).wire = s.wire := rfl
@[simp] theorem State.complete_port (k : Channel) : (s.complete k).port = s.port := rfl
@[simp] theorem State.complete_busy (k : Channel) : (s.complete k).busy = s.busy := rfl
@[simp] theorem State.complete_reply (k : Channel) : (s.complete k).reply = s.reply := rfl
@[simp] theorem State.complete_result (k : Channel) : (s.complete k).result = s.result := rfl
@[simp] theorem State.complete_invoke (k : Channel) : (s.complete k).invoke = s.invoke := rfl
@[simp] theorem State.complete_turns (k : Channel) : (s.complete k).turns = s.turns := rfl
@[simp] theorem State.complete_tick (k : Channel) : (s.complete k).tick = s.tick := rfl
@[simp] theorem State.complete_epoch (k : Channel) : (s.complete k).epoch = s.epoch := rfl

/-! ## `State.emit` -/

@[simp] theorem State.emit_plat (line : List Word) : (s.emit line).plat = s.plat := rfl
@[simp] theorem State.emit_inited (line : List Word) : (s.emit line).inited = s.inited := rfl
@[simp] theorem State.emit_timing (line : List Word) : (s.emit line).timing = s.timing := rfl
@[simp] theorem State.emit_mode (line : List Word) : (s.emit line).mode = s.mode := rfl
@[simp] theorem State.emit_hShift (line : List Word) : (s.emit line).hShift = s.hShift := rfl
@[simp] theorem State.emit_vShift (line : List Word) : (s.emit line).vShift = s.vShift := rfl
@[simp] theorem State.emit_frameW (line : List Word) : (s.emit line).frameW = s.frameW := rfl
@[simp] theorem State.emit_frameH (line : List Word) : (s.emit line).frameH = s.frameH := rfl
@[simp] theorem State.emit_fb0 (line : List Word) : (s.emit line).fb0 = s.fb0 := rfl
@[simp] theorem State.emit_fb1 (line : List Word) : (s.emit line).fb1 = s.fb1 := rfl
@[simp] theorem State.emit_front (line : List Word) : (s.emit line).front = s.front := rfl
@[simp] theorem State.emit_flipReq (line : List Word) : (s.emit line).flipReq = s.flipReq := rfl
@[simp] theorem State.emit_lb (line : List Word) : (s.emit line).lb = s.lb := rfl
@[simp] theorem State.emit_vScanline (line : List Word) : (s.emit line).vScanline = s.vScanline := rfl
@[simp] theorem State.emit_clOn (line : List Word) : (s.emit line).clOn = s.clOn := rfl
@[simp] theorem State.emit_clOff (line : List Word) : (s.emit line).clOff = s.clOff := rfl
@[simp] theorem State.emit_hdr (line : List Word) : (s.emit line).hdr = s.hdr := rfl
@[simp] theorem State.emit_pal (line : List Word) : (s.emit line).pal = s.pal := rfl
@[simp] theorem State.emit_fc (line : List Word) : (s.emit line).fc = s.fc := rfl
@[simp] theorem State.emit_ch (line : List Word) : (s.emit line).ch = s.ch := rfl
@[simp] theorem State.emit_marker (line : List Word) : (s.emit line).marker = s.marker := rfl
@[simp] theorem State.emit_desc (line : List Word) : (s.emit line).desc = s.desc := rfl
@[simp] theorem State.emit_armed (line : List Word) : (s.emit line).armed = s.armed := rfl
@[simp] theorem State.emit_pending (line : List Word) : (s.emit line).pending = s.pending := rfl
@[simp] theorem State.emit_irqEn (line : List Word) : (s.emit line).irqEn = s.irqEn := rfl
@[simp] theorem State.emit_activeCh (line : List Word) : (s.emit line).activeCh = s.activeCh := rfl
@[simp] theorem State.emit_event (line : List Word) : (s.emit line).event = s.event := rfl
@[simp] theorem State.emit_out (line : List Word) : (s.emit line).out = s.out ++ [line] := rfl
@[simp] theorem State.emit_serIn (line : List Word) : (s.emit line).serIn = s.serIn ++ [line] := rfl
@[simp] theorem State.emit_wire (line : List Word) : (s.emit line).wire = s.wire := rfl
@[simp] theorem State.emit_port (line : List Word) : (s.emit line).port = s.port := rfl
@[simp] theorem State.emit_busy (line : List Word) : (s.emit line).busy = s.busy := rfl
@[simp] theorem State.emit_reply (line : List Word) : (s.emit line).reply = s.reply := rfl
@[simp] theorem State.emit_result (line : List Word) : (s.emit line).result = s.result := rfl
@[simp] theorem State.emit_invoke (line : List Word) : (s.emit line).invoke = s.invoke := rfl
@[simp] theorem State.emit_turns (line : List Word) : (s.emit line).turns = s.turns := rfl
@[simp] theorem State.emit_tick (line : List Word) : (s.emit line).tick = s.tick := rfl
@[simp] theorem State.emit_epoch (line : List Word) : (s.emit line).epoch = s.epoch := rfl

/-! ## `handlerEntry` -/

@[simp] theorem handlerEntry_plat : (handlerEntry s).plat = s.plat := rfl
@[simp] theorem handlerEntry_inited : (handlerEntry s).inited = s.inited := rfl
@[simp] theorem handlerEntry_timing : (handlerEntry s).timing = s.timing := rfl
@[simp] theorem handlerEntry_mode : (handlerEntry s).mode = s.mode := rfl
@[simp] theorem handlerEntry_hShift : (handlerEntry s).hShift = s.hShift := rfl
@[simp] theorem handlerEntry_vShift : (handlerEntry s).vShift = s.vShift := rfl
@[simp] theorem handlerEntry_frameW : (handlerEntry s).frameW = s.frameW := rfl
@[simp] theorem handlerEntry_frameH : (handlerEntry s).frameH = s.frameH := rfl
@[simp] theorem handlerEntry_fb0 : (handlerEntry s).fb0 = s.fb0 := rfl
@[simp] theorem handlerEntry_fb1 : (handlerEntry s).fb1 = s.fb1 := rfl
@[simp] theorem handlerEntry_front : (handlerEntry s).front = s.front := rfl
@[simp] theorem handlerEntry_flipReq : (handlerEntry s).flipReq = s.flipReq := rfl
@[simp] theorem handlerEntry_lb : (handlerEntry s).lb = s.lb := rfl
@[simp] theorem handlerEntry_vScanline : (handlerEntry s).vScanline = s.vScanline := rfl
@[simp] theorem handlerEntry_clOn : (handlerEntry s).clOn = s.clOn := rfl
@[simp] theorem handlerEntry_clOff : (handlerEntry s).clOff = s.clOff := rfl
@[simp] theorem handlerEntry_hdr : (handlerEntry s).hdr = s.hdr := rfl
@[simp] theorem handlerEntry_pal : (handlerEntry s).pal = s.pal := rfl
@[simp] theorem handlerEntry_fc : (handlerEntry s).fc = s.fc := rfl
@[simp] theorem handlerEntry_ch : (handlerEntry s).ch = chain s.ch := rfl
@[simp] theorem handlerEntry_marker : (handlerEntry s).marker = s.marker := rfl
@[simp] theorem handlerEntry_desc : (handlerEntry s).desc = s.desc := rfl
@[simp] theorem handlerEntry_armed : (handlerEntry s).armed = s.armed := rfl
@[simp] theorem handlerEntry_pending : (handlerEntry s).pending = s.pending.set s.ch false := rfl
@[simp] theorem handlerEntry_irqEn : (handlerEntry s).irqEn = s.irqEn := rfl
@[simp] theorem handlerEntry_activeCh : (handlerEntry s).activeCh = s.activeCh := rfl
@[simp] theorem handlerEntry_event : (handlerEntry s).event = s.event := rfl
@[simp] theorem handlerEntry_out : (handlerEntry s).out = s.out := rfl
@[simp] theorem handlerEntry_serIn : (handlerEntry s).serIn = s.serIn := rfl
@[simp] theorem handlerEntry_wire : (handlerEntry s).wire = s.wire := rfl
@[simp] theorem handlerEntry_port : (handlerEntry s).port = s.port := rfl
@[simp] theorem handlerEntry_busy : (handlerEntry s).busy = s.busy := rfl
@[simp] theorem handlerEntry_reply : (handlerEntry s).reply = s.reply := rfl
@[simp] theorem handlerEntry_result : (handlerEntry s).result = s.result := rfl
@[simp] theorem handlerEntry_invoke : (handlerEntry s).invoke = s.invoke := rfl
@[simp] theorem handlerEntry_turns : (handlerEntry s).turns = s.turns := rfl
@[simp] theorem handlerEntry_tick : (handlerEntry s).tick = s.tick := rfl
@[simp] theorem handlerEntry_epoch : (handlerEntry s).epoch = s.epoch := rfl

/-! ## `State.leaveOp` -/

@[simp] theorem State.leaveOp_plat : (s.leaveOp).plat = s.plat := rfl
@[simp] theorem State.leaveOp_inited : (s.leaveOp).inited = s.inited := rfl
@[simp] theorem State.leaveOp_timing : (s.leaveOp).timing = s.timing := rfl
@[simp] theorem State.leaveOp_mode : (s.leaveOp).mode = s.mode := rfl
@[simp] theorem State.leaveOp_hShift : (s.leaveOp).hShift = s.hShift := rfl
@[simp] theorem State.leaveOp_vShift : (s.leaveOp).vShift = s.vShift := rfl
@[simp] theorem State.leaveOp_frameW : (s.leaveOp).frameW = s.frameW := rfl
@[simp] theorem State.leaveOp_frameH : (s.leaveOp).frameH = s.frameH := rfl
@[simp] theorem State.leaveOp_fb0 : (s.leaveOp).fb0 = s.fb0 := rfl
@[simp] theorem State.leaveOp_fb1 : (s.leaveOp).fb1 = s.fb1 := rfl
@[simp] theorem State.leaveOp_front : (s.leaveOp).front = s.front := rfl
@[simp] theorem State.leaveOp_flipReq : (s.leaveOp).flipReq = s.flipReq := rfl
@[simp] theorem State.leaveOp_lb : (s.leaveOp).lb = s.lb := rfl
@[simp] theorem State.leaveOp_vScanline : (s.leaveOp).vScanline = s.vScanline := rfl
@[simp] theorem State.leaveOp_clOn : (s.leaveOp).clOn = s.clOn := rfl
@[simp] theorem State.leaveOp_clOff : (s.leaveOp).clOff = s.clOff := rfl
@[simp] theorem State.leaveOp_hdr : (s.leaveOp).hdr = s.hdr := rfl
@[simp] theorem State.leaveOp_pal : (s.leaveOp).pal = s.pal := rfl
@[simp] theorem State.leaveOp_fc : (s.leaveOp).fc = s.fc := rfl
@[simp] theorem State.leaveOp_ch : (s.leaveOp).ch = s.ch := rfl
@[simp] theorem State.leaveOp_marker : (s.leaveOp).marker = s.marker := rfl
@[simp] theorem State.leaveOp_desc : (s.leaveOp).desc = s.desc := rfl
@[simp] theorem State.leaveOp_armed : (s.leaveOp).armed = s.armed := rfl
@[simp] theorem State.leaveOp_pending : (s.leaveOp).pending = s.pending := rfl
@[simp] theorem State.leaveOp_irqEn : (s.leaveOp).irqEn = s.irqEn := rfl
@[simp] theorem State.leaveOp_activeCh : (s.leaveOp).activeCh = s.activeCh := rfl
@[simp] theorem State.leaveOp_event : (s.leaveOp).event = s.event := rfl
@[simp] theorem State.leaveOp_out : (s.leaveOp).out = s.out := rfl
@[simp] theorem State.leaveOp_serIn : (s.leaveOp).serIn = s.serIn := rfl
@[simp] theorem State.leaveOp_wire : (s.leaveOp).wire = s.wire := rfl
@[simp] theorem State.leaveOp_port : (s.leaveOp).port = s.port := rfl
@[simp] theorem State.leaveOp_busy : (s.leaveOp).busy = none := rfl
@[simp] theorem State.leaveOp_reply : (s.leaveOp).reply = s.reply := rfl
@[simp] theorem State.leaveOp_result : (s.leaveOp).result = s.result := rfl
@[simp] theorem State.leaveOp_invoke : (s.leaveOp).invoke = s.invoke := rfl
@[simp] theorem State.leaveOp_turns : (s.leaveOp).turns = s.turns := rfl
@[simp] theorem State.leaveOp_tick : (s.leaveOp).tick = s.tick := rfl
@[simp] theorem State.leaveOp_epoch : (s.leaveOp).epoch = s.epoch := rfl

/-! ## `State.enterOp` -/

@[simp] theorem State.enterOp_plat (op : HostOp) : (s.enterOp op).plat = s.plat := rfl
@[simp] theorem State.enterOp_inited (op : HostOp) : (s.enterOp op).inited = s.inited := rfl
@[simp] theorem State.enterOp_timing (op : HostOp) : (s.enterOp op).timing = s.timing := rfl
@[simp] theorem State.enterOp_mode (op : HostOp) : (s.enterOp op).mode = s.mode := rfl
@[simp] theorem State.enterOp_hShift (op : HostOp) : (s.enterOp op).hShift = s.hShift := rfl
@[simp] theorem State.enterOp_vShift (op : HostOp) : (s.enterOp op).vShift = s.vShift := rfl
@[simp] theorem State.enterOp_frameW (op : HostOp) : (s.enterOp op).frameW = s.frameW := rfl
@[simp] theorem State.enterOp_frameH (op : HostOp) : (s.enterOp op).frameH = s.frameH := rfl
@[simp] theorem State.enterOp_fb0 (op : HostOp) : (s.enterOp op).fb0 = s.fb0 := rfl
@[simp] theorem State.enterOp_fb1 (op : HostOp) : (s.enterOp op).fb1 = s.fb1 := rfl
@[simp] theorem State.enterOp_front (op : HostOp) : (s.enterOp op).front = s.front := rfl
@[simp] theorem State.enterOp_flipReq (op : HostOp) : (s.enterOp op).flipReq = s.flipReq := rfl
@[simp] theorem State.enterOp_lb (op : HostOp) : (s.enterOp op).lb = s.lb := rfl
@[simp] theorem State.enterOp_vScanline (op : HostOp) : (s.enterOp op).vScanline = s.vScanline := rfl
@[simp] theorem State.enterOp_clOn (op : HostOp) : (s.enterOp op).clOn = s.clOn := rfl
@[simp] theorem State.enterOp_clOff (op : HostOp) : (s.enterOp op).clOff = s.clOff := rfl
@[simp] theorem State.enterOp_hdr (op : HostOp) : (s.enterOp op).hdr = s.hdr := rfl
@[simp] theorem State.enterOp_pal (op : HostOp) : (s.enterOp op).pal = s.pal := rfl
@[simp] theorem State.enterOp_fc (op : HostOp) : (s.enterOp op).fc = s.fc := rfl
@[simp] theorem State.enterOp_ch (op : HostOp) : (s.enterOp op).ch = s.ch := rfl
@[simp] theorem State.enterOp_marker (op : HostOp) : (s.enterOp op).marker = s.marker := rfl
@[simp] theorem State.enterOp_desc (op : HostOp) : (s.enterOp op).desc = s.desc := rfl
@[simp] theorem State.enterOp_armed (op : HostOp) : (s.enterOp op).armed = s.armed := rfl
@[simp] theorem State.enterOp_pending (op : HostOp) : (s.enterOp op).pending = s.pending := rfl
@[simp] theorem State.enterOp_irqEn (op : HostOp) : (s.enterOp op).irqEn = s.irqEn := rfl
@[simp] theorem State.enterOp_activeCh (op : HostOp) : (s.enterOp op).activeCh = s.activeCh := rfl
@[simp] theorem State.enterOp_event (op : HostOp) : (s.enterOp op).event = s.event := rfl
@[simp] theorem State.enterOp_out (op : HostOp) : (s.enterOp op).out = s.out := rfl
@[simp] theorem State.enterOp_serIn (op : HostOp) : (s.enterOp op).serIn = s.serIn := rfl
@[simp] theorem State.enterOp_wire (op : HostOp) : (s.enterOp op).wire = s.wire := rfl
@[simp] theorem State.enterOp_port (op : HostOp) : (s.enterOp op).port = s.port := rfl
@[simp] theorem State.enterOp_busy (op : HostOp) : (s.enterOp op).busy = some op := rfl
@[simp] theorem State.enterOp_reply (op : HostOp) : (s.enterOp op).reply = s.reply := rfl
@[simp] theorem State.enterOp_result (op : HostOp) : (s.enterOp op).result = s.result := rfl
@[simp] theorem State.enterOp_invoke (op : HostOp) : (s.enterOp op).invoke = s.invoke := rfl
@[simp] theorem State.enterOp_turns (op : HostOp) : (s.enterOp op).turns = s.turns := rfl
@[simp] theorem State.enterOp_tick (op : HostOp) : (s.enterOp op).tick = s.tick := rfl
@[simp] theorem State.enterOp_epoch (op : HostOp) : (s.enterOp op).epoch = s.epoch := rfl

/-! ## `State.goOn` -/

@[simp] theorem State.goOn_plat (r : Bool) (op : HostOp) : (s.goOn r op).plat = s.plat := by cases r <;> rfl
@[simp] theorem State.goOn_inited (r : Bool) (op : HostOp) :
    (s.goOn r op).inited = s.inited := by cases r <;> rfl
@[simp] theorem State.goOn_timing (r : Bool) (op : HostOp) :
    (s.goOn r op).timing = s.timing := by cases r <;> rfl
@[simp] theorem State.goOn_mode (r : Bool) (op : HostOp) : (s.goOn r op).mode = s.mode := by cases r <;> rfl
@[simp] theorem State.goOn_hShift (r : Bool) (op : HostOp) :
    (s.goOn r op).hShift = s.hShift := by cases r <;> rfl
@[simp] theorem State.goOn_vShift (r : Bool) (op : HostOp) :
    (s.goOn r op).vShift = s.vShift := by cases r <;> rfl
@[simp] theorem State.goOn_frameW (r : Bool) (op : HostOp) :
    (s.goOn r op).frameW = s.frameW := by cases r <;> rfl
@[simp] theorem State.goOn_frameH (r : Bool) (op : HostOp) :
    (s.goOn r op).frameH = s.frameH := by cases r <;> rfl
@[simp] theorem State.goOn_fb0 (r : Bool) (op : HostOp) : (s.goOn r op).fb0 = s.fb0 := by cases r <;> rfl
@[simp] theorem State.goOn_fb1 (r : Bool) (op : HostOp) : (s.goOn r op).fb1 = s.fb1 := by cases r <;> rfl
@[simp] theorem State.goOn_front (r : Bool) (op : HostOp) :
    (s.goOn r op).front = s.front := by cases r <;> rfl
@[simp] theorem State.goOn_flipReq (r : Bool) (op : HostOp) :
    (s.goOn r op).flipReq = s.flipReq := by cases r <;> rfl
@[simp] theorem State.goOn_lb (r : Bool) (op : HostOp) : (s.goOn r op).lb = s.lb := by cases r <;> rfl
@[simp] theorem State.goOn_vScanline (r : Bool) (op : HostOp) :
    (s.goOn r op).vScanline = s.vScanline := by cases r <;> rfl
@[simp] theorem State.goOn_clOn (r : Bool) (op : HostOp) : (s.goOn r op).clOn = s.clOn := by cases r <;> rfl
@[simp] theorem State.goOn_clOff (r : Bool) (op : HostOp) :
    (s.goOn r op).clOff = s.clOff := by cases r <;> rfl
@[simp] theorem State.goOn_hdr (r : Bool) (op : HostOp) : (s.goOn r op).hdr = s.hdr := by cases r <;> rfl
@[simp] theorem State.goOn_pal (r : Bool) (op : HostOp) : (s.goOn r op).pal = s.pal := by cases r <;> rfl
@[simp] theorem State.goOn_fc (r : Bool) (op : HostOp) : (s.goOn r op).fc = s.fc := by cases r <;> rfl
@[simp] theorem State.goOn_ch (r : Bool) (op : HostOp) : (s.goOn r op).ch = s.ch := by cases r <;> rfl
@[simp] theorem State.goOn_marker (r : Bool) (op : HostOp) :
    (s.goOn r op).marker = s.marker := by cases r <;> rfl
@[simp] theorem State.goOn_desc (r : Bool) (op : HostOp) : (s.goOn r op).desc = s.desc := by cases r <;> rfl
@[simp] theorem State.goOn_armed (r : Bool) (op : HostOp) :
    (s.goOn r op).armed = s.armed := by cases r <;> rfl
@[simp] theorem State.goOn_pending (r : Bool) (op : HostOp) :
    (s.goOn r op).pending = s.pending := by cases r <;> rfl
@[simp] theorem State.goOn_irqEn (r : Bool) (op : HostOp) :
    (s.goOn r op).irqEn = s.irqEn := by cases r <;> rfl
@[simp] theorem State.goOn_activeCh (r : Bool) (op : HostOp) :
    (s.goOn r op).activeCh = s.activeCh := by cases r <;> rfl
@[simp] theorem State.goOn_event (r : Bool) (op : HostOp) :
    (s.goOn r op).event = s.event := by cases r <;> rfl
@[simp] theorem State.goOn_out (r : Bool) (op : HostOp) : (s.goOn r op).out = s.out := by cases r <;> rfl
@[simp] theorem State.goOn_serIn (r : Bool) (op : HostOp) :
    (s.goOn r op).serIn = s.serIn := by cases r <;> rfl
@[simp] theorem State.goOn_wire (r : Bool) (op : HostOp) : (s.goOn r op).wire = s.wire := by cases r <;> rfl
@[simp] theorem State.goOn_port (r : Bool) (op : HostOp) : (s.goOn r op).port = s.port := by cases r <;> rfl
@[simp] theorem State.goOn_busy (r : Bool) (op : HostOp) :
    (s.goOn r op).busy = if r then some op else none := by cases r <;> rfl
@[simp] theorem State.goOn_reply (r : Bool) (op : HostOp) :
    (s.goOn r op).reply = s.reply := by cases r <;> rfl
@[simp] theorem State.goOn_result (r : Bool) (op : HostOp) :
    (s.goOn r op).result = s.result := by cases r <;> rfl
@[simp] theorem State.goOn_invoke (r : Bool) (op : HostOp) :
    (s.goOn r op).invoke = s.invoke := by cases r <;> rfl
@[simp] theorem State.goOn_turns (r : Bool) (op : HostOp) :
    (s.goOn r op).turns = s.turns := by cases r <;> rfl
@[simp] theorem State.goOn_tick (r : Bool) (op : HostOp) : (s.goOn r op).tick = s.tick := by cases r <;> rfl
@[simp] theorem State.goOn_epoch (r : Bool) (op : HostOp) :
    (s.goOn r op).epoch = s.epoch := by cases r <;> rfl

/-! ## `State.took` -/

@[simp] theorem State.took_plat : (s.took).plat = s.plat := rfl
@[simp] theorem State.took_inited : (s.took).inited = s.inited := rfl
@[simp] theorem State.took_timing : (s.took).timing = s.timing := rfl
@[simp] theorem State.took_mode : (s.took).mode = s.mode := rfl
@[simp] theorem State.took_hShift : (s.took).hShift = s.hShift := rfl
@[simp] theorem State.took_vShift : (s.took).vShift = s.vShift := rfl
@[simp] theorem State.took_frameW : (s.took).frameW = s.frameW := rfl
@[simp] theorem State.took_frameH : (s.took).frameH = s.frameH := rfl
@[simp] theorem State.took_fb0 : (s.took).fb0 = s.fb0 := rfl
@[simp] theorem State.took_fb1 : (s.took).fb1 = s.fb1 := rfl
@[simp] theorem State.took_front : (s.took).front = s.front := rfl
@[simp] theorem State.took_flipReq : (s.took).flipReq = s.flipReq := rfl
@[simp] theorem State.took_lb : (s.took).lb = s.lb := rfl
@[simp] theorem State.took_vScanline : (s.took).vScanline = s.vScanline := rfl
@[simp] theorem State.took_clOn : (s.took).clOn = s.clOn := rfl
@[simp] theorem State.took_clOff : (s.took).clOff = s.clOff := rfl
@[simp] theorem State.took_hdr : (s.took).hdr = s.hdr := rfl
@[simp] theorem State.took_pal : (s.took).pal = s.pal := rfl
@[simp] theorem State.took_fc : (s.took).fc = s.fc := rfl
@[simp] theorem State.took_ch : (s.took).ch = s.ch := rfl
@[simp] theorem State.took_marker : (s.took).marker = s.marker := rfl
@[simp] theorem State.took_desc : (s.took).desc = s.desc := rfl
@[simp] theorem State.took_armed : (s.took).armed = s.armed := rfl
@[simp] theorem State.took_pending : (s.took).pending = s.pending := rfl
@[simp] theorem State.took_irqEn : (s.took).irqEn = s.irqEn := rfl
@[simp] theorem State.took_activeCh : (s.took).activeCh = s.activeCh := rfl
@[simp] theorem State.took_event : (s.took).event = s.event := rfl
@[simp] theorem State.took_out : (s.took).out = s.out := rfl
@[simp] theorem State.took_serIn : (s.took).serIn = s.serIn := rfl
@[simp] theorem State.took_wire : (s.took).wire = s.wire := rfl
@[simp] theorem State.took_port : (s.took).port = s.port := rfl
@[simp] theorem State.took_busy : (s.took).busy = s.busy := rfl
@[simp] theorem State.took_reply : (s.took).reply = s.reply := rfl
@[simp] theorem State.took_result : (s.took).result = s.result := rfl
@[simp] theorem State.took_invoke : (s.took).invoke = s.invoke := rfl
@[simp] theorem State.took_turns : (s.took).turns = s.turns.tail := rfl
@[simp] theorem State.took_tick : (s.took).tick = s.tick + 1 := rfl
@[simp] theorem State.took_epoch : (s.took).epoch = s.epoch := rfl

/-! ## What the derived quantities depend on -/

variable {s}
variable {t : State}

theorem State.vInactive_congr (h0 : t.timing = s.timing) :
    t.vInactive = s.vInactive := by
  simp only [State.vInactive, h0]

theorem State.vTotal_congr (h0 : t.timing = s.timing) :
    t.vTotal = s.vTotal := by
  simp only [State.vTotal, h0]

theorem State.hRep_congr (h0 : t.hShift = s.hShift) :
    t.hRep = s.hRep := by
  simp only [State.hRep, h0]

theorem State.vRep_congr (h0 : t.vShift = s.vShift) :
    t.vRep = s.vRep := by
  simp only [State.vRep, h0]

theorem State.units_congr (h0 : t.frameW = s.frameW) (h1 : t.frameH = s.frameH) :
    t.units = s.units := by
  simp only [State.units, h0, h1]

theorem State.fbBytes_congr (h0 : t.frameW = s.frameW) (h1 : t.frameH = s.frameH) (h2 : t.mode = s.mode) :
    t.fbBytes = s.fbBytes := by
  simp only [State.fbBytes, State.units, h0, h1, h2]

theorem State.lineBytes_congr (h0 : t.mode = s.mode) (h1 : t.frameW = s.frameW) (h2 : t.hShift = s.hShift) :
    t.lineBytes = s.lineBytes := by
  simp only [State.lineBytes, State.hRep, h0, h1, h2]

theorem State.lineWords_congr (h0 : t.mode = s.mode) (h1 : t.frameW = s.frameW) (h2 : t.hShift = s.hShift) :
    t.lineWords = s.lineWords := by
  simp only [State.lineWords, State.lineBytes, State.hRep, h0, h1, h2]

theorem State.nPix_congr (h0 : t.mode = s.mode) (h1 : t.frameW = s.frameW) (h2 : t.timing = s.timing) :
    t.nPix = s.nPix := by
  simp only [State.nPix, h0, h1, h2]

theorem State.textFiller_congr (h0 : t.frameW = s.frameW) (h1 : t.timing = s.timing) :
    t.textFiller = s.textFiller := by
  simp only [State.textFiller, h0, h1]

theorem State.hdrLen_congr (h0 : t.mode = s.mode) :
    t.hdrLen = s.hdrLen := by
  simp only [State.hdrLen, h0]

theorem State.lbLen_congr (h0 : t.mode = s.mode) (h1 : t.frameW = s.frameW) (h2 : t.hShift = s.hShift) :
    t.lbLen = s.lbLen := by
  simp only [State.lbLen, State.hdrLen, State.lineWords, State.lineBytes, State.hRep, h0, h1, h2]

theorem State.pool_congr (h0 : t.vShift = s.vShift) :
    t.pool = s.pool := by
  simp only [State.pool, h0]

theorem State.font_congr (h0 : t.plat = s.plat) :
    t.font = s.font := by
  simp only [State.font, h0]

theorem State.linear_congr (h0 : t.frameW = s.frameW) (x y : Half) :
    t.linear x y = s.linear x y := by
  simp only [State.linear, h0]

theorem State.inBounds_congr (h0 : t.frameW = s.frameW) (h1 : t.frameH = s.frameH) (x y : Half) (n : Nat) :
    t.inBounds x y n = s.inBounds x y n := by
  unfold State.inBounds; rw [State.linear_congr h0, State.units_congr h0 h1, h0, h1]

theorem State.rows_congr (h0 : t.mode = s.mode) (h1 : t.frameH = s.frameH) (h2 : t.plat = s.plat) :
    t.rows = s.rows := by
  simp only [State.rows, State.font, h0, h1, h2]

theorem State.fillDomain_congr (h0 : t.vShift = s.vShift) (h1 : t.mode = s.mode) (h2 : t.frameH = s.frameH) (h3 : t.plat = s.plat) (k y : Nat) :
    t.fillDomain k y = s.fillDomain k y := by
  unfold State.fillDomain; rw [State.pool_congr h0, State.rows_congr h1 h2 h3]

theorem State.classOf_congr (h0 : t.timing = s.timing) (v : Nat) :
    t.classOf v = s.classOf v := by
  unfold State.classOf; rw [State.vInactive_congr h0, h0]

theorem State.rowOf_congr (h0 : t.timing = s.timing) (h1 : t.vShift = s.vShift) (v : Nat) :
    t.rowOf v = s.rowOf v := by
  simp only [State.rowOf, State.vInactive, h0, h1]

theorem State.slotOf_congr (h0 : t.vShift = s.vShift) (c : Channel) (y : Nat) :
    t.slotOf c y = s.slotOf c y := by
  simp only [State.slotOf, h0]

theorem State.descFor_congr (h0 : t.timing = s.timing) (h1 : t.vShift = s.vShift) (h2 : t.mode = s.mode) (h3 : t.frameW = s.frameW) (h4 : t.hShift = s.hShift) (c : Channel) (v : Nat) :
    t.descFor c v = s.descFor c v := by
  unfold State.descFor
  rw [State.classOf_congr h0, State.slotOf_congr h1, State.rowOf_congr h0 h1, State.lbLen_congr h2 h3 h4]

theorem State.vlist_congr (h0 : t.timing = s.timing) (h1 : t.plat = s.plat) (v : Bool) :
    t.vlist v = s.vlist v := by
  simp only [State.vlist, h0, h1]

theorem State.header_congr (h0 : t.timing = s.timing) (h1 : t.plat = s.plat) (h2 : t.mode = s.mode) (h3 : t.frameW = s.frameW) :
    t.header = s.header := by
  simp only [State.header, State.hdrTail, State.textFiller, h0, h1, h2, h3]

theorem State.region_congr (h0 : t.clOn = s.clOn) (h1 : t.clOff = s.clOff) (h2 : t.lb = s.lb) (r : Src) :
    t.region r = s.region r := by cases r <;> simp [State.region, h0, h1, h2]

theorem State.fcWord_congr (h0 : t.plat = s.plat) (h1 : t.fc = s.fc) (code : Byte) (r : Nat) :
    t.fcWord code r = s.fcWord code r := by
  simp only [State.fcWord, State.font, h0, h1]

theorem State.monoWord_congr (h0 : t.plat = s.plat) (h1 : t.fb0 = s.fb0) (h2 : t.fb1 = s.fb1) (h3 : t.front = s.front) (h4 : t.epoch = s.epoch) (h5 : t.frameW = s.frameW) (y j : Nat) :
    t.monoWord y j = s.monoWord y j := by
  simp only [State.monoWord, State.font, State.srcByte, State.readFb8, State.fb, h0, h1, h2, h3, h4, h5]

end Sys2Proof.Machine
end

