-- ==== Sys2Proof/Laws/Frames.lean ====
section
/-!
SUPPORT. What the composite operations leave unchanged, field by field, and the fields they set whatever the state.
-/

namespace Sys2Proof.Machine

variable (s : State)

/-- An access changes the two memories, the operation under way, the replies and the wake-up latch only. -/
theorem State.opStep_eq (op : HostOp) : s.opStep op = { s with
    fb0 := (s.opStep op).fb0, fb1 := (s.opStep op).fb1, busy := (s.opStep op).busy
    reply := (s.opStep op).reply, event := (s.opStep op).event } := by
  have wu : ∀ b n v, s.writeUnit b n v = { s with
      fb0 := (s.writeUnit b n v).fb0, fb1 := (s.writeUnit b n v).fb1 } := by
    intro b n v
    unfold State.writeUnit
    split <;> cases b <;> rfl
  cases op with
  | clear b off => simp only [State.opStep]; generalize decide (off + 1 < s.fbBytes) = r; cases r <;> cases b <;> rfl
  | pixel b n v => simp only [State.opStep]; rw [wu b n v]; rfl
  | spanFill b n len v =>
    simp only [State.opStep]; rw [wu b n v]; generalize decide (1 < len) = r; cases r <;> rfl
  | spanCopy b n data =>
    cases data with
    | nil => rfl
    | cons v rest => simp only [State.opStep]; rw [wu b n v]; generalize (!rest.isEmpty) = r; cases r <;> rfl
  | readSpan b n len got => simp only [State.opStep]; split <;> rfl
  | text b n bytes attr attrNext =>
    cases bytes with
    | nil => rfl
    | cons c rest =>
      simp only [State.opStep]
      generalize (!rest.isEmpty) = r
      split
      · cases r <;> cases b <;> rfl
      · split
        · cases b <;> rfl
        · cases r <;> cases b <;> rfl
  | waitFlip asleep =>
    cases asleep
    · simp only [State.opStep, State.checkFlip, Bool.false_eq_true, if_false]; split <;> rfl
    · rfl
  | waitVsync asleep =>
    cases asleep
    · simp only [State.opStep, State.checkVsync, Bool.false_eq_true, if_false]; split <;> rfl
    · rfl

/-! ## `State.fillUnlessMarked` -/

@[simp] theorem State.fillUnlessMarked_plat (k y : Nat) :
    (s.fillUnlessMarked k y).plat = s.plat := by unfold State.fillUnlessMarked; split <;> simp
@[simp] theorem State.fillUnlessMarked_inited (k y : Nat) :
    (s.fillUnlessMarked k y).inited = s.inited := by unfold State.fillUnlessMarked; split <;> simp
@[simp] theorem State.fillUnlessMarked_timing (k y : Nat) :
    (s.fillUnlessMarked k y).timing = s.timing := by unfold State.fillUnlessMarked; split <;> simp
@[simp] theorem State.fillUnlessMarked_mode (k y : Nat) :
    (s.fillUnlessMarked k y).mode = s.mode := by unfold State.fillUnlessMarked; split <;> simp
@[simp] theorem State.fillUnlessMarked_hShift (k y : Nat) :
    (s.fillUnlessMarked k y).hShift = s.hShift := by unfold State.fillUnlessMarked; split <;> simp
@[simp] theorem State.fillUnlessMarked_vShift (k y : Nat) :
    (s.fillUnlessMarked k y).vShift = s.vShift := by unfold State.fillUnlessMarked; split <;> simp
@[simp] theorem State.fillUnlessMarked_frameW (k y : Nat) :
    (s.fillUnlessMarked k y).frameW = s.frameW := by unfold State.fillUnlessMarked; split <;> simp
@[simp] theorem State.fillUnlessMarked_frameH (k y : Nat) :
    (s.fillUnlessMarked k y).frameH = s.frameH := by unfold State.fillUnlessMarked; split <;> simp
@[simp] theorem State.fillUnlessMarked_fb0 (k y : Nat) :
    (s.fillUnlessMarked k y).fb0 = s.fb0 := by unfold State.fillUnlessMarked; split <;> simp
@[simp] theorem State.fillUnlessMarked_fb1 (k y : Nat) :
    (s.fillUnlessMarked k y).fb1 = s.fb1 := by unfold State.fillUnlessMarked; split <;> simp
@[simp] theorem State.fillUnlessMarked_front (k y : Nat) :
    (s.fillUnlessMarked k y).front = s.front := by unfold State.fillUnlessMarked; split <;> simp
@[simp] theorem State.fillUnlessMarked_flipReq (k y : Nat) :
    (s.fillUnlessMarked k y).flipReq = s.flipReq := by unfold State.fillUnlessMarked; split <;> simp
@[simp] theorem State.fillUnlessMarked_vScanline (k y : Nat) :
    (s.fillUnlessMarked k y).vScanline = s.vScanline := by unfold State.fillUnlessMarked; split <;> simp
@[simp] theorem State.fillUnlessMarked_clOn (k y : Nat) :
    (s.fillUnlessMarked k y).clOn = s.clOn := by unfold State.fillUnlessMarked; split <;> simp
@[simp] theorem State.fillUnlessMarked_clOff (k y : Nat) :
    (s.fillUnlessMarked k y).clOff = s.clOff := by unfold State.fillUnlessMarked; split <;> simp
@[simp] theorem State.fillUnlessMarked_hdr (k y : Nat) :
    (s.fillUnlessMarked k y).hdr = s.hdr := by unfold State.fillUnlessMarked; split <;> simp
@[simp] theorem State.fillUnlessMarked_pal (k y : Nat) :
    (s.fillUnlessMarked k y).pal = s.pal := by unfold State.fillUnlessMarked; split <;> simp
@[simp] theorem State.fillUnlessMarked_fc (k y : Nat) :
    (s.fillUnlessMarked k y).fc = s.fc := by unfold State.fillUnlessMarked; split <;> simp
@[simp] theorem State.fillUnlessMarked_ch (k y : Nat) :
    (s.fillUnlessMarked k y).ch = s.ch := by unfold State.fillUnlessMarked; split <;> simp
@[simp] theorem State.fillUnlessMarked_marker (k y : Nat) :
    (s.fillUnlessMarked k y).marker = some k := by unfold State.fillUnlessMarked; split <;> simp [*]
@[simp] theorem State.fillUnlessMarked_desc (k y : Nat) :
    (s.fillUnlessMarked k y).desc = s.desc := by unfold State.fillUnlessMarked; split <;> simp
@[simp] theorem State.fillUnlessMarked_armed (k y : Nat) :
    (s.fillUnlessMarked k y).armed = s.armed := by unfold State.fillUnlessMarked; split <;> simp
@[simp] theorem State.fillUnlessMarked_pending (k y : Nat) :
    (s.fillUnlessMarked k y).pending = s.pending := by unfold State.fillUnlessMarked; split <;> simp
@[simp] theorem State.fillUnlessMarked_irqEn (k y : Nat) :
    (s.fillUnlessMarked k y).irqEn = s.irqEn := by unfold State.fillUnlessMarked; split <;> simp
@[simp] theorem State.fillUnlessMarked_activeCh (k y : Nat) :
    (s.fillUnlessMarked k y).activeCh = s.activeCh := by unfold State.fillUnlessMarked; split <;> simp
@[simp] theorem State.fillUnlessMarked_event (k y : Nat) :
    (s.fillUnlessMarked k y).event = s.event := by unfold State.fillUnlessMarked; split <;> simp
@[simp] theorem State.fillUnlessMarked_out (k y : Nat) :
    (s.fillUnlessMarked k y).out = s.out := by unfold State.fillUnlessMarked; split <;> simp
@[simp] theorem State.fillUnlessMarked_serIn (k y : Nat) :
    (s.fillUnlessMarked k y).serIn = s.serIn := by unfold State.fillUnlessMarked; split <;> simp
@[simp] theorem State.fillUnlessMarked_wire (k y : Nat) :
    (s.fillUnlessMarked k y).wire = s.wire := by unfold State.fillUnlessMarked; split <;> simp
@[simp] theorem State.fillUnlessMarked_port (k y : Nat) :
    (s.fillUnlessMarked k y).port = s.port := by unfold State.fillUnlessMarked; split <;> simp
@[simp] theorem State.fillUnlessMarked_busy (k y : Nat) :
    (s.fillUnlessMarked k y).busy = s.busy := by unfold State.fillUnlessMarked; split <;> simp
@[simp] theorem State.fillUnlessMarked_reply (k y : Nat) :
    (s.fillUnlessMarked k y).reply = s.reply := by unfold State.fillUnlessMarked; split <;> simp
@[simp] theorem State.fillUnlessMarked_result (k y : Nat) :
    (s.fillUnlessMarked k y).result = s.result := by unfold State.fillUnlessMarked; split <;> simp
@[simp] theorem State.fillUnlessMarked_invoke (k y : Nat) :
    (s.fillUnlessMarked k y).invoke = s.invoke := by unfold State.fillUnlessMarked; split <;> simp
@[simp] theorem State.fillUnlessMarked_turns (k y : Nat) :
    (s.fillUnlessMarked k y).turns = s.turns := by unfold State.fillUnlessMarked; split <;> simp
@[simp] theorem State.fillUnlessMarked_tick (k y : Nat) :
    (s.fillUnlessMarked k y).tick = s.tick := by unfold State.fillUnlessMarked; split <;> simp
@[simp] theorem State.fillUnlessMarked_epoch (k y : Nat) :
    (s.fillUnlessMarked k y).epoch = s.epoch := by unfold State.fillUnlessMarked; split <;> simp

/-! ## `State.pointSync` -/

@[simp] theorem State.pointSync_plat (c : Channel) : (s.pointSync c).plat = s.plat := rfl
@[simp] theorem State.pointSync_inited (c : Channel) : (s.pointSync c).inited = s.inited := rfl
@[simp] theorem State.pointSync_timing (c : Channel) : (s.pointSync c).timing = s.timing := rfl
@[simp] theorem State.pointSync_mode (c : Channel) : (s.pointSync c).mode = s.mode := rfl
@[simp] theorem State.pointSync_hShift (c : Channel) : (s.pointSync c).hShift = s.hShift := rfl
@[simp] theorem State.pointSync_vShift (c : Channel) : (s.pointSync c).vShift = s.vShift := rfl
@[simp] theorem State.pointSync_frameW (c : Channel) : (s.pointSync c).frameW = s.frameW := rfl
@[simp] theorem State.pointSync_frameH (c : Channel) : (s.pointSync c).frameH = s.frameH := rfl
@[simp] theorem State.pointSync_fb0 (c : Channel) : (s.pointSync c).fb0 = s.fb0 := rfl
@[simp] theorem State.pointSync_fb1 (c : Channel) : (s.pointSync c).fb1 = s.fb1 := rfl
@[simp] theorem State.pointSync_front (c : Channel) : (s.pointSync c).front = s.front := rfl
@[simp] theorem State.pointSync_flipReq (c : Channel) : (s.pointSync c).flipReq = s.flipReq := rfl
@[simp] theorem State.pointSync_lb (c : Channel) : (s.pointSync c).lb = s.lb := rfl
@[simp] theorem State.pointSync_vScanline (c : Channel) : (s.pointSync c).vScanline = s.vScanline := rfl
@[simp] theorem State.pointSync_clOn (c : Channel) : (s.pointSync c).clOn = s.clOn := rfl
@[simp] theorem State.pointSync_clOff (c : Channel) : (s.pointSync c).clOff = s.clOff := rfl
@[simp] theorem State.pointSync_hdr (c : Channel) : (s.pointSync c).hdr = s.hdr := rfl
@[simp] theorem State.pointSync_pal (c : Channel) : (s.pointSync c).pal = s.pal := rfl
@[simp] theorem State.pointSync_fc (c : Channel) : (s.pointSync c).fc = s.fc := rfl
@[simp] theorem State.pointSync_ch (c : Channel) : (s.pointSync c).ch = s.ch := rfl
@[simp] theorem State.pointSync_marker (c : Channel) : (s.pointSync c).marker = s.marker := rfl
@[simp] theorem State.pointSync_desc (c : Channel) :
    (s.pointSync c).desc = s.desc.set c ⟨.clOn, vlistLen⟩ := rfl
@[simp] theorem State.pointSync_armed (c : Channel) : (s.pointSync c).armed = s.armed := rfl
@[simp] theorem State.pointSync_pending (c : Channel) : (s.pointSync c).pending = s.pending := rfl
@[simp] theorem State.pointSync_irqEn (c : Channel) : (s.pointSync c).irqEn = s.irqEn := rfl
@[simp] theorem State.pointSync_activeCh (c : Channel) : (s.pointSync c).activeCh = s.activeCh := rfl
@[simp] theorem State.pointSync_event (c : Channel) : (s.pointSync c).event = s.event := rfl
@[simp] theorem State.pointSync_out (c : Channel) : (s.pointSync c).out = s.out := rfl
@[simp] theorem State.pointSync_serIn (c : Channel) : (s.pointSync c).serIn = s.serIn := rfl
@[simp] theorem State.pointSync_wire (c : Channel) : (s.pointSync c).wire = s.wire := rfl
@[simp] theorem State.pointSync_port (c : Channel) : (s.pointSync c).port = s.port := rfl
@[simp] theorem State.pointSync_busy (c : Channel) : (s.pointSync c).busy = s.busy := rfl
@[simp] theorem State.pointSync_reply (c : Channel) : (s.pointSync c).reply = s.reply := rfl
@[simp] theorem State.pointSync_result (c : Channel) : (s.pointSync c).result = s.result := rfl
@[simp] theorem State.pointSync_invoke (c : Channel) : (s.pointSync c).invoke = s.invoke := rfl
@[simp] theorem State.pointSync_turns (c : Channel) : (s.pointSync c).turns = s.turns := rfl
@[simp] theorem State.pointSync_tick (c : Channel) : (s.pointSync c).tick = s.tick := rfl
@[simp] theorem State.pointSync_epoch (c : Channel) : (s.pointSync c).epoch = s.epoch := rfl

/-! ## `State.pointBlank` -/

@[simp] theorem State.pointBlank_plat (c : Channel) : (s.pointBlank c).plat = s.plat := rfl
@[simp] theorem State.pointBlank_inited (c : Channel) : (s.pointBlank c).inited = s.inited := rfl
@[simp] theorem State.pointBlank_timing (c : Channel) : (s.pointBlank c).timing = s.timing := rfl
@[simp] theorem State.pointBlank_mode (c : Channel) : (s.pointBlank c).mode = s.mode := rfl
@[simp] theorem State.pointBlank_hShift (c : Channel) : (s.pointBlank c).hShift = s.hShift := rfl
@[simp] theorem State.pointBlank_vShift (c : Channel) : (s.pointBlank c).vShift = s.vShift := rfl
@[simp] theorem State.pointBlank_frameW (c : Channel) : (s.pointBlank c).frameW = s.frameW := rfl
@[simp] theorem State.pointBlank_frameH (c : Channel) : (s.pointBlank c).frameH = s.frameH := rfl
@[simp] theorem State.pointBlank_fb0 (c : Channel) : (s.pointBlank c).fb0 = s.fb0 := rfl
@[simp] theorem State.pointBlank_fb1 (c : Channel) : (s.pointBlank c).fb1 = s.fb1 := rfl
@[simp] theorem State.pointBlank_front (c : Channel) : (s.pointBlank c).front = s.front := rfl
@[simp] theorem State.pointBlank_flipReq (c : Channel) : (s.pointBlank c).flipReq = s.flipReq := rfl
@[simp] theorem State.pointBlank_lb (c : Channel) : (s.pointBlank c).lb = s.lb := rfl
@[simp] theorem State.pointBlank_vScanline (c : Channel) : (s.pointBlank c).vScanline = s.vScanline := rfl
@[simp] theorem State.pointBlank_clOn (c : Channel) : (s.pointBlank c).clOn = s.clOn := rfl
@[simp] theorem State.pointBlank_clOff (c : Channel) : (s.pointBlank c).clOff = s.clOff := rfl
@[simp] theorem State.pointBlank_hdr (c : Channel) : (s.pointBlank c).hdr = s.hdr := rfl
@[simp] theorem State.pointBlank_pal (c : Channel) : (s.pointBlank c).pal = s.pal := rfl
@[simp] theorem State.pointBlank_fc (c : Channel) : (s.pointBlank c).fc = s.fc := rfl
@[simp] theorem State.pointBlank_ch (c : Channel) : (s.pointBlank c).ch = s.ch := rfl
@[simp] theorem State.pointBlank_marker (c : Channel) : (s.pointBlank c).marker = s.marker := rfl
@[simp] theorem State.pointBlank_desc (c : Channel) :
    (s.pointBlank c).desc = s.desc.set c ⟨.clOff, vlistLen⟩ := rfl
@[simp] theorem State.pointBlank_armed (c : Channel) : (s.pointBlank c).armed = s.armed := rfl
@[simp] theorem State.pointBlank_pending (c : Channel) : (s.pointBlank c).pending = s.pending := rfl
@[simp] theorem State.pointBlank_irqEn (c : Channel) : (s.pointBlank c).irqEn = s.irqEn := rfl
@[simp] theorem State.pointBlank_activeCh (c : Channel) : (s.pointBlank c).activeCh = s.activeCh := rfl
@[simp] theorem State.pointBlank_event (c : Channel) : (s.pointBlank c).event = s.event := rfl
@[simp] theorem State.pointBlank_out (c : Channel) : (s.pointBlank c).out = s.out := rfl
@[simp] theorem State.pointBlank_serIn (c : Channel) : (s.pointBlank c).serIn = s.serIn := rfl
@[simp] theorem State.pointBlank_wire (c : Channel) : (s.pointBlank c).wire = s.wire := rfl
@[simp] theorem State.pointBlank_port (c : Channel) : (s.pointBlank c).port = s.port := rfl
@[simp] theorem State.pointBlank_busy (c : Channel) : (s.pointBlank c).busy = s.busy := rfl
@[simp] theorem State.pointBlank_reply (c : Channel) : (s.pointBlank c).reply = s.reply := rfl
@[simp] theorem State.pointBlank_result (c : Channel) : (s.pointBlank c).result = s.result := rfl
@[simp] theorem State.pointBlank_invoke (c : Channel) : (s.pointBlank c).invoke = s.invoke := rfl
@[simp] theorem State.pointBlank_turns (c : Channel) : (s.pointBlank c).turns = s.turns := rfl
@[simp] theorem State.pointBlank_tick (c : Channel) : (s.pointBlank c).tick = s.tick := rfl
@[simp] theorem State.pointBlank_epoch (c : Channel) : (s.pointBlank c).epoch = s.epoch := rfl

/-! ## `State.pointRow` -/

@[simp] theorem State.pointRow_plat (c : Channel) (y : Nat) :
    (s.pointRow c y).plat = s.plat := by simp [State.pointRow]
@[simp] theorem State.pointRow_inited (c : Channel) (y : Nat) :
    (s.pointRow c y).inited = s.inited := by simp [State.pointRow]
@[simp] theorem State.pointRow_timing (c : Channel) (y : Nat) :
    (s.pointRow c y).timing = s.timing := by simp [State.pointRow]
@[simp] theorem State.pointRow_mode (c : Channel) (y : Nat) :
    (s.pointRow c y).mode = s.mode := by simp [State.pointRow]
@[simp] theorem State.pointRow_hShift (c : Channel) (y : Nat) :
    (s.pointRow c y).hShift = s.hShift := by simp [State.pointRow]
@[simp] theorem State.pointRow_vShift (c : Channel) (y : Nat) :
    (s.pointRow c y).vShift = s.vShift := by simp [State.pointRow]
@[simp] theorem State.pointRow_frameW (c : Channel) (y : Nat) :
    (s.pointRow c y).frameW = s.frameW := by simp [State.pointRow]
@[simp] theorem State.pointRow_frameH (c : Channel) (y : Nat) :
    (s.pointRow c y).frameH = s.frameH := by simp [State.pointRow]
@[simp] theorem State.pointRow_fb0 (c : Channel) (y : Nat) :
    (s.pointRow c y).fb0 = s.fb0 := by simp [State.pointRow]
@[simp] theorem State.pointRow_fb1 (c : Channel) (y : Nat) :
    (s.pointRow c y).fb1 = s.fb1 := by simp [State.pointRow]
@[simp] theorem State.pointRow_front (c : Channel) (y : Nat) :
    (s.pointRow c y).front = s.front := by simp [State.pointRow]
@[simp] theorem State.pointRow_flipReq (c : Channel) (y : Nat) :
    (s.pointRow c y).flipReq = s.flipReq := by simp [State.pointRow]
@[simp] theorem State.pointRow_vScanline (c : Channel) (y : Nat) :
    (s.pointRow c y).vScanline = s.vScanline := by simp [State.pointRow]
@[simp] theorem State.pointRow_clOn (c : Channel) (y : Nat) :
    (s.pointRow c y).clOn = s.clOn := by simp [State.pointRow]
@[simp] theorem State.pointRow_clOff (c : Channel) (y : Nat) :
    (s.pointRow c y).clOff = s.clOff := by simp [State.pointRow]
@[simp] theorem State.pointRow_hdr (c : Channel) (y : Nat) :
    (s.pointRow c y).hdr = s.hdr := by simp [State.pointRow]
@[simp] theorem State.pointRow_pal (c : Channel) (y : Nat) :
    (s.pointRow c y).pal = s.pal := by simp [State.pointRow]
@[simp] theorem State.pointRow_fc (c : Channel) (y : Nat) :
    (s.pointRow c y).fc = s.fc := by simp [State.pointRow]
@[simp] theorem State.pointRow_ch (c : Channel) (y : Nat) :
    (s.pointRow c y).ch = s.ch := by simp [State.pointRow]
@[simp] theorem State.pointRow_marker (c : Channel) (y : Nat) :
    (s.pointRow c y).marker = some (s.slotOf c y) := by simp [State.pointRow]
@[simp] theorem State.pointRow_armed (c : Channel) (y : Nat) :
    (s.pointRow c y).armed = s.armed := by simp [State.pointRow]
@[simp] theorem State.pointRow_pending (c : Channel) (y : Nat) :
    (s.pointRow c y).pending = s.pending := by simp [State.pointRow]
@[simp] theorem State.pointRow_irqEn (c : Channel) (y : Nat) :
    (s.pointRow c y).irqEn = s.irqEn := by simp [State.pointRow]
@[simp] theorem State.pointRow_activeCh (c : Channel) (y : Nat) :
    (s.pointRow c y).activeCh = s.activeCh := by simp [State.pointRow]
@[simp] theorem State.pointRow_event (c : Channel) (y : Nat) :
    (s.pointRow c y).event = s.event := by simp [State.pointRow]
@[simp] theorem State.pointRow_out (c : Channel) (y : Nat) :
    (s.pointRow c y).out = s.out := by simp [State.pointRow]
@[simp] theorem State.pointRow_serIn (c : Channel) (y : Nat) :
    (s.pointRow c y).serIn = s.serIn := by simp [State.pointRow]
@[simp] theorem State.pointRow_wire (c : Channel) (y : Nat) :
    (s.pointRow c y).wire = s.wire := by simp [State.pointRow]
@[simp] theorem State.pointRow_port (c : Channel) (y : Nat) :
    (s.pointRow c y).port = s.port := by simp [State.pointRow]
@[simp] theorem State.pointRow_busy (c : Channel) (y : Nat) :
    (s.pointRow c y).busy = s.busy := by simp [State.pointRow]
@[simp] theorem State.pointRow_reply (c : Channel) (y : Nat) :
    (s.pointRow c y).reply = s.reply := by simp [State.pointRow]
@[simp] theorem State.pointRow_result (c : Channel) (y : Nat) :
    (s.pointRow c y).result = s.result := by simp [State.pointRow]
@[simp] theorem State.pointRow_invoke (c : Channel) (y : Nat) :
    (s.pointRow c y).invoke = s.invoke := by simp [State.pointRow]
@[simp] theorem State.pointRow_turns (c : Channel) (y : Nat) :
    (s.pointRow c y).turns = s.turns := by simp [State.pointRow]
@[simp] theorem State.pointRow_tick (c : Channel) (y : Nat) :
    (s.pointRow c y).tick = s.tick := by simp [State.pointRow]
@[simp] theorem State.pointRow_epoch (c : Channel) (y : Nat) :
    (s.pointRow c y).epoch = s.epoch := by simp [State.pointRow]

/-! ## `State.pointActive` -/

@[simp] theorem State.pointActive_plat (c : Channel) :
    (s.pointActive c).plat = s.plat := by simp [State.pointActive]
@[simp] theorem State.pointActive_inited (c : Channel) :
    (s.pointActive c).inited = s.inited := by simp [State.pointActive]
@[simp] theorem State.pointActive_timing (c : Channel) :
    (s.pointActive c).timing = s.timing := by simp [State.pointActive]
@[simp] theorem State.pointActive_mode (c : Channel) :
    (s.pointActive c).mode = s.mode := by simp [State.pointActive]
@[simp] theorem State.pointActive_hShift (c : Channel) :
    (s.pointActive c).hShift = s.hShift := by simp [State.pointActive]
@[simp] theorem State.pointActive_vShift (c : Channel) :
    (s.pointActive c).vShift = s.vShift := by simp [State.pointActive]
@[simp] theorem State.pointActive_frameW (c : Channel) :
    (s.pointActive c).frameW = s.frameW := by simp [State.pointActive]
@[simp] theorem State.pointActive_frameH (c : Channel) :
    (s.pointActive c).frameH = s.frameH := by simp [State.pointActive]
@[simp] theorem State.pointActive_fb0 (c : Channel) :
    (s.pointActive c).fb0 = s.fb0 := by simp [State.pointActive]
@[simp] theorem State.pointActive_fb1 (c : Channel) :
    (s.pointActive c).fb1 = s.fb1 := by simp [State.pointActive]
@[simp] theorem State.pointActive_front (c : Channel) :
    (s.pointActive c).front = s.front := by simp [State.pointActive]
@[simp] theorem State.pointActive_flipReq (c : Channel) :
    (s.pointActive c).flipReq = s.flipReq := by simp [State.pointActive]
@[simp] theorem State.pointActive_vScanline (c : Channel) :
    (s.pointActive c).vScanline = s.vScanline := by simp [State.pointActive]
@[simp] theorem State.pointActive_clOn (c : Channel) :
    (s.pointActive c).clOn = s.clOn := by simp [State.pointActive]
@[simp] theorem State.pointActive_clOff (c : Channel) :
    (s.pointActive c).clOff = s.clOff := by simp [State.pointActive]
@[simp] theorem State.pointActive_hdr (c : Channel) :
    (s.pointActive c).hdr = s.hdr := by simp [State.pointActive]
@[simp] theorem State.pointActive_pal (c : Channel) :
    (s.pointActive c).pal = s.pal := by simp [State.pointActive]
@[simp] theorem State.pointActive_fc (c : Channel) :
    (s.pointActive c).fc = s.fc := by simp [State.pointActive]
@[simp] theorem State.pointActive_ch (c : Channel) :
    (s.pointActive c).ch = s.ch := by simp [State.pointActive]
@[simp] theorem State.pointActive_marker (c : Channel) :
    (s.pointActive c).marker = some (s.slotOf c (s.rowOf s.vScanline.toNat)) := by simp [State.pointActive]
@[simp] theorem State.pointActive_armed (c : Channel) :
    (s.pointActive c).armed = s.armed := by simp [State.pointActive]
@[simp] theorem State.pointActive_pending (c : Channel) :
    (s.pointActive c).pending = s.pending := by simp [State.pointActive]
@[simp] theorem State.pointActive_irqEn (c : Channel) :
    (s.pointActive c).irqEn = s.irqEn := by simp [State.pointActive]
@[simp] theorem State.pointActive_activeCh (c : Channel) :
    (s.pointActive c).activeCh = s.activeCh := by simp [State.pointActive]
@[simp] theorem State.pointActive_event (c : Channel) :
    (s.pointActive c).event = s.event := by simp [State.pointActive]
@[simp] theorem State.pointActive_out (c : Channel) :
    (s.pointActive c).out = s.out := by simp [State.pointActive]
@[simp] theorem State.pointActive_serIn (c : Channel) :
    (s.pointActive c).serIn = s.serIn := by simp [State.pointActive]
@[simp] theorem State.pointActive_wire (c : Channel) :
    (s.pointActive c).wire = s.wire := by simp [State.pointActive]
@[simp] theorem State.pointActive_port (c : Channel) :
    (s.pointActive c).port = s.port := by simp [State.pointActive]
@[simp] theorem State.pointActive_busy (c : Channel) :
    (s.pointActive c).busy = s.busy := by simp [State.pointActive]
@[simp] theorem State.pointActive_reply (c : Channel) :
    (s.pointActive c).reply = s.reply := by simp [State.pointActive]
@[simp] theorem State.pointActive_result (c : Channel) :
    (s.pointActive c).result = s.result := by simp [State.pointActive]
@[simp] theorem State.pointActive_invoke (c : Channel) :
    (s.pointActive c).invoke = s.invoke := by simp [State.pointActive]
@[simp] theorem State.pointActive_turns (c : Channel) :
    (s.pointActive c).turns = s.turns := by simp [State.pointActive]
@[simp] theorem State.pointActive_tick (c : Channel) :
    (s.pointActive c).tick = s.tick := by simp [State.pointActive]
@[simp] theorem State.pointActive_epoch (c : Channel) :
    (s.pointActive c).epoch = s.epoch := by simp [State.pointActive]

/-! ## `State.pointChannel` -/

@[simp] theorem State.pointChannel_plat (c : Channel) :
    (s.pointChannel c).plat = s.plat := by unfold State.pointChannel; split <;> simp
@[simp] theorem State.pointChannel_inited (c : Channel) :
    (s.pointChannel c).inited = s.inited := by unfold State.pointChannel; split <;> simp
@[simp] theorem State.pointChannel_timing (c : Channel) :
    (s.pointChannel c).timing = s.timing := by unfold State.pointChannel; split <;> simp
@[simp] theorem State.pointChannel_mode (c : Channel) :
    (s.pointChannel c).mode = s.mode := by unfold State.pointChannel; split <;> simp
@[simp] theorem State.pointChannel_hShift (c : Channel) :
    (s.pointChannel c).hShift = s.hShift := by unfold State.pointChannel; split <;> simp
@[simp] theorem State.pointChannel_vShift (c : Channel) :
    (s.pointChannel c).vShift = s.vShift := by unfold State.pointChannel; split <;> simp
@[simp] theorem State.pointChannel_frameW (c : Channel) :
    (s.pointChannel c).frameW = s.frameW := by unfold State.pointChannel; split <;> simp
@[simp] theorem State.pointChannel_frameH (c : Channel) :
    (s.pointChannel c).frameH = s.frameH := by unfold State.pointChannel; split <;> simp
@[simp] theorem State.pointChannel_fb0 (c : Channel) :
    (s.pointChannel c).fb0 = s.fb0 := by unfold State.pointChannel; split <;> simp
@[simp] theorem State.pointChannel_fb1 (c : Channel) :
    (s.pointChannel c).fb1 = s.fb1 := by unfold State.pointChannel; split <;> simp
@[simp] theorem State.pointChannel_front (c : Channel) :
    (s.pointChannel c).front = s.front := by unfold State.pointChannel; split <;> simp
@[simp] theorem State.pointChannel_flipReq (c : Channel) :
    (s.pointChannel c).flipReq = s.flipReq := by unfold State.pointChannel; split <;> simp
@[simp] theorem State.pointChannel_vScanline (c : Channel) :
    (s.pointChannel c).vScanline = s.vScanline := by unfold State.pointChannel; split <;> simp
@[simp] theorem State.pointChannel_clOn (c : Channel) :
    (s.pointChannel c).clOn = s.clOn := by unfold State.pointChannel; split <;> simp
@[simp] theorem State.pointChannel_clOff (c : Channel) :
    (s.pointChannel c).clOff = s.clOff := by unfold State.pointChannel; split <;> simp
@[simp] theorem State.pointChannel_hdr (c : Channel) :
    (s.pointChannel c).hdr = s.hdr := by unfold State.pointChannel; split <;> simp
@[simp] theorem State.pointChannel_pal (c : Channel) :
    (s.pointChannel c).pal = s.pal := by unfold State.pointChannel; split <;> simp
@[simp] theorem State.pointChannel_fc (c : Channel) :
    (s.pointChannel c).fc = s.fc := by unfold State.pointChannel; split <;> simp
@[simp] theorem State.pointChannel_ch (c : Channel) :
    (s.pointChannel c).ch = s.ch := by unfold State.pointChannel; split <;> simp
@[simp] theorem State.pointChannel_armed (c : Channel) :
    (s.pointChannel c).armed = s.armed := by unfold State.pointChannel; split <;> simp
@[simp] theorem State.pointChannel_pending (c : Channel) :
    (s.pointChannel c).pending = s.pending := by unfold State.pointChannel; split <;> simp
@[simp] theorem State.pointChannel_irqEn (c : Channel) :
    (s.pointChannel c).irqEn = s.irqEn := by unfold State.pointChannel; split <;> simp
@[simp] theorem State.pointChannel_activeCh (c : Channel) :
    (s.pointChannel c).activeCh = s.activeCh := by unfold State.pointChannel; split <;> simp
@[simp] theorem State.pointChannel_event (c : Channel) :
    (s.pointChannel c).event = s.event := by unfold State.pointChannel; split <;> simp
@[simp] theorem State.pointChannel_out (c : Channel) :
    (s.pointChannel c).out = s.out := by unfold State.pointChannel; split <;> simp
@[simp] theorem State.pointChannel_serIn (c : Channel) :
    (s.pointChannel c).serIn = s.serIn := by unfold State.pointChannel; split <;> simp
@[simp] theorem State.pointChannel_wire (c : Channel) :
    (s.pointChannel c).wire = s.wire := by unfold State.pointChannel; split <;> simp
@[simp] theorem State.pointChannel_port (c : Channel) :
    (s.pointChannel c).port = s.port := by unfold State.pointChannel; split <;> simp
@[simp] theorem State.pointChannel_busy (c : Channel) :
    (s.pointChannel c).busy = s.busy := by unfold State.pointChannel; split <;> simp
@[simp] theorem State.pointChannel_reply (c : Channel) :
    (s.pointChannel c).reply = s.reply := by unfold State.pointChannel; split <;> simp
@[simp] theorem State.pointChannel_result (c : Channel) :
    (s.pointChannel c).result = s.result := by unfold State.pointChannel; split <;> simp
@[simp] theorem State.pointChannel_invoke (c : Channel) :
    (s.pointChannel c).invoke = s.invoke := by unfold State.pointChannel; split <;> simp
@[simp] theorem State.pointChannel_turns (c : Channel) :
    (s.pointChannel c).turns = s.turns := by unfold State.pointChannel; split <;> simp
@[simp] theorem State.pointChannel_tick (c : Channel) :
    (s.pointChannel c).tick = s.tick := by unfold State.pointChannel; split <;> simp
@[simp] theorem State.pointChannel_epoch (c : Channel) :
    (s.pointChannel c).epoch = s.epoch := by unfold State.pointChannel; split <;> simp

/-! ## `State.programChannel` -/

@[simp] theorem State.programChannel_plat (c : Channel) :
    (s.programChannel c).plat = s.plat := by simp [State.programChannel]
@[simp] theorem State.programChannel_inited (c : Channel) :
    (s.programChannel c).inited = s.inited := by simp [State.programChannel]
@[simp] theorem State.programChannel_timing (c : Channel) :
    (s.programChannel c).timing = s.timing := by simp [State.programChannel]
@[simp] theorem State.programChannel_mode (c : Channel) :
    (s.programChannel c).mode = s.mode := by simp [State.programChannel]
@[simp] theorem State.programChannel_hShift (c : Channel) :
    (s.programChannel c).hShift = s.hShift := by simp [State.programChannel]
@[simp] theorem State.programChannel_vShift (c : Channel) :
    (s.programChannel c).vShift = s.vShift := by simp [State.programChannel]
@[simp] theorem State.programChannel_frameW (c : Channel) :
    (s.programChannel c).frameW = s.frameW := by simp [State.programChannel]
@[simp] theorem State.programChannel_frameH (c : Channel) :
    (s.programChannel c).frameH = s.frameH := by simp [State.programChannel]
@[simp] theorem State.programChannel_fb0 (c : Channel) :
    (s.programChannel c).fb0 = s.fb0 := by simp [State.programChannel]
@[simp] theorem State.programChannel_fb1 (c : Channel) :
    (s.programChannel c).fb1 = s.fb1 := by simp [State.programChannel]
@[simp] theorem State.programChannel_clOn (c : Channel) :
    (s.programChannel c).clOn = s.clOn := by simp [State.programChannel]
@[simp] theorem State.programChannel_clOff (c : Channel) :
    (s.programChannel c).clOff = s.clOff := by simp [State.programChannel]
@[simp] theorem State.programChannel_hdr (c : Channel) :
    (s.programChannel c).hdr = s.hdr := by simp [State.programChannel]
@[simp] theorem State.programChannel_pal (c : Channel) :
    (s.programChannel c).pal = s.pal := by simp [State.programChannel]
@[simp] theorem State.programChannel_fc (c : Channel) :
    (s.programChannel c).fc = s.fc := by simp [State.programChannel]
@[simp] theorem State.programChannel_ch (c : Channel) :
    (s.programChannel c).ch = s.ch := by simp [State.programChannel]
@[simp] theorem State.programChannel_pending (c : Channel) :
    (s.programChannel c).pending = s.pending := by simp [State.programChannel]
@[simp] theorem State.programChannel_irqEn (c : Channel) :
    (s.programChannel c).irqEn = s.irqEn := by simp [State.programChannel]
@[simp] theorem State.programChannel_activeCh (c : Channel) :
    (s.programChannel c).activeCh = s.activeCh := by simp [State.programChannel]
@[simp] theorem State.programChannel_out (c : Channel) :
    (s.programChannel c).out = s.out := by simp [State.programChannel]
@[simp] theorem State.programChannel_serIn (c : Channel) :
    (s.programChannel c).serIn = s.serIn := by simp [State.programChannel]
@[simp] theorem State.programChannel_wire (c : Channel) :
    (s.programChannel c).wire = s.wire := by simp [State.programChannel]
@[simp] theorem State.programChannel_port (c : Channel) :
    (s.programChannel c).port = s.port := by simp [State.programChannel]
@[simp] theorem State.programChannel_busy (c : Channel) :
    (s.programChannel c).busy = s.busy := by simp [State.programChannel]
@[simp] theorem State.programChannel_reply (c : Channel) :
    (s.programChannel c).reply = s.reply := by simp [State.programChannel]
@[simp] theorem State.programChannel_result (c : Channel) :
    (s.programChannel c).result = s.result := by simp [State.programChannel]
@[simp] theorem State.programChannel_invoke (c : Channel) :
    (s.programChannel c).invoke = s.invoke := by simp [State.programChannel]
@[simp] theorem State.programChannel_turns (c : Channel) :
    (s.programChannel c).turns = s.turns := by simp [State.programChannel]
@[simp] theorem State.programChannel_tick (c : Channel) :
    (s.programChannel c).tick = s.tick := by simp [State.programChannel]
@[simp] theorem State.programChannel_epoch (c : Channel) :
    (s.programChannel c).epoch = s.epoch := by simp [State.programChannel]

/-! ## `handlerReturn` -/

@[simp] theorem handlerReturn_plat : (handlerReturn s).plat = s.plat := rfl
@[simp] theorem handlerReturn_inited : (handlerReturn s).inited = s.inited := rfl
@[simp] theorem handlerReturn_timing : (handlerReturn s).timing = s.timing := rfl
@[simp] theorem handlerReturn_mode : (handlerReturn s).mode = s.mode := rfl
@[simp] theorem handlerReturn_hShift : (handlerReturn s).hShift = s.hShift := rfl
@[simp] theorem handlerReturn_vShift : (handlerReturn s).vShift = s.vShift := rfl
@[simp] theorem handlerReturn_frameW : (handlerReturn s).frameW = s.frameW := rfl
@[simp] theorem handlerReturn_frameH : (handlerReturn s).frameH = s.frameH := rfl
@[simp] theorem handlerReturn_fb0 : (handlerReturn s).fb0 = s.fb0 := rfl
@[simp] theorem handlerReturn_fb1 : (handlerReturn s).fb1 = s.fb1 := rfl
@[simp] theorem handlerReturn_front : (handlerReturn s).front = s.front := rfl
@[simp] theorem handlerReturn_flipReq : (handlerReturn s).flipReq = s.flipReq := rfl
@[simp] theorem handlerReturn_lb : (handlerReturn s).lb = s.lb := rfl
@[simp] theorem handlerReturn_vScanline : (handlerReturn s).vScanline = s.vScanline := rfl
@[simp] theorem handlerReturn_clOn : (handlerReturn s).clOn = s.clOn := rfl
@[simp] theorem handlerReturn_clOff : (handlerReturn s).clOff = s.clOff := rfl
@[simp] theorem handlerReturn_hdr : (handlerReturn s).hdr = s.hdr := rfl
@[simp] theorem handlerReturn_pal : (handlerReturn s).pal = s.pal := rfl
@[simp] theorem handlerReturn_fc : (handlerReturn s).fc = s.fc := rfl
@[simp] theorem handlerReturn_ch : (handlerReturn s).ch = s.ch := rfl
@[simp] theorem handlerReturn_marker : (handlerReturn s).marker = s.marker := rfl
@[simp] theorem handlerReturn_desc : (handlerReturn s).desc = s.desc := rfl
@[simp] theorem handlerReturn_armed : (handlerReturn s).armed = s.armed := rfl
@[simp] theorem handlerReturn_pending : (handlerReturn s).pending = s.pending := rfl
@[simp] theorem handlerReturn_irqEn : (handlerReturn s).irqEn = s.irqEn := rfl
@[simp] theorem handlerReturn_activeCh : (handlerReturn s).activeCh = s.activeCh := rfl
@[simp] theorem handlerReturn_event : (handlerReturn s).event = s.event := rfl
@[simp] theorem handlerReturn_out : (handlerReturn s).out = s.out := rfl
@[simp] theorem handlerReturn_serIn : (handlerReturn s).serIn = s.serIn := rfl
@[simp] theorem handlerReturn_wire : (handlerReturn s).wire = s.wire := rfl
@[simp] theorem handlerReturn_port : (handlerReturn s).port = s.port := rfl
@[simp] theorem handlerReturn_busy : (handlerReturn s).busy = s.busy := rfl
@[simp] theorem handlerReturn_reply : (handlerReturn s).reply = s.reply := rfl
@[simp] theorem handlerReturn_result : (handlerReturn s).result = s.result := rfl
@[simp] theorem handlerReturn_invoke : (handlerReturn s).invoke = s.invoke := rfl
@[simp] theorem handlerReturn_turns : (handlerReturn s).turns = s.turns := rfl
@[simp] theorem handlerReturn_tick : (handlerReturn s).tick = s.tick := rfl
@[simp] theorem handlerReturn_epoch : (handlerReturn s).epoch = s.epoch := rfl

/-! ## `State.refilled` -/

@[simp] theorem State.refilled_plat : (s.refilled).plat = s.plat := by simp [State.refilled]
@[simp] theorem State.refilled_inited : (s.refilled).inited = s.inited := by simp [State.refilled]
@[simp] theorem State.refilled_timing : (s.refilled).timing = s.timing := by simp [State.refilled]
@[simp] theorem State.refilled_mode : (s.refilled).mode = s.mode := by simp [State.refilled]
@[simp] theorem State.refilled_hShift : (s.refilled).hShift = s.hShift := by simp [State.refilled]
@[simp] theorem State.refilled_vShift : (s.refilled).vShift = s.vShift := by simp [State.refilled]
@[simp] theorem State.refilled_frameW : (s.refilled).frameW = s.frameW := by simp [State.refilled]
@[simp] theorem State.refilled_frameH : (s.refilled).frameH = s.frameH := by simp [State.refilled]
@[simp] theorem State.refilled_fb0 : (s.refilled).fb0 = s.fb0 := by simp [State.refilled]
@[simp] theorem State.refilled_fb1 : (s.refilled).fb1 = s.fb1 := by simp [State.refilled]
@[simp] theorem State.refilled_clOn : (s.refilled).clOn = s.clOn := by simp [State.refilled]
@[simp] theorem State.refilled_clOff : (s.refilled).clOff = s.clOff := by simp [State.refilled]
@[simp] theorem State.refilled_hdr : (s.refilled).hdr = s.hdr := by simp [State.refilled]
@[simp] theorem State.refilled_pal : (s.refilled).pal = s.pal := by simp [State.refilled]
@[simp] theorem State.refilled_fc : (s.refilled).fc = s.fc := by simp [State.refilled]
@[simp] theorem State.refilled_ch : (s.refilled).ch = chain s.ch := by simp [State.refilled]
@[simp] theorem State.refilled_pending :
    (s.refilled).pending = s.pending.set s.ch false := by simp [State.refilled]
@[simp] theorem State.refilled_irqEn : (s.refilled).irqEn = s.irqEn := by simp [State.refilled]
@[simp] theorem State.refilled_activeCh : (s.refilled).activeCh = s.activeCh := by simp [State.refilled]
@[simp] theorem State.refilled_out : (s.refilled).out = s.out := by simp [State.refilled]
@[simp] theorem State.refilled_serIn : (s.refilled).serIn = s.serIn := by simp [State.refilled]
@[simp] theorem State.refilled_wire : (s.refilled).wire = s.wire := by simp [State.refilled]
@[simp] theorem State.refilled_port : (s.refilled).port = s.port := by simp [State.refilled]
@[simp] theorem State.refilled_busy : (s.refilled).busy = s.busy := by simp [State.refilled]
@[simp] theorem State.refilled_reply : (s.refilled).reply = s.reply := by simp [State.refilled]
@[simp] theorem State.refilled_result : (s.refilled).result = s.result := by simp [State.refilled]
@[simp] theorem State.refilled_invoke : (s.refilled).invoke = s.invoke := by simp [State.refilled]
@[simp] theorem State.refilled_turns : (s.refilled).turns = s.turns := by simp [State.refilled]
@[simp] theorem State.refilled_tick : (s.refilled).tick = s.tick := by simp [State.refilled]
@[simp] theorem State.refilled_epoch : (s.refilled).epoch = s.epoch := by simp [State.refilled]

/-! ## `State.transfer` -/

@[simp] theorem State.transfer_plat (k : Channel) : (s.transfer k).plat = s.plat := by simp [State.transfer]
@[simp] theorem State.transfer_inited (k : Channel) :
    (s.transfer k).inited = s.inited := by simp [State.transfer]
@[simp] theorem State.transfer_timing (k : Channel) :
    (s.transfer k).timing = s.timing := by simp [State.transfer]
@[simp] theorem State.transfer_mode (k : Channel) : (s.transfer k).mode = s.mode := by simp [State.transfer]
@[simp] theorem State.transfer_hShift (k : Channel) :
    (s.transfer k).hShift = s.hShift := by simp [State.transfer]
@[simp] theorem State.transfer_vShift (k : Channel) :
    (s.transfer k).vShift = s.vShift := by simp [State.transfer]
@[simp] theorem State.transfer_frameW (k : Channel) :
    (s.transfer k).frameW = s.frameW := by simp [State.transfer]
@[simp] theorem State.transfer_frameH (k : Channel) :
    (s.transfer k).frameH = s.frameH := by simp [State.transfer]
@[simp] theorem State.transfer_fb0 (k : Channel) : (s.transfer k).fb0 = s.fb0 := by simp [State.transfer]
@[simp] theorem State.transfer_fb1 (k : Channel) : (s.transfer k).fb1 = s.fb1 := by simp [State.transfer]
@[simp] theorem State.transfer_front (k : Channel) :
    (s.transfer k).front = s.front := by simp [State.transfer]
@[simp] theorem State.transfer_flipReq (k : Channel) :
    (s.transfer k).flipReq = s.flipReq := by simp [State.transfer]
@[simp] theorem State.transfer_lb (k : Channel) : (s.transfer k).lb = s.lb := by simp [State.transfer]
@[simp] theorem State.transfer_vScanline (k : Channel) :
    (s.transfer k).vScanline = s.vScanline := by simp [State.transfer]
@[simp] theorem State.transfer_clOn (k : Channel) : (s.transfer k).clOn = s.clOn := by simp [State.transfer]
@[simp] theorem State.transfer_clOff (k : Channel) :
    (s.transfer k).clOff = s.clOff := by simp [State.transfer]
@[simp] theorem State.transfer_hdr (k : Channel) : (s.transfer k).hdr = s.hdr := by simp [State.transfer]
@[simp] theorem State.transfer_pal (k : Channel) : (s.transfer k).pal = s.pal := by simp [State.transfer]
@[simp] theorem State.transfer_fc (k : Channel) : (s.transfer k).fc = s.fc := by simp [State.transfer]
@[simp] theorem State.transfer_ch (k : Channel) : (s.transfer k).ch = s.ch := by simp [State.transfer]
@[simp] theorem State.transfer_marker (k : Channel) :
    (s.transfer k).marker = s.marker := by simp [State.transfer]
@[simp] theorem State.transfer_desc (k : Channel) : (s.transfer k).desc = s.desc := by simp [State.transfer]
@[simp] theorem State.transfer_armed (k : Channel) :
    (s.transfer k).armed = s.armed.set k false := by simp [State.transfer]
@[simp] theorem State.transfer_pending (k : Channel) :
    (s.transfer k).pending = s.pending.set k true := by simp [State.transfer]
@[simp] theorem State.transfer_irqEn (k : Channel) :
    (s.transfer k).irqEn = s.irqEn := by simp [State.transfer]
@[simp] theorem State.transfer_activeCh (k : Channel) :
    (s.transfer k).activeCh = chain k := by simp [State.transfer]
@[simp] theorem State.transfer_event (k : Channel) :
    (s.transfer k).event = s.event := by simp [State.transfer]
@[simp] theorem State.transfer_out (k : Channel) :
    (s.transfer k).out = s.out ++ [s.lineWordsOf (s.desc.get k)] := by simp [State.transfer]
@[simp] theorem State.transfer_serIn (k : Channel) :
    (s.transfer k).serIn = s.serIn ++ [s.lineWordsOf (s.desc.get k)] := by simp [State.transfer]
@[simp] theorem State.transfer_wire (k : Channel) : (s.transfer k).wire = s.wire := by simp [State.transfer]
@[simp] theorem State.transfer_port (k : Channel) : (s.transfer k).port = s.port := by simp [State.transfer]
@[simp] theorem State.transfer_busy (k : Channel) : (s.transfer k).busy = s.busy := by simp [State.transfer]
@[simp] theorem State.transfer_reply (k : Channel) :
    (s.transfer k).reply = s.reply := by simp [State.transfer]
@[simp] theorem State.transfer_result (k : Channel) :
    (s.transfer k).result = s.result := by simp [State.transfer]
@[simp] theorem State.transfer_invoke (k : Channel) :
    (s.transfer k).invoke = s.invoke := by simp [State.transfer]
@[simp] theorem State.transfer_turns (k : Channel) :
    (s.transfer k).turns = s.turns := by simp [State.transfer]
@[simp] theorem State.transfer_tick (k : Channel) : (s.transfer k).tick = s.tick := by simp [State.transfer]
@[simp] theorem State.transfer_epoch (k : Channel) :
    (s.transfer k).epoch = s.epoch := by simp [State.transfer]

/-! ## `State.withVlists` -/

@[simp] theorem State.withVlists_plat : (s.withVlists).plat = s.plat := rfl
@[simp] theorem State.withVlists_inited : (s.withVlists).inited = s.inited := rfl
@[simp] theorem State.withVlists_timing : (s.withVlists).timing = s.timing := rfl
@[simp] theorem State.withVlists_mode : (s.withVlists).mode = s.mode := rfl
@[simp] theorem State.withVlists_hShift : (s.withVlists).hShift = s.hShift := rfl
@[simp] theorem State.withVlists_vShift : (s.withVlists).vShift = s.vShift := rfl
@[simp] theorem State.withVlists_frameW : (s.withVlists).frameW = s.frameW := rfl
@[simp] theorem State.withVlists_frameH : (s.withVlists).frameH = s.frameH := rfl
@[simp] theorem State.withVlists_fb0 : (s.withVlists).fb0 = s.fb0 := rfl
@[simp] theorem State.withVlists_fb1 : (s.withVlists).fb1 = s.fb1 := rfl
@[simp] theorem State.withVlists_front : (s.withVlists).front = s.front := rfl
@[simp] theorem State.withVlists_flipReq : (s.withVlists).flipReq = s.flipReq := rfl
@[simp] theorem State.withVlists_lb : (s.withVlists).lb = s.lb := rfl
@[simp] theorem State.withVlists_vScanline : (s.withVlists).vScanline = s.vScanline := rfl
@[simp] theorem State.withVlists_clOn : (s.withVlists).clOn = s.vlist true := rfl
@[simp] theorem State.withVlists_clOff : (s.withVlists).clOff = s.vlist false := rfl
@[simp] theorem State.withVlists_hdr : (s.withVlists).hdr = s.hdr := rfl
@[simp] theorem State.withVlists_pal : (s.withVlists).pal = s.pal := rfl
@[simp] theorem State.withVlists_fc : (s.withVlists).fc = s.fc := rfl
@[simp] theorem State.withVlists_ch : (s.withVlists).ch = s.ch := rfl
@[simp] theorem State.withVlists_marker : (s.withVlists).marker = s.marker := rfl
@[simp] theorem State.withVlists_desc : (s.withVlists).desc = s.desc := rfl
@[simp] theorem State.withVlists_armed : (s.withVlists).armed = s.armed := rfl
@[simp] theorem State.withVlists_pending : (s.withVlists).pending = s.pending := rfl
@[simp] theorem State.withVlists_irqEn : (s.withVlists).irqEn = s.irqEn := rfl
@[simp] theorem State.withVlists_activeCh : (s.withVlists).activeCh = s.activeCh := rfl
@[simp] theorem State.withVlists_event : (s.withVlists).event = s.event := rfl
@[simp] theorem State.withVlists_out : (s.withVlists).out = s.out := rfl
@[simp] theorem State.withVlists_serIn : (s.withVlists).serIn = s.serIn := rfl
@[simp] theorem State.withVlists_wire : (s.withVlists).wire = s.wire := rfl
@[simp] theorem State.withVlists_port : (s.withVlists).port = s.port := rfl
@[simp] theorem State.withVlists_busy : (s.withVlists).busy = s.busy := rfl
@[simp] theorem State.withVlists_reply : (s.withVlists).reply = s.reply := rfl
@[simp] theorem State.withVlists_result : (s.withVlists).result = s.result := rfl
@[simp] theorem State.withVlists_invoke : (s.withVlists).invoke = s.invoke := rfl
@[simp] theorem State.withVlists_turns : (s.withVlists).turns = s.turns := rfl
@[simp] theorem State.withVlists_tick : (s.withVlists).tick = s.tick := rfl
@[simp] theorem State.withVlists_epoch : (s.withVlists).epoch = s.epoch := rfl

/-! ## `State.withHdr` -/

@[simp] theorem State.withHdr_plat : (s.withHdr).plat = s.plat := rfl
@[simp] theorem State.withHdr_inited : (s.withHdr).inited = s.inited := rfl
@[simp] theorem State.withHdr_timing : (s.withHdr).timing = s.timing := rfl
@[simp] theorem State.withHdr_mode : (s.withHdr).mode = s.mode := rfl
@[simp] theorem State.withHdr_hShift : (s.withHdr).hShift = s.hShift := rfl
@[simp] theorem State.withHdr_vShift : (s.withHdr).vShift = s.vShift := rfl
@[simp] theorem State.withHdr_frameW : (s.withHdr).frameW = s.frameW := rfl
@[simp] theorem State.withHdr_frameH : (s.withHdr).frameH = s.frameH := rfl
@[simp] theorem State.withHdr_fb0 : (s.withHdr).fb0 = s.fb0 := rfl
@[simp] theorem State.withHdr_fb1 : (s.withHdr).fb1 = s.fb1 := rfl
@[simp] theorem State.withHdr_front : (s.withHdr).front = s.front := rfl
@[simp] theorem State.withHdr_flipReq : (s.withHdr).flipReq = s.flipReq := rfl
@[simp] theorem State.withHdr_lb : (s.withHdr).lb = s.lb := rfl
@[simp] theorem State.withHdr_vScanline : (s.withHdr).vScanline = s.vScanline := rfl
@[simp] theorem State.withHdr_clOn : (s.withHdr).clOn = s.clOn := rfl
@[simp] theorem State.withHdr_clOff : (s.withHdr).clOff = s.clOff := rfl
@[simp] theorem State.withHdr_hdr : (s.withHdr).hdr = s.header := rfl
@[simp] theorem State.withHdr_pal : (s.withHdr).pal = s.pal := rfl
@[simp] theorem State.withHdr_fc : (s.withHdr).fc = s.fc := rfl
@[simp] theorem State.withHdr_ch : (s.withHdr).ch = s.ch := rfl
@[simp] theorem State.withHdr_marker : (s.withHdr).marker = s.marker := rfl
@[simp] theorem State.withHdr_desc : (s.withHdr).desc = s.desc := rfl
@[simp] theorem State.withHdr_armed : (s.withHdr).armed = s.armed := rfl
@[simp] theorem State.withHdr_pending : (s.withHdr).pending = s.pending := rfl
@[simp] theorem State.withHdr_irqEn : (s.withHdr).irqEn = s.irqEn := rfl
@[simp] theorem State.withHdr_activeCh : (s.withHdr).activeCh = s.activeCh := rfl
@[simp] theorem State.withHdr_event : (s.withHdr).event = s.event := rfl
@[simp] theorem State.withHdr_out : (s.withHdr).out = s.out := rfl
@[simp] theorem State.withHdr_serIn : (s.withHdr).serIn = s.serIn := rfl
@[simp] theorem State.withHdr_wire : (s.withHdr).wire = s.wire := rfl
@[simp] theorem State.withHdr_port : (s.withHdr).port = s.port := rfl
@[simp] theorem State.withHdr_busy : (s.withHdr).busy = s.busy := rfl
@[simp] theorem State.withHdr_reply : (s.withHdr).reply = s.reply := rfl
@[simp] theorem State.withHdr_result : (s.withHdr).result = s.result := rfl
@[simp] theorem State.withHdr_invoke : (s.withHdr).invoke = s.invoke := rfl
@[simp] theorem State.withHdr_turns : (s.withHdr).turns = s.turns := rfl
@[simp] theorem State.withHdr_tick : (s.withHdr).tick = s.tick := rfl
@[simp] theorem State.withHdr_epoch : (s.withHdr).epoch = s.epoch := rfl

/-! ## `State.withLb` -/

@[simp] theorem State.withLb_plat : (s.withLb).plat = s.plat := rfl
@[simp] theorem State.withLb_inited : (s.withLb).inited = s.inited := rfl
@[simp] theorem State.withLb_timing : (s.withLb).timing = s.timing := rfl
@[simp] theorem State.withLb_mode : (s.withLb).mode = s.mode := rfl
@[simp] theorem State.withLb_hShift : (s.withLb).hShift = s.hShift := rfl
@[simp] theorem State.withLb_vShift : (s.withLb).vShift = s.vShift := rfl
@[simp] theorem State.withLb_frameW : (s.withLb).frameW = s.frameW := rfl
@[simp] theorem State.withLb_frameH : (s.withLb).frameH = s.frameH := rfl
@[simp] theorem State.withLb_fb0 : (s.withLb).fb0 = s.fb0 := rfl
@[simp] theorem State.withLb_fb1 : (s.withLb).fb1 = s.fb1 := rfl
@[simp] theorem State.withLb_front : (s.withLb).front = s.front := rfl
@[simp] theorem State.withLb_flipReq : (s.withLb).flipReq = s.flipReq := rfl
@[simp] theorem State.withLb_lb :
    (s.withLb).lb = List.replicate s.pool ⟨s.hdr, List.replicate (4 * s.lineWords) 0⟩ := rfl
@[simp] theorem State.withLb_vScanline : (s.withLb).vScanline = s.vScanline := rfl
@[simp] theorem State.withLb_clOn : (s.withLb).clOn = s.clOn := rfl
@[simp] theorem State.withLb_clOff : (s.withLb).clOff = s.clOff := rfl
@[simp] theorem State.withLb_hdr : (s.withLb).hdr = s.hdr := rfl
@[simp] theorem State.withLb_pal : (s.withLb).pal = s.pal := rfl
@[simp] theorem State.withLb_fc : (s.withLb).fc = s.fc := rfl
@[simp] theorem State.withLb_ch : (s.withLb).ch = s.ch := rfl
@[simp] theorem State.withLb_marker : (s.withLb).marker = s.marker := rfl
@[simp] theorem State.withLb_desc : (s.withLb).desc = s.desc := rfl
@[simp] theorem State.withLb_armed : (s.withLb).armed = s.armed := rfl
@[simp] theorem State.withLb_pending : (s.withLb).pending = s.pending := rfl
@[simp] theorem State.withLb_irqEn : (s.withLb).irqEn = s.irqEn := rfl
@[simp] theorem State.withLb_activeCh : (s.withLb).activeCh = s.activeCh := rfl
@[simp] theorem State.withLb_event : (s.withLb).event = s.event := rfl
@[simp] theorem State.withLb_out : (s.withLb).out = s.out := rfl
@[simp] theorem State.withLb_serIn : (s.withLb).serIn = s.serIn := rfl
@[simp] theorem State.withLb_wire : (s.withLb).wire = s.wire := rfl
@[simp] theorem State.withLb_port : (s.withLb).port = s.port := rfl
@[simp] theorem State.withLb_busy : (s.withLb).busy = s.busy := rfl
@[simp] theorem State.withLb_reply : (s.withLb).reply = s.reply := rfl
@[simp] theorem State.withLb_result : (s.withLb).result = s.result := rfl
@[simp] theorem State.withLb_invoke : (s.withLb).invoke = s.invoke := rfl
@[simp] theorem State.withLb_turns : (s.withLb).turns = s.turns := rfl
@[simp] theorem State.withLb_tick : (s.withLb).tick = s.tick := rfl
@[simp] theorem State.withLb_epoch : (s.withLb).epoch = s.epoch := rfl

/-! ## `State.withFontCache` -/

@[simp] theorem State.withFontCache_plat : (s.withFontCache).plat = s.plat := rfl
@[simp] theorem State.withFontCache_inited : (s.withFontCache).inited = s.inited := rfl
@[simp] theorem State.withFontCache_timing : (s.withFontCache).timing = s.timing := rfl
@[simp] theorem State.withFontCache_mode : (s.withFontCache).mode = s.mode := rfl
@[simp] theorem State.withFontCache_hShift : (s.withFontCache).hShift = s.hShift := rfl
@[simp] theorem State.withFontCache_vShift : (s.withFontCache).vShift = s.vShift := rfl
@[simp] theorem State.withFontCache_frameW : (s.withFontCache).frameW = s.frameW := rfl
@[simp] theorem State.withFontCache_frameH : (s.withFontCache).frameH = s.frameH := rfl
@[simp] theorem State.withFontCache_fb0 : (s.withFontCache).fb0 = s.fb0 := rfl
@[simp] theorem State.withFontCache_fb1 : (s.withFontCache).fb1 = s.fb1 := rfl
@[simp] theorem State.withFontCache_front : (s.withFontCache).front = s.front := rfl
@[simp] theorem State.withFontCache_flipReq : (s.withFontCache).flipReq = s.flipReq := rfl
@[simp] theorem State.withFontCache_lb : (s.withFontCache).lb = s.lb := rfl
@[simp] theorem State.withFontCache_vScanline : (s.withFontCache).vScanline = s.vScanline := rfl
@[simp] theorem State.withFontCache_clOn : (s.withFontCache).clOn = s.clOn := rfl
@[simp] theorem State.withFontCache_clOff : (s.withFontCache).clOff = s.clOff := rfl
@[simp] theorem State.withFontCache_hdr : (s.withFontCache).hdr = s.hdr := rfl
@[simp] theorem State.withFontCache_pal : (s.withFontCache).pal = s.pal := rfl
@[simp] theorem State.withFontCache_fc : (s.withFontCache).fc = fontCacheWords s.font := rfl
@[simp] theorem State.withFontCache_ch : (s.withFontCache).ch = s.ch := rfl
@[simp] theorem State.withFontCache_marker : (s.withFontCache).marker = s.marker := rfl
@[simp] theorem State.withFontCache_desc : (s.withFontCache).desc = s.desc := rfl
@[simp] theorem State.withFontCache_armed : (s.withFontCache).armed = s.armed := rfl
@[simp] theorem State.withFontCache_pending : (s.withFontCache).pending = s.pending := rfl
@[simp] theorem State.withFontCache_irqEn : (s.withFontCache).irqEn = s.irqEn := rfl
@[simp] theorem State.withFontCache_activeCh : (s.withFontCache).activeCh = s.activeCh := rfl
@[simp] theorem State.withFontCache_event : (s.withFontCache).event = s.event := rfl
@[simp] theorem State.withFontCache_out : (s.withFontCache).out = s.out := rfl
@[simp] theorem State.withFontCache_serIn : (s.withFontCache).serIn = s.serIn := rfl
@[simp] theorem State.withFontCache_wire : (s.withFontCache).wire = s.wire := rfl
@[simp] theorem State.withFontCache_port : (s.withFontCache).port = s.port := rfl
@[simp] theorem State.withFontCache_busy : (s.withFontCache).busy = s.busy := rfl
@[simp] theorem State.withFontCache_reply : (s.withFontCache).reply = s.reply := rfl
@[simp] theorem State.withFontCache_result : (s.withFontCache).result = s.result := rfl
@[simp] theorem State.withFontCache_invoke : (s.withFontCache).invoke = s.invoke := rfl
@[simp] theorem State.withFontCache_turns : (s.withFontCache).turns = s.turns := rfl
@[simp] theorem State.withFontCache_tick : (s.withFontCache).tick = s.tick := rfl
@[simp] theorem State.withFontCache_epoch : (s.withFontCache).epoch = s.epoch := rfl

/-! ## `State.primeStart` -/

@[simp] theorem State.primeStart_plat : (s.primeStart).plat = s.plat := rfl
@[simp] theorem State.primeStart_inited : (s.primeStart).inited = s.inited := rfl
@[simp] theorem State.primeStart_timing : (s.primeStart).timing = s.timing := rfl
@[simp] theorem State.primeStart_mode : (s.primeStart).mode = s.mode := rfl
@[simp] theorem State.primeStart_hShift : (s.primeStart).hShift = s.hShift := rfl
@[simp] theorem State.primeStart_vShift : (s.primeStart).vShift = s.vShift := rfl
@[simp] theorem State.primeStart_frameW : (s.primeStart).frameW = s.frameW := rfl
@[simp] theorem State.primeStart_frameH : (s.primeStart).frameH = s.frameH := rfl
@[simp] theorem State.primeStart_fb0 : (s.primeStart).fb0 = s.fb0 := rfl
@[simp] theorem State.primeStart_fb1 : (s.primeStart).fb1 = s.fb1 := rfl
@[simp] theorem State.primeStart_front : (s.primeStart).front = false := rfl
@[simp] theorem State.primeStart_flipReq : (s.primeStart).flipReq = false := rfl
@[simp] theorem State.primeStart_lb : (s.primeStart).lb = s.lb := rfl
@[simp] theorem State.primeStart_vScanline : (s.primeStart).vScanline = 0 := rfl
@[simp] theorem State.primeStart_clOn : (s.primeStart).clOn = s.clOn := rfl
@[simp] theorem State.primeStart_clOff : (s.primeStart).clOff = s.clOff := rfl
@[simp] theorem State.primeStart_hdr : (s.primeStart).hdr = s.hdr := rfl
@[simp] theorem State.primeStart_pal : (s.primeStart).pal = s.pal := rfl
@[simp] theorem State.primeStart_fc : (s.primeStart).fc = s.fc := rfl
@[simp] theorem State.primeStart_ch : (s.primeStart).ch = 0 := rfl
@[simp] theorem State.primeStart_marker : (s.primeStart).marker = none := rfl
@[simp] theorem State.primeStart_desc : (s.primeStart).desc = s.desc := rfl
@[simp] theorem State.primeStart_armed : (s.primeStart).armed = PerChannel.all false := rfl
@[simp] theorem State.primeStart_pending : (s.primeStart).pending = PerChannel.all false := rfl
@[simp] theorem State.primeStart_irqEn : (s.primeStart).irqEn = s.irqEn := rfl
@[simp] theorem State.primeStart_activeCh : (s.primeStart).activeCh = s.activeCh := rfl
@[simp] theorem State.primeStart_event : (s.primeStart).event = false := rfl
@[simp] theorem State.primeStart_out : (s.primeStart).out = s.out := rfl
@[simp] theorem State.primeStart_serIn : (s.primeStart).serIn = s.serIn := rfl
@[simp] theorem State.primeStart_wire : (s.primeStart).wire = s.wire := rfl
@[simp] theorem State.primeStart_port : (s.primeStart).port = s.port := rfl
@[simp] theorem State.primeStart_busy : (s.primeStart).busy = s.busy := rfl
@[simp] theorem State.primeStart_reply : (s.primeStart).reply = s.reply := rfl
@[simp] theorem State.primeStart_result : (s.primeStart).result = s.result := rfl
@[simp] theorem State.primeStart_invoke : (s.primeStart).invoke = s.invoke := rfl
@[simp] theorem State.primeStart_turns : (s.primeStart).turns = s.turns := rfl
@[simp] theorem State.primeStart_tick : (s.primeStart).tick = s.tick := rfl
@[simp] theorem State.primeStart_epoch : (s.primeStart).epoch = s.epoch := rfl

/-! ## `State.primed` -/

@[simp] theorem State.primed_plat : (s.primed).plat = s.plat := by simp [State.primed]
@[simp] theorem State.primed_inited : (s.primed).inited = s.inited := by simp [State.primed]
@[simp] theorem State.primed_timing : (s.primed).timing = s.timing := by simp [State.primed]
@[simp] theorem State.primed_mode : (s.primed).mode = s.mode := by simp [State.primed]
@[simp] theorem State.primed_hShift : (s.primed).hShift = s.hShift := by simp [State.primed]
@[simp] theorem State.primed_vShift : (s.primed).vShift = s.vShift := by simp [State.primed]
@[simp] theorem State.primed_frameW : (s.primed).frameW = s.frameW := by simp [State.primed]
@[simp] theorem State.primed_frameH : (s.primed).frameH = s.frameH := by simp [State.primed]
@[simp] theorem State.primed_fb0 : (s.primed).fb0 = s.fb0 := by simp [State.primed]
@[simp] theorem State.primed_fb1 : (s.primed).fb1 = s.fb1 := by simp [State.primed]
@[simp] theorem State.primed_clOn : (s.primed).clOn = s.clOn := by simp [State.primed]
@[simp] theorem State.primed_clOff : (s.primed).clOff = s.clOff := by simp [State.primed]
@[simp] theorem State.primed_hdr : (s.primed).hdr = s.hdr := by simp [State.primed]
@[simp] theorem State.primed_pal : (s.primed).pal = s.pal := by simp [State.primed]
@[simp] theorem State.primed_fc : (s.primed).fc = s.fc := by simp [State.primed]
@[simp] theorem State.primed_ch : (s.primed).ch = 0 := by simp [State.primed]
@[simp] theorem State.primed_pending : (s.primed).pending = PerChannel.all false := by simp [State.primed]
@[simp] theorem State.primed_irqEn : (s.primed).irqEn = true := by simp [State.primed]
@[simp] theorem State.primed_activeCh : (s.primed).activeCh = 0 := by simp [State.primed]
@[simp] theorem State.primed_out : (s.primed).out = s.out := by simp [State.primed]
@[simp] theorem State.primed_serIn : (s.primed).serIn = s.serIn := by simp [State.primed]
@[simp] theorem State.primed_wire : (s.primed).wire = s.wire := by simp [State.primed]
@[simp] theorem State.primed_port : (s.primed).port = s.port := by simp [State.primed]
@[simp] theorem State.primed_busy : (s.primed).busy = s.busy := by simp [State.primed]
@[simp] theorem State.primed_reply : (s.primed).reply = s.reply := by simp [State.primed]
@[simp] theorem State.primed_result : (s.primed).result = s.result := by simp [State.primed]
@[simp] theorem State.primed_invoke : (s.primed).invoke = s.invoke := by simp [State.primed]
@[simp] theorem State.primed_turns : (s.primed).turns = s.turns := by simp [State.primed]
@[simp] theorem State.primed_tick : (s.primed).tick = s.tick := by simp [State.primed]
@[simp] theorem State.primed_epoch : (s.primed).epoch = s.epoch := by simp [State.primed]

/-! ## `State.built` -/

@[simp] theorem State.built_plat :
    (s.built).plat = s.plat := by unfold State.built; simp only []; split <;> rfl
@[simp] theorem State.built_inited :
    (s.built).inited = s.inited := by unfold State.built; simp only []; split <;> rfl
@[simp] theorem State.built_timing :
    (s.built).timing = s.timing := by unfold State.built; simp only []; split <;> rfl
@[simp] theorem State.built_mode :
    (s.built).mode = s.mode := by unfold State.built; simp only []; split <;> rfl
@[simp] theorem State.built_hShift :
    (s.built).hShift = s.hShift := by unfold State.built; simp only []; split <;> rfl
@[simp] theorem State.built_vShift :
    (s.built).vShift = s.vShift := by unfold State.built; simp only []; split <;> rfl
@[simp] theorem State.built_frameW :
    (s.built).frameW = s.frameW := by unfold State.built; simp only []; split <;> rfl
@[simp] theorem State.built_frameH :
    (s.built).frameH = s.frameH := by unfold State.built; simp only []; split <;> rfl
@[simp] theorem State.built_fb0 : (s.built).fb0 = s.fb0 := by unfold State.built; simp only []; split <;> rfl
@[simp] theorem State.built_fb1 : (s.built).fb1 = s.fb1 := by unfold State.built; simp only []; split <;> rfl
@[simp] theorem State.built_front :
    (s.built).front = s.front := by unfold State.built; simp only []; split <;> rfl
@[simp] theorem State.built_flipReq :
    (s.built).flipReq = s.flipReq := by unfold State.built; simp only []; split <;> rfl
@[simp] theorem State.built_vScanline :
    (s.built).vScanline = s.vScanline := by unfold State.built; simp only []; split <;> rfl
@[simp] theorem State.built_clOn :
    (s.built).clOn = s.vlist true := by unfold State.built; simp only []; split <;> rfl
@[simp] theorem State.built_clOff :
    (s.built).clOff = s.vlist false := by unfold State.built; simp only []; split <;> rfl
@[simp] theorem State.built_hdr :
    (s.built).hdr = s.header := by unfold State.built; simp only []; split <;> rfl
@[simp] theorem State.built_pal : (s.built).pal = s.pal := by unfold State.built; simp only []; split <;> rfl
@[simp] theorem State.built_ch : (s.built).ch = s.ch := by unfold State.built; simp only []; split <;> rfl
@[simp] theorem State.built_marker :
    (s.built).marker = s.marker := by unfold State.built; simp only []; split <;> rfl
@[simp] theorem State.built_desc :
    (s.built).desc = s.desc := by unfold State.built; simp only []; split <;> rfl
@[simp] theorem State.built_armed :
    (s.built).armed = s.armed := by unfold State.built; simp only []; split <;> rfl
@[simp] theorem State.built_pending :
    (s.built).pending = s.pending := by unfold State.built; simp only []; split <;> rfl
@[simp] theorem State.built_irqEn :
    (s.built).irqEn = s.irqEn := by unfold State.built; simp only []; split <;> rfl
@[simp] theorem State.built_activeCh :
    (s.built).activeCh = s.activeCh := by unfold State.built; simp only []; split <;> rfl
@[simp] theorem State.built_event :
    (s.built).event = s.event := by unfold State.built; simp only []; split <;> rfl
@[simp] theorem State.built_out : (s.built).out = s.out := by unfold State.built; simp only []; split <;> rfl
@[simp] theorem State.built_serIn :
    (s.built).serIn = s.serIn := by unfold State.built; simp only []; split <;> rfl
@[simp] theorem State.built_wire :
    (s.built).wire = s.wire := by unfold State.built; simp only []; split <;> rfl
@[simp] theorem State.built_port :
    (s.built).port = s.port := by unfold State.built; simp only []; split <;> rfl
@[simp] theorem State.built_busy :
    (s.built).busy = s.busy := by unfold State.built; simp only []; split <;> rfl
@[simp] theorem State.built_reply :
    (s.built).reply = s.reply := by unfold State.built; simp only []; split <;> rfl
@[simp] theorem State.built_result :
    (s.built).result = s.result := by unfold State.built; simp only []; split <;> rfl
@[simp] theorem State.built_invoke :
    (s.built).invoke = s.invoke := by unfold State.built; simp only []; split <;> rfl
@[simp] theorem State.built_turns :
    (s.built).turns = s.turns := by unfold State.built; simp only []; split <;> rfl
@[simp] theorem State.built_tick :
    (s.built).tick = s.tick := by unfold State.built; simp only []; split <;> rfl
@[simp] theorem State.built_epoch :
    (s.built).epoch = s.epoch := by unfold State.built; simp only []; split <;> rfl

/-! ## `State.opened` -/

@[simp] theorem State.opened_plat : (s.opened).plat = s.plat := rfl
@[simp] theorem State.opened_inited : (s.opened).inited = true := rfl
@[simp] theorem State.opened_timing : (s.opened).timing = s.timing := rfl
@[simp] theorem State.opened_mode : (s.opened).mode = s.mode := rfl
@[simp] theorem State.opened_hShift : (s.opened).hShift = s.hShift := rfl
@[simp] theorem State.opened_vShift : (s.opened).vShift = s.vShift := rfl
@[simp] theorem State.opened_frameW : (s.opened).frameW = s.frameW := rfl
@[simp] theorem State.opened_frameH : (s.opened).frameH = s.frameH := rfl
@[simp] theorem State.opened_fb0 : (s.opened).fb0 = s.fb0 := rfl
@[simp] theorem State.opened_fb1 : (s.opened).fb1 = s.fb1 := rfl
@[simp] theorem State.opened_front : (s.opened).front = s.front := rfl
@[simp] theorem State.opened_flipReq : (s.opened).flipReq = s.flipReq := rfl
@[simp] theorem State.opened_lb : (s.opened).lb = s.lb := rfl
@[simp] theorem State.opened_vScanline : (s.opened).vScanline = s.vScanline := rfl
@[simp] theorem State.opened_clOn : (s.opened).clOn = s.clOn := rfl
@[simp] theorem State.opened_clOff : (s.opened).clOff = s.clOff := rfl
@[simp] theorem State.opened_hdr : (s.opened).hdr = s.hdr := rfl
@[simp] theorem State.opened_pal : (s.opened).pal = s.pal := rfl
@[simp] theorem State.opened_fc : (s.opened).fc = s.fc := rfl
@[simp] theorem State.opened_ch : (s.opened).ch = s.ch := rfl
@[simp] theorem State.opened_marker : (s.opened).marker = s.marker := rfl
@[simp] theorem State.opened_desc : (s.opened).desc = s.desc := rfl
@[simp] theorem State.opened_armed : (s.opened).armed = s.armed := rfl
@[simp] theorem State.opened_pending : (s.opened).pending = s.pending := rfl
@[simp] theorem State.opened_irqEn : (s.opened).irqEn = s.irqEn := rfl
@[simp] theorem State.opened_activeCh : (s.opened).activeCh = s.activeCh := rfl
@[simp] theorem State.opened_event : (s.opened).event = s.event := rfl
@[simp] theorem State.opened_out : (s.opened).out = [] := rfl
@[simp] theorem State.opened_serIn : (s.opened).serIn = [] := rfl
@[simp] theorem State.opened_wire : (s.opened).wire = [] := rfl
@[simp] theorem State.opened_port : (s.opened).port = s.port := rfl
@[simp] theorem State.opened_busy : (s.opened).busy = s.busy := rfl
@[simp] theorem State.opened_reply : (s.opened).reply = s.reply := rfl
@[simp] theorem State.opened_result : (s.opened).result = s.result := rfl
@[simp] theorem State.opened_invoke : (s.opened).invoke = s.invoke := rfl
@[simp] theorem State.opened_turns : (s.opened).turns = s.turns := rfl
@[simp] theorem State.opened_tick : (s.opened).tick = s.tick := rfl
@[simp] theorem State.opened_epoch : (s.opened).epoch = s.epoch := rfl

/-! ## `State.configured` -/

@[simp] theorem State.configured_plat (sel : Selection) (width height : Half) (m : Mode) :
    (s.configured sel width height m).plat = s.plat := rfl
@[simp] theorem State.configured_inited (sel : Selection) (width height : Half) (m : Mode) :
    (s.configured sel width height m).inited = s.inited := rfl
@[simp] theorem State.configured_timing (sel : Selection) (width height : Half) (m : Mode) :
    (s.configured sel width height m).timing = sel.timing := rfl
@[simp] theorem State.configured_mode (sel : Selection) (width height : Half) (m : Mode) :
    (s.configured sel width height m).mode = m := rfl
@[simp] theorem State.configured_hShift (sel : Selection) (width height : Half) (m : Mode) :
    (s.configured sel width height m).hShift = sel.hShift := rfl
@[simp] theorem State.configured_vShift (sel : Selection) (width height : Half) (m : Mode) :
    (s.configured sel width height m).vShift = sel.vShift := rfl
@[simp] theorem State.configured_frameW (sel : Selection) (width height : Half) (m : Mode) :
    (s.configured sel width height m).frameW = width := rfl
@[simp] theorem State.configured_frameH (sel : Selection) (width height : Half) (m : Mode) :
    (s.configured sel width height m).frameH = height := rfl
@[simp] theorem State.configured_fb0 (sel : Selection) (width height : Half) (m : Mode) :
    (s.configured sel width height m).fb0 = [] := rfl
@[simp] theorem State.configured_fb1 (sel : Selection) (width height : Half) (m : Mode) :
    (s.configured sel width height m).fb1 = [] := rfl
@[simp] theorem State.configured_front (sel : Selection) (width height : Half) (m : Mode) :
    (s.configured sel width height m).front = s.front := rfl
@[simp] theorem State.configured_flipReq (sel : Selection) (width height : Half) (m : Mode) :
    (s.configured sel width height m).flipReq = s.flipReq := rfl
@[simp] theorem State.configured_lb (sel : Selection) (width height : Half) (m : Mode) :
    (s.configured sel width height m).lb = s.lb := rfl
@[simp] theorem State.configured_vScanline (sel : Selection) (width height : Half) (m : Mode) :
    (s.configured sel width height m).vScanline = s.vScanline := rfl
@[simp] theorem State.configured_clOn (sel : Selection) (width height : Half) (m : Mode) :
    (s.configured sel width height m).clOn = s.clOn := rfl
@[simp] theorem State.configured_clOff (sel : Selection) (width height : Half) (m : Mode) :
    (s.configured sel width height m).clOff = s.clOff := rfl
@[simp] theorem State.configured_hdr (sel : Selection) (width height : Half) (m : Mode) :
    (s.configured sel width height m).hdr = s.hdr := rfl
@[simp] theorem State.configured_pal (sel : Selection) (width height : Half) (m : Mode) :
    (s.configured sel width height m).pal = s.pal := rfl
@[simp] theorem State.configured_fc (sel : Selection) (width height : Half) (m : Mode) :
    (s.configured sel width height m).fc = s.fc := rfl
@[simp] theorem State.configured_ch (sel : Selection) (width height : Half) (m : Mode) :
    (s.configured sel width height m).ch = s.ch := rfl
@[simp] theorem State.configured_marker (sel : Selection) (width height : Half) (m : Mode) :
    (s.configured sel width height m).marker = s.marker := rfl
@[simp] theorem State.configured_desc (sel : Selection) (width height : Half) (m : Mode) :
    (s.configured sel width height m).desc = s.desc := rfl
@[simp] theorem State.configured_armed (sel : Selection) (width height : Half) (m : Mode) :
    (s.configured sel width height m).armed = s.armed := rfl
@[simp] theorem State.configured_pending (sel : Selection) (width height : Half) (m : Mode) :
    (s.configured sel width height m).pending = s.pending := rfl
@[simp] theorem State.configured_irqEn (sel : Selection) (width height : Half) (m : Mode) :
    (s.configured sel width height m).irqEn = s.irqEn := rfl
@[simp] theorem State.configured_activeCh (sel : Selection) (width height : Half) (m : Mode) :
    (s.configured sel width height m).activeCh = s.activeCh := rfl
@[simp] theorem State.configured_event (sel : Selection) (width height : Half) (m : Mode) :
    (s.configured sel width height m).event = s.event := rfl
@[simp] theorem State.configured_out (sel : Selection) (width height : Half) (m : Mode) :
    (s.configured sel width height m).out = s.out := rfl
@[simp] theorem State.configured_serIn (sel : Selection) (width height : Half) (m : Mode) :
    (s.configured sel width height m).serIn = s.serIn := rfl
@[simp] theorem State.configured_wire (sel : Selection) (width height : Half) (m : Mode) :
    (s.configured sel width height m).wire = s.wire := rfl
@[simp] theorem State.configured_port (sel : Selection) (width height : Half) (m : Mode) :
    (s.configured sel width height m).port = s.port := rfl
@[simp] theorem State.configured_busy (sel : Selection) (width height : Half) (m : Mode) :
    (s.configured sel width height m).busy = s.busy := rfl
@[simp] theorem State.configured_reply (sel : Selection) (width height : Half) (m : Mode) :
    (s.configured sel width height m).reply = s.reply := rfl
@[simp] theorem State.configured_result (sel : Selection) (width height : Half) (m : Mode) :
    (s.configured sel width height m).result = s.result := rfl
@[simp] theorem State.configured_invoke (sel : Selection) (width height : Half) (m : Mode) :
    (s.configured sel width height m).invoke = s.invoke := rfl
@[simp] theorem State.configured_turns (sel : Selection) (width height : Half) (m : Mode) :
    (s.configured sel width height m).turns = s.turns := rfl
@[simp] theorem State.configured_tick (sel : Selection) (width height : Half) (m : Mode) :
    (s.configured sel width height m).tick = s.tick := rfl
@[simp] theorem State.configured_epoch (sel : Selection) (width height : Half) (m : Mode) :
    (s.configured sel width height m).epoch = s.epoch + 1 := rfl

/-! ## `State.opStep` -/

@[simp] theorem State.opStep_plat (op : HostOp) : (s.opStep op).plat = s.plat := by rw [State.opStep_eq]
@[simp] theorem State.opStep_inited (op : HostOp) : (s.opStep op).inited = s.inited := by rw [State.opStep_eq]
@[simp] theorem State.opStep_timing (op : HostOp) : (s.opStep op).timing = s.timing := by rw [State.opStep_eq]
@[simp] theorem State.opStep_mode (op : HostOp) : (s.opStep op).mode = s.mode := by rw [State.opStep_eq]
@[simp] theorem State.opStep_hShift (op : HostOp) : (s.opStep op).hShift = s.hShift := by rw [State.opStep_eq]
@[simp] theorem State.opStep_vShift (op : HostOp) : (s.opStep op).vShift = s.vShift := by rw [State.opStep_eq]
@[simp] theorem State.opStep_frameW (op : HostOp) : (s.opStep op).frameW = s.frameW := by rw [State.opStep_eq]
@[simp] theorem State.opStep_frameH (op : HostOp) : (s.opStep op).frameH = s.frameH := by rw [State.opStep_eq]
@[simp] theorem State.opStep_front (op : HostOp) : (s.opStep op).front = s.front := by rw [State.opStep_eq]
@[simp] theorem State.opStep_flipReq (op : HostOp) :
    (s.opStep op).flipReq = s.flipReq := by rw [State.opStep_eq]
@[simp] theorem State.opStep_lb (op : HostOp) : (s.opStep op).lb = s.lb := by rw [State.opStep_eq]
@[simp] theorem State.opStep_vScanline (op : HostOp) :
    (s.opStep op).vScanline = s.vScanline := by rw [State.opStep_eq]
@[simp] theorem State.opStep_clOn (op : HostOp) : (s.opStep op).clOn = s.clOn := by rw [State.opStep_eq]
@[simp] theorem State.opStep_clOff (op : HostOp) : (s.opStep op).clOff = s.clOff := by rw [State.opStep_eq]
@[simp] theorem State.opStep_hdr (op : HostOp) : (s.opStep op).hdr = s.hdr := by rw [State.opStep_eq]
@[simp] theorem State.opStep_pal (op : HostOp) : (s.opStep op).pal = s.pal := by rw [State.opStep_eq]
@[simp] theorem State.opStep_fc (op : HostOp) : (s.opStep op).fc = s.fc := by rw [State.opStep_eq]
@[simp] theorem State.opStep_ch (op : HostOp) : (s.opStep op).ch = s.ch := by rw [State.opStep_eq]
@[simp] theorem State.opStep_marker (op : HostOp) : (s.opStep op).marker = s.marker := by rw [State.opStep_eq]
@[simp] theorem State.opStep_desc (op : HostOp) : (s.opStep op).desc = s.desc := by rw [State.opStep_eq]
@[simp] theorem State.opStep_armed (op : HostOp) : (s.opStep op).armed = s.armed := by rw [State.opStep_eq]
@[simp] theorem State.opStep_pending (op : HostOp) :
    (s.opStep op).pending = s.pending := by rw [State.opStep_eq]
@[simp] theorem State.opStep_irqEn (op : HostOp) : (s.opStep op).irqEn = s.irqEn := by rw [State.opStep_eq]
@[simp] theorem State.opStep_activeCh (op : HostOp) :
    (s.opStep op).activeCh = s.activeCh := by rw [State.opStep_eq]
@[simp] theorem State.opStep_out (op : HostOp) : (s.opStep op).out = s.out := by rw [State.opStep_eq]
@[simp] theorem State.opStep_serIn (op : HostOp) : (s.opStep op).serIn = s.serIn := by rw [State.opStep_eq]
@[simp] theorem State.opStep_wire (op : HostOp) : (s.opStep op).wire = s.wire := by rw [State.opStep_eq]
@[simp] theorem State.opStep_port (op : HostOp) : (s.opStep op).port = s.port := by rw [State.opStep_eq]
@[simp] theorem State.opStep_result (op : HostOp) : (s.opStep op).result = s.result := by rw [State.opStep_eq]
@[simp] theorem State.opStep_invoke (op : HostOp) : (s.opStep op).invoke = s.invoke := by rw [State.opStep_eq]
@[simp] theorem State.opStep_turns (op : HostOp) : (s.opStep op).turns = s.turns := by rw [State.opStep_eq]
@[simp] theorem State.opStep_tick (op : HostOp) : (s.opStep op).tick = s.tick := by rw [State.opStep_eq]
@[simp] theorem State.opStep_epoch (op : HostOp) : (s.opStep op).epoch = s.epoch := by rw [State.opStep_eq]

end Sys2Proof.Machine
end

