-- ==== Sys2Proof/Laws/Memory.lean ====
section
/-!
SUPPORT. The sparse memory: a read after a write, the canonical form and the bounds are kept by every memory operation;
then the same for the frame buffers and the palette.
-/

namespace Sys2Proof.Machine

section Store

variable {α : Type}

theorem storeGet_storePut_same (m : List (Nat × α)) (a : Nat) (v : α) :
    storeGet (storePut m a v) a = some v := by
  induction m with
  | nil => simp [storePut, storeGet]
  | cons c rest ih =>
    obtain ⟨b, w⟩ := c
    unfold storePut
    split
    · simp [storeGet]
    · split
      · simp [storeGet]
      · simp [storeGet, *]

theorem storeGet_storePut_ne (m : List (Nat × α)) {a b : Nat} (v : α) (h : b ≠ a) :
    storeGet (storePut m a v) b = storeGet m b := by
  induction m with
  | nil => simp [storePut, storeGet, h]
  | cons c rest ih =>
    obtain ⟨k, w⟩ := c
    unfold storePut
    split
    · rw [storeGet, if_neg h]
    · split
      · rename_i _ hk
        subst hk
        simp [storeGet, h]
      · simp [storeGet, ih]

theorem storeGet_storePut (m : List (Nat × α)) (a b : Nat) (v : α) :
    storeGet (storePut m a v) b = if b = a then some v else storeGet m b := by
  split
  · next h => subst h; exact storeGet_storePut_same m _ v
  · next h => exact storeGet_storePut_ne m v h

/-- The canonical form of a memory with a first entry: the rest has it, and lies above. -/
theorem Memory.wf_cons (a : Nat) (v : α) (m : List (Nat × α)) :
    Memory.wf ((a, v) :: m) = true ↔ Memory.wf m = true ∧ ∀ c ∈ m, a < c.1 := by
  induction m generalizing a v with
  | nil => simp [Memory.wf]
  | cons c rest ih =>
    obtain ⟨b, w⟩ := c
    simp only [Memory.wf, Bool.and_eq_true, decide_eq_true_eq, List.mem_cons, forall_eq_or_imp]
    constructor
    · rintro ⟨h, hw⟩
      exact ⟨hw, h, fun c hc => lt_trans h (((ih b w).1 hw).2 c hc)⟩
    · rintro ⟨hw, h, -⟩
      exact ⟨h, hw⟩

theorem mem_storePut {m : List (Nat × α)} {a : Nat} {v : α} {c : Nat × α} (h : c ∈ storePut m a v) :
    c = (a, v) ∨ c ∈ m := by
  induction m with
  | nil => simpa [storePut] using h
  | cons d rest ih =>
    obtain ⟨b, w⟩ := d
    unfold storePut at h
    split at h
    · simpa using h
    · split at h
      · simp only [List.mem_cons] at h ⊢; tauto
      · simp only [List.mem_cons] at h ⊢; tauto

/-- A write keeps the canonical form. -/
theorem Memory.wf_storePut {m : List (Nat × α)} (h : Memory.wf m = true) (a : Nat) (v : α) :
    Memory.wf (storePut m a v) = true := by
  induction m with
  | nil => rfl
  | cons c rest ih =>
    obtain ⟨b, w⟩ := c
    obtain ⟨hr, hb⟩ := (Memory.wf_cons b w rest).1 h
    unfold storePut
    split
    · next hlt =>
      refine (Memory.wf_cons a v _).2 ⟨h, ?_⟩
      simp only [List.mem_cons, forall_eq_or_imp]
      exact ⟨hlt, fun c hc => lt_trans hlt (hb c hc)⟩
    · split
      · next heq => subst heq; exact (Memory.wf_cons a v _).2 ⟨hr, hb⟩
      · next hlt hne =>
        refine (Memory.wf_cons b w _).2 ⟨ih hr, fun c hc => ?_⟩
        rcases mem_storePut hc with rfl | hm
        · show b < a; omega
        · exact hb c hm

/-- A write inside the bound of a value that meets the test keeps a memory within both. -/
theorem storeWithin_storePut {bound : Nat} {ok : α → Bool} {m : List (Nat × α)}
    (h : storeWithin bound ok m = true) {a : Nat} {v : α} (ha : a < bound) (hv : ok v = true) :
    storeWithin bound ok (storePut m a v) = true := by
  simp only [storeWithin, List.all_eq_true, Bool.and_eq_true, decide_eq_true_eq] at h ⊢
  intro c hc
  rcases mem_storePut hc with rfl | hm
  · exact ⟨ha, hv⟩
  · exact h c hm

end Store

/-! ## The frame buffers -/

variable {s t : State}

theorem State.fb_withFb (b c : Bool) (m : List Host.Cell) :
    (s.withFb b m).fb c = if c = b then m else s.fb c := by
  cases b <;> cases c <;> rfl

/-- What a byte of a frame buffer reads as depends on the two memories and the epoch only. -/
theorem State.readFb8_congr (h0 : t.fb0 = s.fb0) (h1 : t.fb1 = s.fb1) (he : t.epoch = s.epoch)
    (b : Bool) (a : Nat) : t.readFb8 b a = s.readFb8 b a := by
  simp only [State.readFb8, State.fb, h0, h1, he]

theorem State.readFb16_congr (h0 : t.fb0 = s.fb0) (h1 : t.fb1 = s.fb1) (he : t.epoch = s.epoch)
    (b : Bool) (a : Nat) : t.readFb16 b a = s.readFb16 b a := by
  simp only [State.readFb16, State.readFb8_congr h0 h1 he]

theorem State.readUnit_congr (h0 : t.fb0 = s.fb0) (h1 : t.fb1 = s.fb1) (he : t.epoch = s.epoch)
    (hm : t.mode = s.mode) (b : Bool) (n : Nat) : t.readUnit b n = s.readUnit b n := by
  simp only [State.readUnit, hm, State.readFb8_congr h0 h1 he, State.readFb16_congr h0 h1 he]

/-- A byte read after a byte write. -/
theorem State.readFb8_writeFb8 (b c : Bool) (off a : Nat) (v : Byte) :
    (s.writeFb8 b off v).readFb8 c a = if c = b ∧ a = off then v else s.readFb8 c a := by
  unfold State.readFb8 State.writeFb8
  rw [State.fb_withFb]
  by_cases hc : c = b
  · subst hc
    rw [if_pos rfl, storeGet_storePut]
    by_cases ha : a = off <;> simp [ha]
  · simp [hc]

/-- A byte read after a 16-bit write. -/
theorem State.readFb8_writeFb16 (b c : Bool) (off a : Nat) (v : Half) :
    (s.writeFb16 b off v).readFb8 c a =
      if c = b ∧ a = off + 1 then halfByte v 1
      else if c = b ∧ a = off then halfByte v 0 else s.readFb8 c a := by
  simp only [State.writeFb16, State.readFb8_writeFb8]

/-- The bytes a write of unit `n` does not store keep their value. -/
theorem State.readFb8_writeUnit_frame (b c : Bool) (n a : Nat) (v : Word)
    (h : c ≠ b ∨ a < unitOffset s.mode n ∨ unitOffset s.mode n + unitBytes s.mode ≤ a) :
    (s.writeUnit b n v).readFb8 c a = s.readFb8 c a := by
  unfold State.writeUnit
  cases hm : s.mode <;> simp only [hm, unitOffset, unitBytes] at h ⊢ <;>
    simp only [State.readFb8_writeFb16, State.readFb8_writeFb8]
  · rw [if_neg, if_neg] <;> rintro ⟨rfl, rfl⟩ <;> simp at h
  all_goals (rw [if_neg]; rintro ⟨rfl, rfl⟩; simp at h)

/-- A write to `FB[b]` keeps both memories in their canonical form. -/
theorem State.wf_writeFb8 (h0 : Memory.wf s.fb0 = true) (h1 : Memory.wf s.fb1 = true)
    (b : Bool) (off : Nat) (v : Byte) :
    Memory.wf (s.writeFb8 b off v).fb0 = true ∧ Memory.wf (s.writeFb8 b off v).fb1 = true := by
  cases b
  · exact ⟨Memory.wf_storePut h0 off v, h1⟩
  · exact ⟨h0, Memory.wf_storePut h1 off v⟩

theorem State.wf_writeFb16 (h0 : Memory.wf s.fb0 = true) (h1 : Memory.wf s.fb1 = true)
    (b : Bool) (off : Nat) (v : Half) :
    Memory.wf (s.writeFb16 b off v).fb0 = true ∧ Memory.wf (s.writeFb16 b off v).fb1 = true :=
  State.wf_writeFb8 (State.wf_writeFb8 h0 h1 b off _).1 (State.wf_writeFb8 h0 h1 b off _).2 b _ _

theorem State.wf_writeUnit (h0 : Memory.wf s.fb0 = true) (h1 : Memory.wf s.fb1 = true)
    (b : Bool) (n : Nat) (v : Word) :
    Memory.wf (s.writeUnit b n v).fb0 = true ∧ Memory.wf (s.writeUnit b n v).fb1 = true := by
  unfold State.writeUnit
  split
  · exact State.wf_writeFb16 h0 h1 b _ _
  all_goals exact State.wf_writeFb8 h0 h1 b _ _

/-- One access of the host operation under way keeps both memories in their canonical form. -/
theorem State.wf_opStep (h0 : Memory.wf s.fb0 = true) (h1 : Memory.wf s.fb1 = true) (op : HostOp) :
    Memory.wf (s.opStep op).fb0 = true ∧ Memory.wf (s.opStep op).fb1 = true := by
  have w8 := fun b off v => State.wf_writeFb8 h0 h1 b off v
  have wu := fun b n v => State.wf_writeUnit h0 h1 b n v
  cases op with
  | clear b off => simpa [State.opStep] using w8 b off 0
  | pixel b n v => simpa [State.opStep] using wu b n v
  | spanFill b n len v => simpa [State.opStep] using wu b n v
  | spanCopy b n data =>
    cases data with
    | nil => simpa [State.opStep] using ⟨h0, h1⟩
    | cons v rest => simpa [State.opStep] using wu b n v
  | readSpan b n len got => simp only [State.opStep]; split <;> simpa using ⟨h0, h1⟩
  | text b n bytes attr attrNext =>
    cases bytes with
    | nil => simpa [State.opStep] using ⟨h0, h1⟩
    | cons c rest =>
      simp only [State.opStep]
      split
      · simpa using w8 b (s.attrOffset n) attr
      · split <;> simpa using w8 b n c
  | waitFlip asleep =>
    cases asleep
    · change Memory.wf s.checkFlip.fb0 = true ∧ Memory.wf s.checkFlip.fb1 = true
      unfold State.checkFlip; split <;> simpa using ⟨h0, h1⟩
    · exact ⟨h0, h1⟩
  | waitVsync asleep =>
    cases asleep
    · change Memory.wf s.checkVsync.fb0 = true ∧ Memory.wf s.checkVsync.fb1 = true
      unfold State.checkVsync; split <;> simpa using ⟨h0, h1⟩
    · exact ⟨h0, h1⟩

/-! ## The palette -/

theorem State.readPal_congr (h : t.pal = s.pal) (i : Byte) : t.readPal i = s.readPal i := by
  simp only [State.readPal, h]

/-- An entry read after an entry is written. -/
theorem State.readPal_writePal (i j : Byte) (w : Word) :
    (s.writePal i w).readPal j = if j = i then w else s.readPal j := by
  unfold State.readPal
  rw [State.writePal_pal, storeGet_storePut]
  by_cases h : j = i
  · simp [h]
  · rw [if_neg h, if_neg fun hn => h (BitVec.eq_of_toNat_eq hn)]

theorem State.wf_writePal (h : Memory.wf s.pal = true) (i : Byte) (w : Word) :
    Memory.wf (s.writePal i w).pal = true := Memory.wf_storePut h _ w

/-- The memories of the machine after reset list nothing, which is the canonical form. -/
theorem reset_memory_wf : Memory.wf State.reset.fb0 = true ∧ Memory.wf State.reset.fb1 = true ∧
    Memory.wf State.reset.pal = true := ⟨rfl, rfl, rfl⟩

end Sys2Proof.Machine
end

