-- ==== Sys2Proof/Laws/Machine.lean ====
section
/-!
SUPPORT. The channels, what each shared operation can answer, one access at a time to the end of an operation, and what
a step of the machine can be.
-/

namespace Sys2Proof.Machine

/-! ## Channels -/

theorem chain_eq (k : Channel) : chain k = k + 1 := by
  fin_cases k <;> rfl

section

variable {α : Type}

@[simp] theorem PerChannel.get_set_same (v : PerChannel α) (k : Channel) (a : α) :
    (v.set k a).get k = a := by
  fin_cases k <;> rfl

theorem PerChannel.get_set_ne (v : PerChannel α) {k j : Channel} (a : α) (h : j ≠ k) :
    (v.set k a).get j = v.get j := by
  fin_cases k <;> fin_cases j <;> first | rfl | exact absurd rfl h

theorem PerChannel.get_set (v : PerChannel α) (k j : Channel) (a : α) :
    (v.set k a).get j = if j = k then a else v.get j := by
  split
  · next h => subst h; exact PerChannel.get_set_same v _ a
  · next h => exact PerChannel.get_set_ne v a h

@[simp] theorem PerChannel.get_all (a : α) (k : Channel) : (PerChannel.all a).get k = a := by
  fin_cases k <;> rfl

/-- Two vectors that agree on every channel are equal. -/
theorem PerChannel.ext_get {v w : PerChannel α} (h : ∀ k : Channel, v.get k = w.get k) : v = w := by
  obtain ⟨a, b, c⟩ := v
  obtain ⟨d, e, f⟩ := w
  have h0 := h 0
  have h1 := h 1
  have h2 := h 2
  simp [PerChannel.get] at h0 h1 h2
  simp [h0, h1, h2]

/-- Writes to two different channels commute. -/
theorem PerChannel.set_comm (v : PerChannel α) {k j : Channel} (a b : α) (h : k ≠ j) :
    (v.set k a).set j b = (v.set j b).set k a := by
  fin_cases k <;> fin_cases j <;> first | rfl | exact absurd rfl h

/-- Every channel is one of three. -/
theorem Channel.cases3 (k : Channel) : k = 0 ∨ k = 1 ∨ k = 2 := by
  fin_cases k <;> simp

end

/-! ## What the shared operations can answer -/

variable {s t : State} {k : Outcome'}

/-- Two next states are the same outcome just when they are the same state. -/
theorem next_eq_iff : (Host.Outcome.next s : Outcome') = .next t ↔ t = s :=
  ⟨fun h => (Host.Outcome.next.inj h).symm, fun h => by rw [h]⟩

theorem whenInited_next : whenInited s k = .next t ↔ s.inited = true ∧ k = .next t := by
  unfold whenInited; split <;> simp_all

theorem whenInited_of (h : s.inited = true) : whenInited s k = k := by simp [whenInited, h]

theorem whenInited_not (h : s.inited = false) : whenInited s k = .refused .notInitialised := by
  simp [whenInited, h]

theorem whenFont_next : whenFont s k = .next t ↔ Platform.fontReady s.plat = true ∧ k = .next t := by
  unfold whenFont; split <;> simp_all

theorem whenFillable_next : whenFillable s k = .next t ↔
    (Mode.isText s.mode = true → Platform.fontReady s.plat = true) ∧ k = .next t := by
  unfold whenFillable
  cases Mode.isText s.mode <;> cases Platform.fontReady s.plat <;> simp

theorem whenFillable_of (h : Mode.isText s.mode = true → Platform.fontReady s.plat = true) :
    whenFillable s k = k := by
  unfold whenFillable
  cases hm : Mode.isText s.mode
  · simp
  · simp [h hm]

theorem raise_next {e : Exc} : raise e s = .next t ↔ e = .configError ∧ t = s.replied [statusFail] := by
  cases e <;> simp only [raise, next_eq_iff] <;> simp

theorem graphicAccess_next {x y : Half} {len : Nat} {values : List Word} :
    graphicAccess s x y len values k = .next t ↔
      s.inited = true ∧ Mode.isText s.mode = false ∧ values.all (valueFits s.mode) = true ∧
        s.inBounds x y len = true ∧ k = .next t := by
  unfold graphicAccess
  rw [whenInited_next]
  cases Mode.isText s.mode <;> cases values.all (valueFits s.mode) <;> cases s.inBounds x y len <;>
    simp [raise]

theorem textAccess_next {x y : Half} {len : Nat} :
    textAccess s x y len k = .next t ↔
      s.inited = true ∧ Mode.isText s.mode = true ∧ s.inBounds x y len = true ∧ k = .next t := by
  unfold textAccess
  rw [whenInited_next]
  cases Mode.isText s.mode <;> cases s.inBounds x y len <;> simp [raise]

theorem fillAccess_next {m : Mode} {j y : Nat} {u : State} :
    fillAccess m j y s u = .next t ↔
      s.inited = true ∧ s.mode = m ∧ (Mode.isText m = true → Platform.fontReady s.plat = true) ∧
        s.fillDomain j y = true ∧ t = u := by
  unfold fillAccess
  rw [whenInited_next]
  by_cases hm : s.mode = m
  · cases Mode.isText m <;> cases Platform.fontReady s.plat <;> cases s.fillDomain j y <;>
      simp [hm] <;> exact fun _ => eq_comm
  · simp [hm]

theorem inBounds_iff {x y : Half} {len : Nat} : s.inBounds x y len = true ↔
    x.toNat < s.frameW.toNat ∧ y.toNat < s.frameH.toNat ∧ s.linear x y + len ≤ s.units := by
  simp [State.inBounds, and_assoc]

theorem outside_iff {x y : Half} {len : Nat} : s.outside x y len ↔ s.inBounds x y len = false := by
  rw [← Bool.not_eq_true, inBounds_iff]
  simp only [State.linear, State.units]
  omega

/-- What a font meets that an operation may use: the bounds of R108 and R109. -/
theorem fontOk_iff {f : Font} : fontOk f = true ↔
    1 ≤ f.glyphH ∧ f.baseline ≤ f.glyphH ∧ f.firstCode + f.glyphs.length ≤ 256 ∧
      ∀ g ∈ f.glyphs, g.bitmapOffset + (g.width * g.height + 3) / 4 ≤ f.blob.length := by
  simp [fontOk, glyphOk, and_assoc]

theorem fillDomain_iff {j y : Nat} : s.fillDomain j y = true ↔ j < s.pool ∧ y < s.rows := by
  simp [State.fillDomain]

/-- `XFER` either misses its deadline or sends the line of an armed channel. -/
theorem execXfer_next : execXfer s = .next t ↔
    s.inited = true ∧ s.armed.get s.activeCh = true ∧ t = s.transfer s.activeCh := by
  unfold execXfer
  rw [whenInited_next]
  cases s.armed.get s.activeCh <;> simp [raise]; exact fun _ => eq_comm

theorem refillEnabled_iff : s.refillEnabled = true ↔
    s.inited = true ∧ s.irqEn = true ∧ s.pending.get s.ch = true := by
  simp [State.refillEnabled, and_assoc]

theorem execRefill_next : execRefill s = .next t ↔
    s.refillEnabled = true ∧ (Mode.isText s.mode = true → Platform.fontReady s.plat = true) ∧
      t = s.refilled := by
  unfold execRefill
  cases s.refillEnabled
  · simp
  · simp only [if_true, whenFillable_next, true_and, next_eq_iff]

/-- The line buffers after `REFILL` for an active scanline: those of the reuse test. -/
theorem refilled_lb_of_active (h : s.classOf s.vScanline.toNat = .active) : s.refilled.lb =
    (s.fillUnlessMarked (s.slotOf s.ch (s.rowOf s.vScanline.toNat)) (s.rowOf s.vScanline.toNat)).lb := by
  have hc : (handlerEntry s).classOf (handlerEntry s).vScanline.toNat = .active := h
  have e : s.refilled.lb = ((handlerEntry s).pointChannel s.ch).lb := by
    simp [State.refilled, handlerReturn, State.programChannel]
  rw [e, State.pointChannel, hc]
  change ((handlerEntry s).fillUnlessMarked (s.slotOf s.ch (s.rowOf s.vScanline.toNat))
    (s.rowOf s.vScanline.toNat)).lb = _
  unfold State.fillUnlessMarked
  rw [handlerEntry_marker]
  split
  · rfl
  · change ((handlerEntry s).fillLine _ _).lb = (s.fillLine _ _).lb
    unfold State.fillLine
    rw [handlerEntry_mode]
    split <;> rfl

/-- INIT either fails, with the status -1 beside the RESET state, or commits. -/
theorem execInit_next {width height : Half} {mode : Mode} (h : execInit width height mode s = .next t) :
    t = s.afterReset.replied [statusFail] ∨
      ∃ sel, selectTiming s.afterReset.plat width height mode = some sel ∧
        validTiming sel.timing = true ∧
        Platform.clockOk s.afterReset.plat sel.timing.bitClk = true ∧
        t = (s.afterReset.committed sel width height mode).replied [statusOk] := by
  unfold execInit initFrom at h
  split at h
  · exact .inl (raise_next.1 h).2
  · split at h
    · cases h
    · split at h
      · exact .inl (raise_next.1 h).2
      · next sel hsel =>
        split at h
        · split at h
          · exact .inr ⟨sel, hsel, ‹_›, ‹_›, next_eq_iff.1 h⟩
          · exact absurd (raise_next.1 h).1 (by simp)
        · exact .inl (raise_next.1 h).2

@[simp] theorem afterReset_plat : s.afterReset.plat = s.plat := by
  unfold State.afterReset; split <;> rfl

@[simp] theorem afterReset_inited : s.afterReset.inited = false := by
  unfold State.afterReset
  split
  · rfl
  · simpa using ‹¬s.inited = true›

/-! ## An operation under way, to its end -/

theorem State.finishOp_none (n : Nat) (h : s.busy = none) : State.finishOp n s = s := by
  cases n <;> simp [State.finishOp, h]

theorem State.finishOp_succ (n : Nat) {op : HostOp} (h : s.busy = some op) :
    State.finishOp (n + 1) s = State.finishOp n (s.opStep op) := by
  simp [State.finishOp, h]

/-- What does not change in one access does not change in the whole operation. -/
theorem State.finishOp_keep {β : Type} (f : State → β) (h : ∀ u op, f (State.opStep u op) = f u)
    (n : Nat) (u : State) : f (State.finishOp n u) = f u := by
  induction n generalizing u with
  | zero => rfl
  | succ n ih =>
    unfold State.finishOp
    split
    · rfl
    · rw [ih, h]

/-! ## What a step can be -/

/-- The application's turn: an access of the operation under way, nothing, or the operation at the host
port. -/
theorem appTurn_next (h : appTurn s = .next t) :
    (∃ op, s.busy = some op ∧ t = s.opStep op) ∨ (s.busy = none ∧ s.port = [] ∧ t = s) ∨
      ∃ i rest, s.busy = none ∧ decodeH s.port = .ok (i, rest) ∧
        exec i { s with port := rest } = .next t := by
  unfold appTurn at h
  split at h
  · next op hb => cases h; exact .inl ⟨op, hb, rfl⟩
  · next hb =>
    split at h
    · next hp => cases h; exact .inr (.inl ⟨hb, hp, rfl⟩)
    · split at h
      · next i rest hd => exact .inr (.inr ⟨i, rest, hb, hd, h⟩)
      · cases h

/-- The handler's turn: nothing, or its invocation. -/
theorem handlerTurn_next (h : handlerTurn s = .next t) :
    t = s ∨ (s.refillEnabled = true ∧ exec .refill s = .next t) := by
  unfold handlerTurn decodeE at h
  split at h
  · next hi =>
    split at h
    · next i hd =>
      split at hd
      · next hb =>
        cases hd
        exact .inr ⟨by simpa [exec, execRefill] using (execRefill_next.1 h).1, h⟩
      · cases hd
    · cases h; exact .inl rfl
  · cases h; exact .inl rfl

/-- The ring's turn: nothing, or a transfer. -/
theorem dmaTurn_next (h : dmaTurn s = .next t) :
    (s.inited = false ∧ t = s) ∨ (s.inited = true ∧ exec .xfer s = .next t) := by
  unfold dmaTurn State.xferEnabled at h
  split at h
  · exact .inr ⟨‹_›, h⟩
  · cases h; exact .inl ⟨by simpa using ‹¬s.inited = true›, rfl⟩

/-- The serial peripheral's turn changes its own two fields only. -/
theorem serialTurn_next (h : serialTurn s = .next t) :
    t = { s with serIn := t.serIn, wire := t.wire } := by
  unfold serialTurn at h
  split at h
  · cases h; rfl
  · cases h; rfl
  · next w rest lines hs =>
    split at h
    · next i hd =>
      have hi : (∃ n, i = .rawRepeat n) ∨ ∃ n, i = .stream n := by
        unfold decodeC at hd
        split at hd
        · cases hd; exact .inl ⟨_, rfl⟩
        · split at hd
          · cases hd; exact .inr ⟨_, rfl⟩
          · cases hd
      rcases hi with ⟨n, rfl⟩ | ⟨n, rfl⟩
      · simp only [exec, execRawRepeat] at h
        split at h
        · cases h
        · split at h
          · cases h; rfl
          · cases h
      · simp only [exec, execStream] at h
        split at h
        · cases h
        · split at h
          · cases h; rfl
          · cases h
    · cases h

/-- A step with no operation to run by name is the turn of one agent. -/
theorem step_next (hi : s.invoke = []) (h : step s = .next t) :
    (s.nextTurn = .app ∧ appTurn s.took = .next t) ∨
    (s.nextTurn = .handler ∧ handlerTurn s.took = .next t) ∨
    (s.nextTurn = .dma ∧ dmaTurn s.took = .next t) ∨
    (s.nextTurn = .serial ∧ serialTurn s.took = .next t) := by
  unfold step at h
  rw [hi] at h
  simp only [agentTurn] at h
  cases ha : s.nextTurn <;> rw [ha] at h <;> simp [h]

theorem ite_answers {P : Prop} {c : Prop} [Decidable c] {a b : Decoded} {x : Instr × List Word}
    (ha : a = .ok x → P) (hb : b = .ok x → P) (h : (if c then a else b) = .ok x) : P := by
  by_cases hc : c
  · exact ha (by rwa [if_pos hc] at h)
  · exact hb (by rwa [if_neg hc] at h)

theorem decodeBare_format {j : Instr} {flg : Byte} {a : Half} {r : List Word} {x : Instr × List Word}
    (hj : j.format = .h) (h : decodeBare j flg a r = .ok x) : x.1.format = .h := by
  unfold decodeBare at h
  split at h <;> cases h
  exact hj

/-- A host operation that the decoder answers is one of the fifteen. -/
theorem decodeH_format {ws : List Word} {x : Instr × List Word} (h : decodeH ws = .ok x) :
    x.1.format = .h := by
  cases ws with
  | nil => cases h
  | cons w0 ws =>
    revert h
    unfold decodeH decodeOp
    have bare := fun {j : Instr} (hj : j.format = .h) (r : List Word) {flg : Byte} {a : Half} =>
      decodeBare_format (j := j) (flg := flg) (a := a) (r := r) (x := x) hj
    refine ite_answers ?_ (ite_answers (bare rfl _) (ite_answers (bare rfl _)
      (ite_answers (bare rfl _) (ite_answers (bare rfl _) (ite_answers (bare rfl _)
      (ite_answers (bare rfl _) (ite_answers (bare rfl _) (ite_answers ?_ (ite_answers ?_
      (ite_answers ?_ (ite_answers ?_ (ite_answers ?_ (ite_answers (bare rfl _)
      (ite_answers ?_ ?_))))))))))))))
    · cases ws with
      | nil => intro h; cases h
      | cons w1 rest =>
        intro h
        simp only [decodeInit] at h
        split at h <;> cases h
        rfl
    · rcases ws with _ | ⟨w1, _ | ⟨w2, rest⟩⟩ <;> intro h
      · cases h
      · cases h
      · exact bare rfl _ h
    · rcases ws with _ | ⟨w1, _ | ⟨w2, rest⟩⟩ <;> intro h
      · cases h
      · cases h
      · exact bare rfl _ h
    · rcases ws with _ | ⟨w1, rest⟩ <;> intro h
      · cases h
      · simp only [decodeWriteSpanCopy] at h
        split at h
        · cases h
        · exact bare rfl _ h
    · rcases ws with _ | ⟨w1, rest⟩ <;> intro h
      · cases h
      · exact bare rfl _ h
    · rcases ws with _ | ⟨w1, rest⟩ <;> intro h
      · cases h
      · exact bare rfl _ h
    · rcases ws with _ | ⟨w1, _ | ⟨w2, rest⟩⟩ <;> intro h
      · cases h
      · cases h
      · simp only [decodeWriteText] at h
        split at h
        · cases h
        · split at h <;> cases h
          rfl
    · intro h; cases h

end Sys2Proof.Machine
end

