-- ==== Sys2Proof/Laws/PerInstr.lean ====
section
/-!
SUPPORT. Statements made for every operation, one lemma for each constructor of `Instr`.
-/

namespace Sys2Proof.Laws

/-- The encoding of a well-formed host operation starts with a word that carries its opcode, and the
length that R77 reads from that word is the length of the encoding (R73, R74, R77). -/
def EncodeLength.Statement (i : Instr) : Prop :=
  i.wellFormed = true → i.format = .h →
    ∃ w0 ws, encode i = w0 :: ws ∧ opcField w0 = i.opcode ∧ wordsAfter w0 = ws.length

theorem EncodeLength.init (width height : Half) (mode : Mode) : EncodeLength.Statement (.init width height mode) :=
  fun _ _ => ⟨_, _, rfl, opcField_packW0 .., by simp [wordsAfter]⟩

theorem EncodeLength.reset : EncodeLength.Statement .reset :=
  fun _ _ => ⟨_, _, rfl, opcField_packW0 .., by simp [wordsAfter]⟩

theorem EncodeLength.flipAsync : EncodeLength.Statement .flipAsync :=
  fun _ _ => ⟨_, _, rfl, opcField_packW0 .., by simp [wordsAfter]⟩

theorem EncodeLength.flipBlocking : EncodeLength.Statement .flipBlocking :=
  fun _ _ => ⟨_, _, rfl, opcField_packW0 .., by simp [wordsAfter]⟩

theorem EncodeLength.flipNow : EncodeLength.Statement .flipNow :=
  fun _ _ => ⟨_, _, rfl, opcField_packW0 .., by simp [wordsAfter]⟩

theorem EncodeLength.waitVsync : EncodeLength.Statement .waitVsync :=
  fun _ _ => ⟨_, _, rfl, opcField_packW0 .., by simp [wordsAfter]⟩

theorem EncodeLength.waitFlip : EncodeLength.Statement .waitFlip :=
  fun _ _ => ⟨_, _, rfl, opcField_packW0 .., by simp [wordsAfter]⟩

theorem EncodeLength.clear : EncodeLength.Statement .clear :=
  fun _ _ => ⟨_, _, rfl, opcField_packW0 .., by simp [wordsAfter]⟩

theorem EncodeLength.writePixel (x y : Half) (value : Word) : EncodeLength.Statement (.writePixel x y value) :=
  fun _ _ => ⟨_, _, rfl, opcField_packW0 .., by simp [wordsAfter]⟩

theorem EncodeLength.writeSpanFill (x y len : Half) (value : Word) : EncodeLength.Statement (.writeSpanFill x y len value) :=
  fun _ _ => ⟨_, _, rfl, opcField_packW0 .., by simp [wordsAfter]⟩

theorem EncodeLength.writeSpanCopy (x y : Half) (data : List Word) : EncodeLength.Statement (.writeSpanCopy x y data) :=
  fun hw _ => ⟨_, _, rfl, opcField_packW0 .., by
    simp only [Instr.wellFormed, decide_eq_true_eq] at hw
    simp only [wordsAfter, opcField_packW0, aField_packW0, BitVec.toNat_ofNat, List.length_cons]
    omega⟩

theorem EncodeLength.readSpan (x y len : Half) : EncodeLength.Statement (.readSpan x y len) :=
  fun _ _ => ⟨_, _, rfl, opcField_packW0 .., by simp [wordsAfter]⟩

theorem EncodeLength.palSet (index : Byte) (colour : Word) : EncodeLength.Statement (.palSet index colour) :=
  fun _ _ => ⟨_, _, rfl, opcField_packW0 .., by simp [wordsAfter]⟩

theorem EncodeLength.palGet (index : Byte) : EncodeLength.Statement (.palGet index) :=
  fun _ _ => ⟨_, _, rfl, opcField_packW0 .., by simp [wordsAfter]⟩

theorem EncodeLength.writeText (x y : Half) (bytes : List Byte) (attr : Byte) (immediate : Bool) : EncodeLength.Statement (.writeText x y bytes attr immediate) :=
  fun hw _ => ⟨_, _, rfl, opcField_packW0 .., by
    simp only [Instr.wellFormed, decide_eq_true_eq] at hw
    simp only [wordsAfter, opcField_packW0, aField_packW0, BitVec.toNat_ofNat, List.length_cons,
      List.length_map]
    omega⟩

theorem EncodeLength.rawRepeat (count : BitVec 12) : EncodeLength.Statement (.rawRepeat count) :=
  fun _ h => nomatch h

theorem EncodeLength.stream (count : BitVec 12) : EncodeLength.Statement (.stream count) :=
  fun _ h => nomatch h

theorem EncodeLength.xfer : EncodeLength.Statement .xfer :=
  fun _ h => nomatch h

theorem EncodeLength.refill : EncodeLength.Statement .refill :=
  fun _ h => nomatch h

theorem EncodeLength.fillRgb565 (slot y : Nat) : EncodeLength.Statement (.fillRgb565 slot y) :=
  fun _ h => nomatch h

theorem EncodeLength.fillPal8 (slot y : Nat) : EncodeLength.Statement (.fillPal8 slot y) :=
  fun _ h => nomatch h

theorem EncodeLength.fillTextmono (slot y : Nat) : EncodeLength.Statement (.fillTextmono slot y) :=
  fun _ h => nomatch h

theorem EncodeLength.fillTextattr (slot y : Nat) : EncodeLength.Statement (.fillTextattr slot y) :=
  fun _ h => nomatch h

theorem EncodeLength.lineSync (c : Channel) : EncodeLength.Statement (.lineSync c) :=
  fun _ h => nomatch h

theorem EncodeLength.lineBlank (c : Channel) : EncodeLength.Statement (.lineBlank c) :=
  fun _ h => nomatch h

theorem EncodeLength.lineActive (c : Channel) : EncodeLength.Statement (.lineActive c) :=
  fun _ h => nomatch h

theorem EncodeLength.classify (v : Nat) : EncodeLength.Statement (.classify v) :=
  fun _ h => nomatch h

theorem EncodeLength.srcrow (v : Nat) : EncodeLength.Statement (.srcrow v) :=
  fun _ h => nomatch h

theorem EncodeLength.vadvance : EncodeLength.Statement .vadvance :=
  fun _ h => nomatch h

theorem EncodeLength.buildVlist : EncodeLength.Statement .buildVlist :=
  fun _ h => nomatch h

theorem EncodeLength.buildHdr : EncodeLength.Statement .buildHdr :=
  fun _ h => nomatch h

theorem EncodeLength.buildLb : EncodeLength.Statement .buildLb :=
  fun _ h => nomatch h

theorem EncodeLength.program (c : Channel) : EncodeLength.Statement (.program c) :=
  fun _ h => nomatch h

theorem EncodeLength.prime : EncodeLength.Statement .prime :=
  fun _ h => nomatch h

theorem EncodeLength.fill (slot y : Nat) : EncodeLength.Statement (.fill slot y) :=
  fun _ h => nomatch h

theorem EncodeLength.slot (c : Channel) (y : Nat) : EncodeLength.Statement (.slot c y) :=
  fun _ h => nomatch h

theorem EncodeLength.attrDecode (cw : Word) (a : Byte) : EncodeLength.Statement (.attrDecode cw a) :=
  fun _ h => nomatch h

theorem EncodeLength.renderCharLine (code : Byte) (row : Int) : EncodeLength.Statement (.renderCharLine code row) :=
  fun _ h => nomatch h

theorem EncodeLength.buildFc : EncodeLength.Statement .buildFc :=
  fun _ h => nomatch h

theorem EncodeLength.fcLookup (code : Byte) (r : Nat) : EncodeLength.Statement (.fcLookup code r) :=
  fun _ h => nomatch h

theorem EncodeLength.selectTiming (width height : Half) (mode : Mode) : EncodeLength.Statement (.selectTiming width height mode) :=
  fun _ h => nomatch h

theorem EncodeLength.valid (t : TimingDescriptor) : EncodeLength.Statement (.valid t) :=
  fun _ h => nomatch h

end Sys2Proof.Laws
end

