-- ==== Sys2Proof/Tests/Slice0.lean ====
section
/-!
SUPPORT. Tests on the fixtures of 95_test_vectors.md: the well-formedness checks, the words of every encoding, one or
two steps of each operation, and for every statement with hypotheses a state that meets them.
-/

namespace Sys2Proof.Tests

open Sys2Proof Sys2Proof.Machine

set_option Elab.async false

/-! ## Fixtures (95_test_vectors.md part 1) -/

def t1 : TimingDescriptor := ⟨1, 2, 3, 4, 2, 3, 5, 10, 0⟩
def t2 : TimingDescriptor := ⟨1, 2, 3, 30, 1, 1, 1, 4, 0⟩
def t3 : TimingDescriptor := ⟨1, 2, 3, 8, 1, 1, 1, 20, 0⟩
/-- No scanline class can be prefetched in time: `V_INACTIVE = 2` (V5.3). -/
def tShort : TimingDescriptor := ⟨1, 2, 3, 4, 1, 1, 0, 10, 0⟩
def glyphA : GlyphDescriptor := ⟨0, 3, 2, 0, 0⟩
def fontF : Font := ⟨0x41, 2, 0, [glyphA, ⟨2, 2, 1, 1, 0⟩], [0xE7, 0x90, 0x70]⟩

def plat (catalog : List TimingDescriptor) (font : Option Font) : Platform :=
  ⟨catalog, font, 0x354D5354, 0x354D50AB, 0x354D5154, 0x354D52AB, 0x10040100, [0], .refuse⟩

/-- The machine after reset on a platform, the first turn the application's. -/
def base (catalog : List TimingDescriptor) (font : Option Font) : State :=
  { State.reset with plat := plat catalog font, turns := [.app] }

def isNext (o : Outcome') : Bool :=
  match o with
  | .next _ => true
  | .fault _ => false
  | .refused _ => false

/-- The next state, or the state itself. -/
def after (o : Outcome') (s : State) : State :=
  match o with
  | .next t => t
  | .fault _ => s
  | .refused _ => s

def refusal (o : Outcome') : Option Refusal :=
  match o with
  | .refused r => some r
  | .next _ => none
  | .fault _ => none

def fault (o : Outcome') : Option Fault :=
  match o with
  | .fault f => some f
  | .next _ => none
  | .refused _ => none

def run (i : Instr) (s : State) : State := after (exec i s) s

theorem next_of (o : Outcome') (s : State) (h : isNext o = true) : o = .next (after o s) := by
  cases o <;> simp_all [isNext, after]

/-- `LINES n`: n times XFER then REFILL. -/
def lines : Nat → State → State
  | 0, s => s
  | n + 1, s => lines n (run .refill (run .xfer s))

/-- The operation under way to its end, on at most 100 accesses. -/
def finish (s : State) : State := s.finishOp 100

/-- T1, 4 by 10, RGB565. -/
def g1 : State := run (.init 4 10 .rgb565) (base [t1] none)
/-- T1, 2 by 5, RGB565, both repeats 2. -/
def g2 : State := run (.init 2 5 .rgb565) (base [t1] none)
/-- T1, 4 by 10, Palette8. -/
def p1 : State := run (.init 4 10 .palette8) (base [t1] none)
/-- T2, 2 by 2 cells, TextMono. -/
def tm : State := run (.init 2 2 .textMono) (base [t2] (some fontF))
/-- T2, 2 by 2 cells, TextAttributed. -/
def ta : State := run (.init 2 2 .textAttributed) (base [t2] (some fontF))

/-- Scanline 10, the first active one of T1, is the next to be programmed, one completion is pending. -/
def g1row0 : State := run .xfer (lines 7 g1)
/-- Scanline 10 is armed on channel 1, scanline 11 is the next to be programmed. -/
def g1row1 : State := run .xfer (lines 8 g1)
def g2row0 : State := run .xfer (lines 7 g2)
def g2row0again : State := run .xfer (lines 8 g2)
/-- Scanline 12 of the 2 by 5 frame is next, both armed channels carry row 0 in slot 0. -/
def g2row1 : State := run .xfer (lines 9 g2)
/-- The last scanline of the frame is the next to be programmed, with a flip pending (V5.1). -/
def g1last : State := { run .xfer g1 with vScanline := 19, flipReq := true }

/-! ## Well-formedness: each check refuses an ill-formed term -/

theorem test_wf_copy_length : (Instr.writeSpanCopy 0 0 (List.replicate 65536 0)).wellFormed = false := by
  rw [Instr.wellFormed, lengthFits, List.length_replicate]; decide
theorem test_wf_text_length : (Instr.writeText 0 0 (List.replicate 65536 0) 0 false).wellFormed = false := by
  rw [Instr.wellFormed, lengthFits, List.length_replicate]; decide
theorem test_wf_zero_counts : (Instr.rawRepeat 0).wellFormed = false ∧ (Instr.stream 0).wellFormed = false := by
  decide
theorem test_wf_slots : (Instr.fillRgb565 3 0).wellFormed = false ∧ (Instr.fillPal8 3 0).wellFormed = false ∧
    (Instr.fillTextmono 3 0).wellFormed = false ∧ (Instr.fillTextattr 3 0).wellFormed = false ∧
    (Instr.fill 3 0).wellFormed = false := by decide
theorem test_wf_rows : (Instr.fillRgb565 0 65536).wellFormed = false ∧
    (Instr.fillPal8 0 65536).wellFormed = false ∧ (Instr.fillTextmono 0 65536).wellFormed = false ∧
    (Instr.fillTextattr 0 65536).wellFormed = false ∧ (Instr.fill 0 65536).wellFormed = false ∧
    (Instr.classify 65536).wellFormed = false ∧ (Instr.srcrow 65536).wellFormed = false ∧
    (Instr.slot 0 65536).wellFormed = false ∧ (Instr.fcLookup 0 65536).wellFormed = false := by decide
theorem test_wf_accepts : (Instr.writeSpanCopy 0 5 [1, 2, 3, 4]).wellFormed = true ∧
    (Instr.rawRepeat 4095).wellFormed = true ∧ (Instr.fill 2 65535).wellFormed = true := by decide

/-! ## Decoding: words written out from the spec (V6.1, V6.2, V2.1, R70, R75) -/

theorem test_decode_init : decodeH [0x01000000, 0x000A0004] = .ok (.init 4 10 .rgb565, []) ∧
    decodeH [0x01010000, 0x000A0004] = .ok (.init 4 10 .palette8, []) ∧
    decodeH [0x01020000, 0x00020002] = .ok (.init 2 2 .textMono, []) ∧
    decodeH [0x01030000, 0x00020002] = .ok (.init 2 2 .textAttributed, []) := by decide
theorem test_decode_bare : decodeH [0x02000000] = .ok (.reset, []) ∧
    decodeH [0x03000000] = .ok (.flipAsync, []) ∧ decodeH [0x04000000] = .ok (.flipBlocking, []) ∧
    decodeH [0x05000000] = .ok (.flipNow, []) ∧ decodeH [0x06000000] = .ok (.waitVsync, []) ∧
    decodeH [0x07000000] = .ok (.waitFlip, []) ∧ decodeH [0x08000000] = .ok (.clear, []) := by decide
theorem test_decode_pixel : decodeH [0x10000000, 0x00000001, 0x0000ABCD, 0x08000000] =
    .ok (.writePixel 1 0 0xABCD, [0x08000000]) := by decide
theorem test_decode_spans :
    decodeH [0x11000004, 0x00000002, 0x0000001F] = .ok (.writeSpanFill 2 0 4 0x1F, []) ∧
    decodeH [0x12000004, 0x00050000, 1, 2, 3, 4] = .ok (.writeSpanCopy 0 5 [1, 2, 3, 4], []) ∧
    decodeH [0x13000001, 0x00090003] = .ok (.readSpan 3 9 1, []) := by decide
theorem test_decode_palette : decodeH [0x18000001, 0x00123456] = .ok (.palSet 1 0x123456, []) ∧
    decodeH [0x19000001] = .ok (.palGet 1, []) := by decide
theorem test_decode_text :
    decodeH [0x1A000002, 0x00010000, 0x0000002A, 0x00000042, 0x0000007F] =
      .ok (.writeText 0 1 [0x42, 0x7F] 0x2A false, []) ∧
    decodeH [0x1A010001, 0x00000001, 0x00000080, 0x00000041] =
      .ok (.writeText 1 0 [0x41] 0x80 true, []) := by decide
theorem test_decode_h_refusals : decodeH [0x00000000] = .error (.unknownOpcode 0) ∧
    decodeH [0x14000000] = .error (.unknownOpcode 0x14) ∧
    decodeH [0x1B000000] = .error (.unknownOpcode 0x1B) ∧
    decodeH [0xFF000000] = .error (.unknownOpcode 0xFF) ∧
    decodeH [0x03000001] = .error .unusedFieldSet ∧
    decodeH [0x01040000, 0x000A0004] = .error .unusedFieldSet ∧
    decodeH [0x1A000001, 0, 0x100, 0x41] = .error .unusedFieldSet ∧
    decodeH [0x1A000001, 0, 0, 0x141] = .error .unusedFieldSet ∧
    decodeH [0x18000100, 0] = .error .unusedFieldSet ∧
    decodeH [0x12000002, 0, 1] = .error .truncated := by decide
theorem test_decode_commands : decodeC 0x00001001 = .ok (.rawRepeat 1) ∧
    decodeC 0x00001FFF = .ok (.rawRepeat 4095) ∧ decodeC 0x00002004 = .ok (.stream 4) ∧
    decodeC 0x00002280 = .ok (.stream 640) ∧ decodeC 0x00003001 = .error .noCommandWord ∧
    decodeC 0x00011001 = .error .noCommandWord := by decide
theorem test_decode_modes : decodeM 0 1 7 = .fillRgb565 1 7 ∧ decodeM 1 1 7 = .fillPal8 1 7 ∧
    decodeM 2 1 7 = .fillTextmono 1 7 ∧ decodeM 3 1 7 = .fillTextattr 1 7 := by decide
theorem test_decode_classes : decodeL 0 2 = .ok (.lineSync 2) ∧ decodeL 1 2 = .ok (.lineBlank 2) ∧
    decodeL 2 2 = .ok (.lineActive 2) ∧ decodeL 3 2 = .error .reservedClass := by decide
theorem test_decode_events : decodeE 0b100 2 = .ok .refill ∧ decodeE 0b011 2 = .error .noEvent := by decide
theorem test_table_numbering :
    decodeTableWord 64 0x01E0028001000000 = some (.init 640 480 .rgb565) ∧
    decodeTableWord 32 0x03000000 = some .flipAsync ∧ decodeTableWord 8 2 = some (.fillTextmono 0 0) ∧
    decodeTableWord 32 0x00002280 = some (.stream 640) := by decide

/-! ## Lifecycle -/

/-- V2.3, V5.4. -/
theorem test_init_prime : g1.desc = ⟨⟨.clOff, 6⟩, ⟨.clOff, 6⟩, ⟨.clOn, 6⟩⟩ ∧ g1.vScanline = 3 ∧
    g1.reply = [0] ∧ g1.pool = 3 ∧ g1.fbBytes = 80 ∧ g1.lbLen = 9 ∧ g2.pool = 2 ∧ g2.lbLen = 9 ∧
    ta.lineWords = 7 ∧ ta.lbLen = 16 := by decide +kernel
/-- V5.4, V7.1: a failed INIT on a running engine. -/
theorem test_init_fails : (run (.init 3 10 .rgb565) g1).inited = false ∧
    (run (.init 3 10 .rgb565) g1).reply = [0, 0xFFFFFFFF] ∧
    fault (exec (.init 4 10 .rgb565) { base [t1] none with plat := { plat [t1] none with clocks := [] } }) =
      some .fatalClock := by decide +kernel
/-- R119, V5.10. -/
theorem test_reset : (run .reset g1).inited = false ∧ (run .reset g1).lb = [] ∧
    run .reset (base [t1] none) = base [t1] none := by decide +kernel
/-- V5.2. -/
theorem test_select_timing :
    selectTiming (plat [t3, t1] none) 4 10 .rgb565 = some ⟨t1, 0, 0⟩ ∧
    selectTiming (plat [t1] none) 1 10 .palette8 = some ⟨t1, 2, 0⟩ ∧
    selectTiming (plat [t1] none) 4 20 .rgb565 = none ∧
    selectTiming (plat [t2] (some fontF)) 1 2 .textMono = none := by decide +kernel
/-- R16: of two entries of 4 by 10 the first stands, other sizes stay in their order. -/
theorem test_catalog : catalogOk [t3, t1, t2] = true ∧ catalogOk [t1, tShort] = false ∧
    distinctSizes [t3, t1, tShort, t2] = [t3, t1, t2] := by decide
/-- V5.3. -/
theorem test_valid : validTiming tShort = false ∧ validTiming ⟨1, 2, 96, 4000, 2, 3, 5, 10, 0⟩ = false ∧
    validTiming ⟨1, 2, 95, 4000, 2, 3, 5, 10, 0⟩ = true := by decide

/-! ## The vertical state machine and the ring -/

/-- V1.1, V1.2. -/
theorem test_classify : (List.range 20).map g1.classOf =
    [.blank, .blank, .sync, .sync, .sync, .blank, .blank, .blank, .blank, .blank] ++
      List.replicate 10 .active := by decide +kernel
/-- V1.1. -/
theorem test_srcrow : (run (.srcrow 19) g1).result = .number 9 ∧ (run (.srcrow 19) g2).result = .number 4 := by
  decide +kernel
/-- V1.3. -/
theorem test_vadvance : (run .vadvance { g1 with vScanline := 18, flipReq := true }).front = false ∧
    (run .vadvance { g1 with vScanline := 19, flipReq := true }).front = true := by decide +kernel
/-- V2.2, part 1. -/
theorem test_build_vlist : (run .buildVlist { g1 with clOn := [] }).clOn =
    [0x00001001, 0x354D5154, 0x00001002, 0x354D52AB, 0x00001007, 0x354D5154] := by decide +kernel
/-- Part 1: T1 graphic, T2 text. -/
theorem test_build_hdr : (run .buildHdr { g1 with hdr := [] }).hdr =
      [0x00001001, 0x354D5354, 0x00001002, 0x354D50AB, 0x00001003, 0x354D5354, 0x00002004] ∧
    (run .buildHdr tm).hdr = [0x00001001, 0x354D5354, 0x00001002, 0x354D50AB, 0x00001003, 0x354D5354,
      0x00001002, 0x10040100, 0x0000201C] := by decide +kernel
theorem test_build_lb : (run .buildLb { g2 with lb := [] }).lb.length = 2 := by decide +kernel
/-- V2.4. -/
theorem test_xfer : (run .xfer g1).out =
      [[0x00001001, 0x354D5354, 0x00001002, 0x354D50AB, 0x00001007, 0x354D5354]] ∧
    (run .xfer g1).pending = ⟨true, false, false⟩ ∧ (run .xfer g1).activeCh = 1 := by decide +kernel
/-- V2.5. -/
theorem test_xfer_deadline : fault (exec .xfer (run .xfer (run .xfer (run .xfer g1)))) =
    some (.deadlineMiss 0) := by decide +kernel
/-- V2.4, V6.4. -/
theorem test_refill : (lines 1 g1).desc.k0 = ⟨.clOn, 6⟩ ∧ (lines 1 g1).vScanline = 4 ∧
    (run .xfer (run .xfer (run .xfer g1))).ints = 0b111 := by decide +kernel
theorem test_refill_not_enabled : refusal (exec .refill g1) = some .notEnabled := by decide +kernel
theorem test_line_classes : (run (.lineSync 1) g1).desc.k1 = ⟨.clOn, 6⟩ ∧
    (run (.lineBlank 2) g1).desc.k2 = ⟨.clOff, 6⟩ := by decide +kernel
theorem test_line_active : (run (.lineActive 2) { p1 with vScanline := 12, marker := some 2 }).desc.k2 =
    ⟨.lb 2, 11⟩ := by decide +kernel
theorem test_program : (run (.program 1) g1).desc.k1 = ⟨.clOn, 6⟩ ∧ (run (.program 1) g1).vScanline = 4 := by
  decide +kernel
/-- V2.3 on T2. -/
theorem test_prime : (run .prime { tm with desc := PerChannel.all ⟨.lb 0, 0⟩ }).desc =
    ⟨⟨.clOff, 6⟩, ⟨.clOn, 6⟩, ⟨.clOff, 6⟩⟩ := by decide +kernel

/-! ## The pixel pipeline and the font -/

/-- A state whose front buffer holds some bytes from offset 0 on. -/
def withFront (s : State) (bytes : List Byte) : State :=
  s.withFb s.front ((List.range bytes.length).zip bytes)

/-- The pixel words of line buffer 0. -/
def pix0 (s : State) : List Word := (s.lb.head?.map fun b => pixWords b.pix).getD []

/-- V3.2. -/
theorem test_fill_rgb565 :
    pix0 (run (.fillRgb565 0 0) (withFront g1 [0x34, 0x12, 0xCD, 0xAB, 0, 0, 0, 0xF8])) =
      [0xABCD1234, 0xF8000000] ∧
    pix0 (run (.fillRgb565 0 0) (withFront g2 [0x00, 0x10, 0x00, 0x20])) =
      [0x10001000, 0x20002000] := by decide +kernel
/-- V3.3. -/
theorem test_fill_pal8 :
    pix0 (run (.fillPal8 0 0) { withFront p1 [1, 2, 3, 4] with
      pal := [(1, 0xFF0000), (2, 0x00FF00), (3, 0x0000FF), (4, 0xFFFFFF)] }) =
      [0x00FF0000, 0x0000FF00, 0x000000FF, 0x00FFFFFF] := by decide +kernel
/-- V3.4. -/
theorem test_fill_textmono :
    pix0 (run (.fillTextmono 0 1) (withFront tm [0x41, 0x42, 0x42, 0x7F])) = [0x03900000, 0x00700000] ∧
    pix0 (run (.fillTextmono 0 3) (withFront tm [0x41, 0x42, 0x42, 0x7F])) = [0x00700000, 0x00000000] := by
  decide +kernel
/-- V3.6. -/
theorem test_fill_textattr :
    pix0 (run (.fillTextattr 0 1) (withFront ta [0x41, 0x42, 0x42, 0x7F, 0x15, 0x15, 0x2A, 0x2A])) =
      [0x00152A3F, 0, 0, 0x15000000, 0x0000003F, 0, 0] ∧
    pix0 (run (.fillTextattr 0 3) (withFront ta [0x41, 0x42, 0x42, 0x7F, 0x15, 0x15, 0x2A, 0x2A])) =
      [0x007E2A00, 0, 0, 0, 0, 0, 0] := by decide +kernel
theorem test_fill_selects :
    pix0 (run (.fill 0 3) (withFront tm [0x41, 0x42, 0x42, 0x7F])) = [0x00700000, 0x00000000] := by
  decide +kernel
/-- V3.8. -/
theorem test_slot : (run (.slot 2 5) g1).result = .number 2 ∧ (run (.slot 2 3) g2).result = .number 1 := by
  decide +kernel
/-- V3.5. -/
theorem test_attr_decode :
    attrDecode 0x03900000 0x56 = [0x02, 0xAC, 0x56, 0, 0, 0, 0, 0, 0, 0, 0, 0, 0] ∧
    attrDecode 0x03FFFFFF 0x01 = List.replicate 13 3 := by decide +kernel
/-- V4.1. -/
theorem test_render_char_line : renderCharLine fontF 0x41 0 = 0x03900000 ∧
    renderCharLine fontF 0x42 1 = 0x00700000 ∧ renderCharLine fontF 0x41 (-1) = 0 ∧
    renderCharLine fontF 0x43 0 = 0 := by decide +kernel
/-- V4.2 (a), (b), (c), (d). -/
theorem test_render_clipping :
    renderCharLine ⟨0x30, 4, 1, [⟨0, 2, 2, 12, 0⟩], [0xFF]⟩ 0x30 1 = 0x00000003 ∧
    renderCharLine ⟨0x30, 4, 1, [⟨0, 2, 2, -1, 0⟩], [0xFF]⟩ 0x30 2 = 0x03000000 ∧
    renderCharLine ⟨0x30, 4, 1, [⟨0, 2, 2, 0, -1⟩], [0xFF]⟩ 0x30 3 = 0x03C00000 ∧
    renderCharLine ⟨0x30, 4, 1, [⟨0, 16, 1, 0, 0⟩], [0x55, 0x55, 0x55, 0x55]⟩ 0x30 2 = 0x01555555 := by
  decide +kernel
/-- R108: a baseline may lie at the top of the cell, and not above it. -/
theorem test_font_baseline : fontOk { fontF with baseline := 2 } = true ∧
    fontOk { fontF with baseline := 3 } = false ∧
    refusal (exec (.init 2 2 .textMono) (base [t2] (some { fontF with baseline := 3 }))) = some .badFont := by
  decide +kernel
/-- V4.3. -/
theorem test_build_fc : (run .buildFc { ta with fc := [] }).fc = [0x03900000, 0x03900000, 0, 0x00700000] := by
  decide +kernel
/-- V4.3. -/
theorem test_fc_lookup : (run (.fcLookup 0x42 1) ta).result = .word 0x00700000 ∧
    (run (.fcLookup 0xFF 0) ta).result = .word 0 := by decide +kernel

/-! ## Flips, waits, buffer access -/

theorem test_flip_async : (run .flipAsync g1).flipReq = true ∧ (run .flipAsync g1).front = false := by
  decide +kernel
theorem test_flip_blocking : (run .flipBlocking g1).busy = some (.waitFlip false) ∧
    (finish (run .flipBlocking g1)).busy.isSome = true := by decide +kernel
/-- V5.10, R124. -/
theorem test_flip_now : refusal (exec .flipNow g1) = some .flipNowRefused ∧
    (run .flipNow { g1 with plat := { g1.plat with flipNow := .immediate } }).front = true := by
  decide +kernel
/-- V5.9. -/
theorem test_wait_vsync : (run .waitVsync { g1 with vScanline := 4 }).busy = none ∧
    (run .waitVsync { g1 with vScanline := 15 }).busy = some (.waitVsync true) := by decide +kernel
/-- V5.9. -/
theorem test_wait_flip : (run .waitFlip g1).busy = none ∧
    (run .waitFlip (run .flipAsync g1)).busy = some (.waitFlip true) := by decide +kernel
/-- V5.6. -/
theorem test_clear : (finish (run .clear ta)).fb1 = (List.range 8).map fun a => (a, 0) := by decide +kernel
/-- V5.5. -/
theorem test_write_pixel : (finish (run (.writePixel 1 0 0xABCD) g1)).fb1 = [(2, 0xCD), (3, 0xAB)] := by
  decide +kernel
/-- V5.5, V6.2. -/
theorem test_write_pixel_refused : refusal (exec (.writePixel 4 0 0) g1) = some .contractViolation ∧
    refusal (exec (.writePixel 0 0 0x11234) g1) = some .valueTooWide := by decide +kernel
/-- V5.5. -/
theorem test_write_span_fill : (finish (run (.writeSpanFill 2 0 4 0x1F) g1)).fb1 =
    [(4, 0x1F), (5, 0), (6, 0x1F), (7, 0), (8, 0x1F), (9, 0), (10, 0x1F), (11, 0)] := by decide +kernel
/-- V5.5. -/
theorem test_write_span_copy : (finish (run (.writeSpanCopy 3 9 [0x8000]) g1)).fb1 = [(78, 0), (79, 0x80)] ∧
    refusal (exec (.writeSpanCopy 3 9 [0, 0]) g1) = some .contractViolation := by decide +kernel
/-- P5. -/
theorem test_read_span :
    (finish (run (.readSpan 1 0 1) { g1 with fb1 := [(2, 0xCD), (3, 0xAB)], front := true })).reply =
      [0, 0x0000ABCD] := by decide +kernel
/-- V5.7. -/
theorem test_palette : (run (.palGet 255) (run (.palSet 255 0xFFABCDEF) (base [] none))).reply =
    [0x00ABCDEF] := by decide +kernel
/-- V5.8. -/
theorem test_write_text : (finish (run (.writeText 0 1 [0x42, 0x7F] 0x2A false) ta)).fb1 =
      [(2, 0x42), (3, 0x7F), (6, 0x2A), (7, 0x2A)] ∧
    (finish (run (.writeText 1 0 [0x41] 0x80 true) tm)).fb0 = [(1, 0x41)] := by decide +kernel
/-- V5.10. -/
theorem test_acceptance : refusal (exec .clear (base [] none)) = some .notInitialised ∧
    refusal (exec (.writeText 0 0 [] 0 false) g1) = some .wrongMode := by decide +kernel

/-! ## The serial output (V6.3) -/

/-- The first RAW_REPEAT of V6.3's line. -/
theorem test_raw_repeat : (run (.rawRepeat 2) { g1 with serIn := [[0x354D50AB, 0x00001003]] }).wire =
    [.raw 0x354D50AB 2] := by decide +kernel
/-- The STREAM of V6.3's line. -/
theorem test_stream : (run (.stream 4) { g1 with serIn := [[0xABCD1234, 0xF8000000]] }).wire =
    [.pixels 4 [0xABCD1234, 0xF8000000]] := by decide +kernel

/-! ## A state that meets the hypotheses of each statement -/

theorem witness_DecodeEncodeHostOps :
    (Instr.writeText 1 0 [0x41] 0x80 true).format = .h ∧
    (Instr.writeText 1 0 [0x41] 0x80 true).wellFormed = true := by decide
theorem witness_HostWordsHaveOneReading :
    decodeH [0x11000004, 0x00000002, 0x0000001F, 0x08000000] = .ok (.writeSpanFill 2 0 4 0x1F, [0x08000000]) := by
  decide
theorem witness_UndecodableHostWordsRefused :
    (let s := { g1 with turns := [.app], port := [0x09000000] }
     s.invoke = [] ∧ s.nextTurn = .app ∧ s.busy = none ∧ s.port ≠ [] ∧
       decodeH s.port = .error (.unknownOpcode 9) ∧ refusal (step s) = some (.undecodable (.unknownOpcode 9))) := by
  decide +kernel
theorem witness_UndecodableHostWordsRefused_fields :
    -- truncated by one word, complete in the clauses below
    (opcField 0x1A000002 = 0x1A ∧ [0, 0x15, 0x41].length < wordsAfter 0x1A000002 ∧
      wordsAfter 0x1A000002 = 4 ∧ ([] : List Word).length < wordsAfter 0x01000000) ∧
    (opcField 0x02000001 = 0x02 ∧ aField 0x02000001 ≠ 0 ∧ flgField 0x08010000 ≠ 0) ∧
    ((flgField 0x01040000).extractLsb' 2 6 ≠ 0#6 ∧ (flgField 0x01030000).extractLsb' 2 6 = 0#6 ∧
      aField 0x01000001 ≠ 0) ∧
    (opcField 0x13010001 = 0x13 ∧ wordsAfter 0x13010001 ≤ [0].length ∧ flgField 0x13010001 ≠ 0) ∧
    (opcField 0x10000001 = 0x10 ∧ wordsAfter 0x10000001 ≤ [0, 0].length ∧ aField 0x10000001 ≠ 0) ∧
    (opcField 0x19000100 = 0x19 ∧ wordsAfter 0x19000100 ≤ ([] : List Word).length ∧
      (aField 0x19000100).extractLsb' 8 8 ≠ 0#8 ∧ (aField 0x190000FF).extractLsb' 8 8 = 0#8) ∧
    ([0x41].length = (aField 0x1A020001).toNat ∧ (flgField 0x1A020001).extractLsb' 1 7 ≠ 0#7) := by
  decide +kernel
/-- One non-zero unused field of each operation with operand words (R74, R76), and a field just below. -/
theorem test_decode_unused_fields : decodeH [0x01000001, 0x000A0004] = .error .unusedFieldSet ∧
    decodeH [0x10010000, 0, 0] = .error .unusedFieldSet ∧ decodeH [0x10000001, 0, 0] = .error .unusedFieldSet ∧
    decodeH [0x11010000, 0, 0] = .error .unusedFieldSet ∧ decodeH [0x12010000, 0] = .error .unusedFieldSet ∧
    decodeH [0x13010001, 0] = .error .unusedFieldSet ∧ decodeH [0x18010000, 0] = .error .unusedFieldSet := by
  decide
theorem test_decode_unused_fields_more :
    decodeH [0x19000100] = .error .unusedFieldSet ∧ decodeH [0x1A020000, 0, 0] = .error .unusedFieldSet ∧
    decodeH [0x190000FF] = .ok (.palGet 0xFF, []) ∧
    decodeH [0x1A000001, 0, 0xFF, 0xFF] = .ok (.writeText 0 0 [0xFF] 0xFF false, []) := by decide
theorem witness_StepRunsNextOperation :
    (let s := { g1 with turns := [.app], port := [0x03000000] }
     s.invoke = [] ∧ s.nextTurn = .app ∧ s.busy = none ∧ decodeH s.port = .ok (.flipAsync, []) ∧
       isNext (step s) = true) ∧
    (let s := { g1 with turns := [.app], busy := some (.clear true 79) }
     s.invoke = [] ∧ s.nextTurn = .app ∧ isNext (step s) = true) ∧
    (let s := { g1 with turns := [.dma] }
     s.invoke = [] ∧ s.nextTurn = .dma ∧ s.inited = true ∧ isNext (step s) = true) ∧
    (let s := { run .xfer g1 with turns := [.handler] }
     s.invoke = [] ∧ s.nextTurn = .handler ∧ s.refillEnabled = true ∧ isNext (step s) = true) ∧
    (let s := { g1 with turns := [.serial], serIn := [[0x00001001, 0x354D5354]] }
     s.invoke = [] ∧ s.nextTurn = .serial ∧ decodeC 0x00001001 = .ok (.rawRepeat 1) ∧
       isNext (step s) = true) ∧
    (let s := { g1 with invoke := [.classify 5] }
     s.invoke = [.classify 5] ∧ isNext (step s) = true) := by decide +kernel
theorem witness_DisabledAgentsPassTheirTurn :
    (let s := { base [t1] none with turns := [.dma] }
     s.invoke = [] ∧ s.nextTurn = .dma ∧ s.inited = false) ∧
    (let s := { g1 with turns := [.handler] }
     s.invoke = [] ∧ s.nextTurn = .handler ∧ s.refillEnabled = false) := by decide +kernel
theorem inv_of {s : State} (a : s.invoke = [] ∧ s.memoryOk ∧ s.busyOk = true)
    (b : s.inited = true → s.configOk ∧ s.buffersOk ∧ s.ringOk ∧ s.markerOk)
    (c : (s.inited = false → s.stoppedOk) ∧ catalogOk s.plat.catalog = true) : s.Inv :=
  ⟨a.1, a.2.1, a.2.2, b, c⟩
theorem inv_g1row0 : g1row0.Inv := inv_of (by decide +kernel) (by decide +kernel) (by decide +kernel)
theorem inv_g1row1 : g1row1.Inv := inv_of (by decide +kernel) (by decide +kernel) (by decide +kernel)
theorem inv_g2row0 : g2row0.Inv := inv_of (by decide +kernel) (by decide +kernel) (by decide +kernel)
theorem inv_g2row0again : g2row0again.Inv := inv_of (by decide +kernel) (by decide +kernel) (by decide +kernel)
theorem inv_g2row1 : g2row1.Inv := inv_of (by decide +kernel) (by decide +kernel) (by decide +kernel)
theorem inv_base : (base [t1] none).Inv := inv_of (by decide +kernel) (by decide +kernel) (by decide +kernel)
theorem inv_ta : ta.Inv := inv_of (by decide +kernel) (by decide +kernel) (by decide +kernel)
theorem witness_StepKeepsInvariant : ∃ t, { g2row1 with turns := [.handler] }.Inv ∧
    step { g2row1 with turns := [.handler] } = .next t :=
  ⟨_, inv_of (by decide +kernel) (by decide +kernel) (by decide +kernel), next_of _ g1 (by decide +kernel)⟩
theorem witness_InFlightBuffersNeverOverwritten :
    (g1row1.Inv ∧ g1row1.refillEnabled = true ∧ g1row1.armed.get 1 = true ∧ g1row1.desc.get 1 = ⟨.lb 1, 9⟩) ∧
    g2row1.Inv ∧ g2row1.refillEnabled = true ∧ g2row1.armed.get 1 = true ∧ g2row1.desc.get 1 = ⟨.lb 0, 9⟩ :=
  ⟨⟨inv_g1row1, by decide +kernel⟩, inv_g2row1, by decide +kernel⟩
theorem witness_XferAndRefillCommute :
    g1row1.Inv ∧ g1row1.refillEnabled = true ∧ g1row1.armed.get g1row1.activeCh = true :=
  ⟨inv_g1row1, by decide +kernel⟩
theorem witness_EachRowFilledOnceAFrame :
    (g1row0.Inv ∧ g1row0.refillEnabled = true ∧ g1row0.vInactive = g1row0.vScanline.toNat ∧ g1row0.vShift = 0) ∧
    (g2row0.Inv ∧ g2row0.refillEnabled = true ∧ g2row0.vInactive = g2row0.vScanline.toNat ∧
      g2row0.vShift ≠ 0) ∧
    (g2row0again.Inv ∧ g2row0again.refillEnabled = true ∧ g2row0again.vShift ≠ 0 ∧
      g2row0again.vScanline.toNat - g2row0again.vInactive = 1 ∧ g2row0again.vRep = 2) ∧
    g2row1.Inv ∧ g2row1.refillEnabled = true ∧ g2row1.vScanline.toNat - g2row1.vInactive = g2row1.vRep :=
  ⟨⟨inv_g1row0, by decide +kernel⟩, ⟨inv_g2row0, by decide +kernel⟩, ⟨inv_g2row0again, by decide +kernel⟩,
    inv_g2row1, by decide +kernel⟩
theorem witness_HandlerNeverReadsBackBuffer : ∃ t, exec .refill (withFront g1row0 (List.replicate 80 7)) = .next t :=
  ⟨_, next_of _ g1 (by decide +kernel)⟩
theorem witness_FrontChangesOnlyAtWrap : ∃ t, { g1last with turns := [.handler] }.invoke = [] ∧
    { g1last with turns := [.handler] }.plat.flipNow = .refuse ∧ g1last.inited = true ∧
    step { g1last with turns := [.handler] } = .next t ∧ t.inited = true ∧ t.epoch = g1last.epoch ∧
    t.front ≠ g1last.front :=
  ⟨_, by decide +kernel, by decide +kernel, by decide +kernel, next_of _ g1 (by decide +kernel),
    by decide +kernel, by decide +kernel, by decide +kernel⟩
theorem witness_ApplicationKeepsHandlerState : ∃ t,
    step { g1last with turns := [.app], port := [0x03000000] } = .next t ∧ g1last.invoke = [] ∧
    { g1last with turns := [.app], port := [0x03000000] }.nextTurn = .app ∧ g1last.plat.flipNow = .refuse ∧
    g1last.inited = true ∧ t.inited = true ∧ t.epoch = g1last.epoch :=
  ⟨_, next_of _ g1 (by decide +kernel), by decide +kernel, by decide +kernel, by decide +kernel,
    by decide +kernel, by decide +kernel, by decide +kernel⟩
theorem witness_OtherAgentsKeepApplicationState : ∃ t, g1row0.invoke = [] ∧
    { g1row0 with turns := [.handler] }.nextTurn ≠ .app ∧
    step { withFront g1row0 (List.replicate 80 7) with turns := [.handler] } = .next t :=
  ⟨_, by decide +kernel, by decide +kernel, next_of _ g1 (by decide +kernel)⟩
theorem witness_TablesWrittenAtInitOnly : ∃ t, { g1 with turns := [.dma] }.invoke = [] ∧
    step { g1 with turns := [.dma] } = .next t ∧ g1.inited = true ∧ t.inited = true ∧ t.epoch = g1.epoch :=
  ⟨_, by decide +kernel, next_of _ g1 (by decide +kernel), by decide +kernel, by decide +kernel,
    by decide +kernel⟩

theorem witness_InitBringsUpTheBlock :
    (selectTiming (base [t1] none).plat 2 5 .rgb565 = some ⟨t1, 1, 1⟩ ∧ validTiming t1 = true ∧
      Platform.clockOk (base [t1] none).plat t1.bitClk = true ∧ (base [t1] none).stoppedOk) ∧
    (Platform.fontReady ta.plat = true ∧ selectTiming ta.plat 2 2 .textMono = some ⟨t2, 0, 0⟩ ∧
      validTiming t2 = true ∧ Platform.clockOk ta.plat t2.bitClk = true ∧ ta.inited = true) := by
  decide +kernel
theorem witness_InitConfigErrorAnswersMinusOne :
    selectTiming (base [t1] none).plat 3 10 .rgb565 = none ∧
    (selectTiming (base [tShort] none).plat 4 10 .rgb565 = some ⟨tShort, 0, 0⟩ ∧ validTiming tShort = false) ∧
    (base [t2] none).plat.font = none ∧ selectTiming (base [t2] none).plat 2 2 .textMono = none := by
  decide +kernel
theorem witness_InitFatalClockEndsTheRun :
    (let p := { plat [t1] none with clocks := [] }
     selectTiming p 4 10 .rgb565 = some ⟨t1, 0, 0⟩ ∧ validTiming t1 = true ∧
       Platform.clockOk p t1.bitClk = false) ∧
    (let p := { plat [t2] (some fontF) with clocks := [] }
     Platform.fontReady p = true ∧ selectTiming p 2 2 .textMono = some ⟨t2, 0, 0⟩ ∧ validTiming t2 = true ∧
       Platform.clockOk p t2.bitClk = false) := by decide +kernel
theorem witness_ResetReleasesTheBlock : g1.inited = true ∧ (base [t1] none).inited = false := by decide +kernel
theorem witness_SelectTimingSmallestRepeat : Mode.isText .palette8 = false ∧
    selectTiming (base [t3, t1] none).plat 4 10 .palette8 = some ⟨t1, 0, 0⟩ ∧
    selectTiming (base [t3] none).plat 2 5 .palette8 = some ⟨t3, 2, 2⟩ ∧
    catalogOk (base [t3, t1] none).plat.catalog = true ∧ matchesGraphic 4 10 0 0 t1 = true ∧
    selectTiming (base [t1] none).plat 3 10 .palette8 = none := by decide +kernel
theorem witness_SelectTimingTextCells : Mode.isText .textMono = true ∧ (base [t2] none).plat.font = none ∧
    Platform.fontReady ta.plat = true ∧ selectTiming ta.plat 2 2 .textMono = some ⟨t2, 0, 0⟩ ∧
    selectTiming ta.plat 2 1 .textMono = none := by decide +kernel
theorem witness_ClassifyScanline : g1.inited = true ∧ 19 < g1.vTotal ∧ ¬20 < g1.vTotal ∧
    (run (.classify 4) g1).result = .lineClass .sync ∧ (run (.classify 5) g1).result = .lineClass .blank ∧
    (run (.classify 9) g1).result = .lineClass .blank ∧
    (run (.classify 10) g1).result = .lineClass .active := by decide +kernel
theorem witness_SourceRowOfScanline : g2.inited = true ∧ g2.configOk ∧ g2.vInactive = 10 ∧ g2.vTotal = 20 ∧
    tm.configOk ∧ tm.vInactive = 3 ∧ tm.vTotal = 7 := by decide +kernel
theorem witness_VadvanceCountsAndWraps : g1.inited = true ∧
    { g1 with vScanline := 18 }.vScanline.toNat + 1 ≠ g1.vTotal ∧
    { g1 with vScanline := 19 }.vScanline.toNat + 1 = g1.vTotal := by decide +kernel
theorem witness_BuildersWriteTheTables : g1.inited = true ∧ g1.configOk ∧ ta.inited = true ∧ ta.configOk := by
  decide +kernel
theorem witness_ProgramSetsUpOneChannel : (g1.inited = true ∧ g1.vScanline.toNat + 1 ≠ g1.vTotal ∧
      g1.classOf g1.vScanline.toNat ≠ .active) ∧
    (g1row0.classOf g1row0.vScanline.toNat = .active ∧ g1row0.marker = none) ∧
    (g2row0again.classOf g2row0again.vScanline.toNat = .active ∧ g2row0again.marker =
      some (g2row0again.slotOf g2row0again.ch (g2row0again.rowOf g2row0again.vScanline.toNat))) ∧
    g1last.inited = true ∧ g1last.vScanline.toNat + 1 = g1last.vTotal ∧
    Mode.isText tm.mode = true ∧ Platform.fontReady tm.plat = true := by decide +kernel
theorem witness_PrimeStartsTheRing : g1.inited = true ∧ g1.configOk ∧ tm.inited = true ∧ tm.configOk := by
  decide +kernel
theorem witness_LineClassesPointAChannel : g1row0.inited = true ∧ Mode.isText g1row0.mode = false ∧
    g1row0.vInactive = g1row0.vScanline.toNat ∧ g1row0.vScanline.toNat < g1row0.vTotal ∧
    g1row0.marker = none ∧ g2row0again.marker = some 0 ∧
    g2row0again.slotOf 2 (g2row0again.rowOf g2row0again.vScanline.toNat) = 0 := by decide +kernel
theorem witness_XferSendsOneScanline : g1.inited = true ∧ g1.armed.get g1.activeCh = true := by decide +kernel
theorem witness_XferSendsWholeRegion : ∃ t, g2row1.Inv ∧ exec .xfer g2row1 = .next t :=
  ⟨_, inv_g2row1, next_of _ g1 (by decide +kernel)⟩
theorem witness_XferUnarmedMissesDeadline :
    (let s := run .xfer (run .xfer (run .xfer g1)); s.inited = true ∧ s.armed.get s.activeCh = false) := by
  decide +kernel
theorem witness_RefillServesOneCompletion : g1row0.inited = true ∧ g1row0.irqEn = true ∧
    g1row0.pending.get g1row0.ch = true ∧ Mode.isText g1row0.mode = false := by decide +kernel
theorem witness_FillAndSlotByName : (g2.inited = true ∧ 1 < g2.pool ∧ 4 < g2.rows ∧ ¬5 < g2.rows) ∧
    ta.inited = true ∧ 2 < ta.pool ∧ 3 < ta.rows ∧ Platform.fontReady ta.plat = true := by decide +kernel

/-- A line buffer as INIT leaves it. -/
def emptyLine (s : State) : LineBuffer := ⟨s.hdr, List.replicate (4 * s.lineWords) 0⟩

theorem witness_FillRgb565RepeatsPixels : g2.inited = true ∧ g2.mode = .rgb565 ∧ 1 < g2.pool ∧
    4 < g2.frameH.toNat ∧ g2.lb[1]? = some (emptyLine g2) ∧ (emptyLine g2).pix.length = 4 * g2.lineWords := by
  decide +kernel
theorem witness_FillPal8RepeatsColours : p1.inited = true ∧ p1.mode = .palette8 ∧ 2 < p1.pool ∧
    9 < p1.frameH.toNat ∧ p1.lb[2]? = some (emptyLine p1) ∧ (emptyLine p1).pix.length = 4 * p1.lineWords := by
  decide +kernel
theorem witness_FillTextmonoWritesCoverage : tm.inited = true ∧ tm.mode = .textMono ∧
    Platform.fontReady tm.plat = true ∧ 2 < tm.pool ∧ 3 < tm.frameH.toNat * tm.font.glyphH ∧
    tm.lb[2]? = some (emptyLine tm) ∧ (emptyLine tm).pix.length = 4 * tm.lineWords := by decide +kernel
theorem witness_FillTextattrWritesCells : ta.inited = true ∧ ta.mode = .textAttributed ∧
    Platform.fontReady ta.plat = true ∧ 2 < ta.pool ∧ 3 < ta.frameH.toNat * ta.font.glyphH ∧
    ta.lb[2]? = some (emptyLine ta) ∧ (emptyLine ta).pix.length = 4 * ta.lineWords := by decide +kernel
theorem witness_RenderCharLineColumns : Platform.fontReady ta.plat = true ∧
    (0x43 : Nat) ≥ ta.font.firstCode + ta.font.glyphs.length ∧ ta.font.glyphs[0x41 - ta.font.firstCode]? = some glyphA ∧
    glyphTop ta.font glyphA = 0 ∧ glyphA.height = 2 := by decide +kernel
theorem witness_FontCacheRefinesRasterizer : ta.inited = true ∧ ta.mode = .textAttributed ∧
    Platform.fontReady ta.plat = true ∧ 1 < ta.font.glyphH ∧ ¬2 < ta.font.glyphH := by decide +kernel
theorem witness_flip_statements : g1.inited = true ∧ g1.flipReq = false ∧ g1last.flipReq = true ∧
    g1.plat.flipNow = .refuse ∧ { g1 with plat := { g1.plat with flipNow := .immediate } }.inited = true := by
  decide +kernel
theorem witness_FlipBlockingRequestsAndWaits : (g1.opStep (.waitFlip false)).busy = none := by decide +kernel
theorem witness_WaitVsyncIsAGuard : { g1 with vScanline := 9 }.vScanline.toNat < g1.vInactive ∧
    g1.vInactive ≤ { g1 with vScanline := 10 }.vScanline.toNat := by decide +kernel
theorem witness_WritePixelStoresOneUnit : g1.inited = true ∧ Mode.isText g1.mode = false ∧
    (3 : Half).toNat < g1.frameW.toNat ∧ (9 : Half).toNat < g1.frameH.toNat ∧ valueFits g1.mode 0xFFFF = true ∧
    Mode.isText p1.mode = false ∧ valueFits p1.mode 0xFF = true := by decide +kernel
theorem witness_WriteSpansStoreConsecutiveUnits : g1.inited = true ∧ Mode.isText g1.mode = false ∧
    valueFits g1.mode 0xFFFF = true ∧ g1.inBounds 3 8 5 = true ∧ g1.inBounds 3 9 2 = false ∧
    g1.inBounds 0 0 0 = true ∧ [0xFFFF, 0].all (valueFits g1.mode) = true ∧ g1.inBounds 2 9 2 = true := by
  decide +kernel
theorem witness_ReadSpanRepliesFrontUnits : p1.inited = true ∧ Mode.isText p1.mode = false ∧
    p1.inBounds 0 0 40 = true := by decide +kernel
theorem witness_PaletteGetRepliesEntry : (∀ c ∈ (run (.palSet 1 0x123456) (base [] none)).pal, c.1 ≠ (2 : Byte).toNat) := by
  decide +kernel
theorem witness_WriteTextStoresCells : ta.inited = true ∧ Mode.isText ta.mode = true ∧
    ta.inBounds 1 0 [0x41, 0x42, 0x43].length = true ∧ tm.inited = true ∧ Mode.isText tm.mode = true ∧
    tm.inBounds 0 1 2 = true := by decide +kernel
theorem witness_HostOperationsRefusedWhere : ((base [t1] none).inited = false ∧ Instr.format .clear = .h) ∧
    (ta.inited = true ∧ Mode.isText ta.mode = true) ∧ (g1.inited = true ∧ Mode.isText g1.mode = false) ∧
    -- each way to be outside, and the last position that is inside
    (valueFits g1.mode 0 = true ∧ [0, 0].all (valueFits g1.mode) = true ∧ g1.outside 4 0 1 ∧ g1.outside 0 10 1 ∧
      g1.outside 3 9 2 ∧ ¬g1.outside 3 9 1 ∧ g1.outside 4 0 0) ∧
    (ta.outside 1 1 [0x41, 0x42].length ∧ ¬ta.outside 1 1 [0x41].length) ∧
    g1.mode = .rgb565 ∧ 65536 ≤ (0x10000 : Word).toNat ∧ ¬65536 ≤ (0xFFFF : Word).toNat ∧
    p1.inited = true ∧ p1.mode = .palette8 ∧ 256 ≤ (0x100 : Word).toNat ∧ (0x100 : Word) ∈ [0, (0x100 : Word)] := by
  decide +kernel
theorem witness_PixelRoundTrip : g1.inited = true ∧ Mode.isText g1.mode = false ∧
    valueFits g1.mode 0xABCD = true ∧ g1.inBounds 3 9 1 = true := by decide +kernel
theorem witness_CommandWordsDriveSerialOutput : (1 : BitVec 12) ≠ 0 ∧
    { g1 with serIn := [[0x354D5354, 0x00001002]] }.serIn = [0x354D5354, 0x00001002] :: [] := by
  decide +kernel
theorem witness_EveryScanlineLastsHTotal : g1.configOk ∧ tm.configOk ∧
    { g1 with serIn := [g1.vlist true] }.serIn = [g1.vlist true] ∧
    { tm with serIn := [tm.header ++ [0, 0]] }.serIn = [tm.header ++ [0, 0]] := by decide +kernel

end Sys2Proof.Tests
end

section
/-!
The operation each agent runs in its turn, and O6: a step runs the operation it fetches.
-/

namespace Sys2Proof.Machine

variable {s : State}

/-! ## What each agent runs in its turn -/

theorem step_of_invoke_nil (hi : s.invoke = []) : step s = agentTurn s.nextTurn s.took := by
  simp only [step, hi]

theorem step_of_invoke_cons {i : Instr} {is : List Instr} (hi : s.invoke = i :: is) :
    step s = exec i { s with invoke := is } := by
  simp only [step, hi]

theorem appTurn_of_busy {op : HostOp} (hb : s.busy = some op) : appTurn s = .next (s.opStep op) := by
  simp only [appTurn, hb]

/-- The port cannot be empty here: no operation decodes from no words. -/
theorem appTurn_of_decodeH {i : Instr} {rest : List Word} (hb : s.busy = none)
    (hd : decodeH s.port = .ok (i, rest)) : appTurn s = exec i { s with port := rest } := by
  cases hp : s.port with
  | nil => rw [hp] at hd; cases hd
  | cons w ws => rw [hp] at hd; simp only [appTurn, hb, hp, hd]

theorem dmaTurn_of_inited (h : s.inited = true) : dmaTurn s = exec .xfer s := by
  simp only [dmaTurn, State.xferEnabled, h, if_true]

/-- The event vector `INTS` carries `PENDING[k]` in bit `k` (R75). -/
theorem State.ints_getLsbD (k : Channel) : s.ints.getLsbD k.val = s.pending.get k := by
  unfold State.ints
  obtain ⟨p0, p1, p2⟩ := s.pending
  revert k p0 p1 p2
  decide

theorem decodeE_eq_refill_iff : decodeE s.ints s.ch = .ok .refill ↔ s.pending.get s.ch = true := by
  unfold decodeE
  rw [State.ints_getLsbD]
  split <;> simp_all

theorem handlerTurn_of_refillEnabled (h : s.refillEnabled = true) : handlerTurn s = exec .refill s := by
  obtain ⟨hinit, hirq, hpend⟩ := refillEnabled_iff.1 h
  simp only [handlerTurn, hinit, hirq, decodeE_eq_refill_iff.2 hpend, Bool.and_self, if_true]

theorem serialTurn_of_decodeC {w : Word} {rest : List Word} {lines : List (List Word)} {i : Instr}
    (hs : s.serIn = (w :: rest) :: lines) (hd : decodeC w = .ok i) :
    serialTurn s = exec i { s with serIn := rest :: lines } := by
  simp only [serialTurn, hs, hd]

/-- Settles O6: a step is the turn of the agent that moves, and each agent runs what it fetches. -/
theorem stepRunsNextOperation : Obligations.StepRunsNextOperation := by
  unfold Obligations.StepRunsNextOperation
  refine ⟨?app, ?access, ?ring, ?handler, ?serial, ?byName⟩
  case app =>
    intro s i rest hi ha hb hd
    rw [step_of_invoke_nil hi, ha]
    exact appTurn_of_decodeH (s := s.took) hb hd
  case access =>
    intro s op hi ha hb
    rw [step_of_invoke_nil hi, ha]
    exact appTurn_of_busy (s := s.took) hb
  case ring =>
    intro s hi ha hinit
    rw [step_of_invoke_nil hi, ha]
    exact dmaTurn_of_inited (s := s.took) hinit
  case handler =>
    intro s hi ha hen
    rw [step_of_invoke_nil hi, ha]
    exact handlerTurn_of_refillEnabled (s := s.took) hen
  case serial =>
    intro s w rest lines i hi ha hs hd
    rw [step_of_invoke_nil hi, ha]
    exact serialTurn_of_decodeC (s := s.took) hs hd
  case byName =>
    intro s i is hi
    exact step_of_invoke_cons hi

end Sys2Proof.Machine
end

section
/-!
The two searches of `SELECT_TIMING`, and O22 and O23: what they answer.
-/

namespace Sys2Proof.Machine

/-! ## The search of `SELECT_TIMING` (R116) -/

variable {s : State} {catalog : List TimingDescriptor} {width height : Half}

/-- The order of R116 on repeat pairs: the horizontal shift first, then the vertical one. -/
abbrev shiftsBefore (p q : BitVec 2 × BitVec 2) : Prop :=
  p.1.toNat < q.1.toNat ∨ p.1.toNat = q.1.toNat ∧ p.2.toNat < q.2.toNat

theorem shiftsBefore_asymm {p q : BitVec 2 × BitVec 2} (h : shiftsBefore p q) : ¬shiftsBefore q p := by
  unfold shiftsBefore at *
  omega

/-- The pairs tried are all those with both shifts at most 2. -/
theorem mem_shiftPairs (hs vs : BitVec 2) : (hs, vs) ∈ shiftPairs ↔ hs.toNat ≤ 2 ∧ vs.toNat ≤ 2 := by
  revert hs vs; decide

/-- The pairs are tried in the order of R116. -/
theorem shiftPairs_pairwise : shiftPairs.Pairwise shiftsBefore := by
  decide

/-- A pair that comes before the pair `q` in the order stands before it in the list. -/
theorem mem_of_shiftsBefore {l₁ l₂ : List (BitVec 2 × BitVec 2)} {p q : BitVec 2 × BitVec 2}
    (hl : shiftPairs = l₁ ++ q :: l₂) (hp : p ∈ shiftPairs) (h : shiftsBefore p q) : p ∈ l₁ := by
  have hsorted : (l₁ ++ q :: l₂).Pairwise shiftsBefore := hl ▸ shiftPairs_pairwise
  have hafter : ∀ p' ∈ l₂, shiftsBefore q p' :=
    (List.pairwise_cons.1 (List.pairwise_append.1 hsorted).2.1).1
  rw [hl, List.mem_append, List.mem_cons] at hp
  rcases hp with hmem | rfl | hmem
  · exact hmem
  · exact absurd h (shiftsBefore_asymm h)
  · exact absurd h (shiftsBefore_asymm (hafter p hmem))

/-- No entry matches a graphic request at a repeat pair. -/
abbrev noneMatches (catalog : List TimingDescriptor) (width height : Half) (p : BitVec 2 × BitVec 2) : Prop :=
  ∀ t ∈ catalog, matchesGraphic width height p.1 p.2 t = false

theorem findAtShifts_eq_none_iff {p : BitVec 2 × BitVec 2} :
    ((catalog.find? (matchesGraphic width height p.1 p.2)).map fun t => (⟨t, p.1, p.2⟩ : Selection)) = none ↔
      noneMatches catalog width height p := by
  simp [noneMatches]

theorem selectGraphic_eq_none_iff : selectGraphic catalog width height = none ↔
    ∀ p ∈ shiftPairs, noneMatches catalog width height p := by
  simp only [selectGraphic, List.findSome?_eq_none_iff, findAtShifts_eq_none_iff]

/-- What the graphic search answers: the first match at its pair, and no match at any pair before it. -/
theorem selectGraphic_eq_some {t : TimingDescriptor} {hs vs : BitVec 2}
    (h : selectGraphic catalog width height = some ⟨t, hs, vs⟩) :
    catalog.find? (matchesGraphic width height hs vs) = some t ∧ (hs, vs) ∈ shiftPairs ∧
      ∀ p ∈ shiftPairs, shiftsBefore p (hs, vs) → noneMatches catalog width height p := by
  obtain ⟨l₁, q, l₂, hl, hfound, hbefore⟩ := List.findSome?_eq_some_iff.1 h
  obtain ⟨u, hu, heq⟩ := Option.map_eq_some_iff.1 hfound
  obtain ⟨rfl, rfl, rfl⟩ := Selection.mk.inj heq
  exact ⟨hu, hl ▸ List.mem_append_right _ List.mem_cons_self,
    fun p hp hlt => findAtShifts_eq_none_iff.1 (hbefore p (mem_of_shiftsBefore hl hp hlt))⟩

/-- `SELECT_TIMING` run by name returns its search, unless a configured font breaks R108 or R109 (log 22). -/
theorem exec_selectTiming {mode : Mode} (hf : Mode.isText mode = true → s.plat.font = none ∨
      Platform.fontReady s.plat = true) :
    exec (.selectTiming width height mode) s =
      .next { s with result := .selection (selectTiming s.plat width height mode) } := by
  change execSelectTiming width height mode s = _
  unfold execSelectTiming
  rw [if_neg]
  · rfl
  · simp only [Bool.and_eq_true, Bool.not_eq_true', not_and, Bool.not_eq_false]
    rintro ⟨hm, hfont⟩
    rcases hf hm with hnone | hready
    · rw [hnone] at hfont; cases hfont
    · exact hready

/-- Settles O22: the pairs are tried in rising order, so the first that finds an entry is the smallest. -/
theorem selectTimingSmallestRepeat : Obligations.SelectTimingSmallestRepeat := by
  unfold Obligations.SelectTimingSmallestRepeat
  intro s width height mode hm
  have hsel : selectTiming s.plat width height mode = selectGraphic s.plat.catalog width height := by
    simp [selectTiming, hm]
  refine ⟨_, exec_selectTiming (by simp [hm]), ?found, ?notFound⟩
  case found =>
    intro t hs vs h
    obtain ⟨hfind, hmem, hbefore⟩ := selectGraphic_eq_some (hsel ▸ h)
    obtain ⟨hhs, hvs⟩ := (mem_shiftPairs hs vs).1 hmem
    refine ⟨hfind, hhs, hvs, fun hok t' ht' hmatch => ?_, fun hs' vs' hhs' hvs' hlt => ?_⟩
    · exact matchesGraphic_unique hok ht' (List.mem_of_find?_eq_some hfind) hmatch (List.find?_some hfind)
    · exact hbefore (hs', vs') ((mem_shiftPairs hs' vs').2 ⟨hhs', hvs'⟩)
        (hlt.imp_right fun ⟨heq, hv⟩ => ⟨congrArg BitVec.toNat heq, hv⟩)
  case notFound =>
    intro h hs vs hhs hvs
    exact selectGraphic_eq_none_iff.1 (hsel ▸ h) (hs, vs) ((mem_shiftPairs hs vs).2 ⟨hhs, hvs⟩)

/-- A text match in numbers (R116): the rows of cells fill the height, and the cells leave 1 to 14 filler
pixels of a width that holds one cell at least. -/
theorem matchesText_iff {f : Font} {t : TimingDescriptor} : matchesText width height f t = true ↔
    height.toNat * f.glyphH = t.vAct.toNat ∧ 15 ≤ t.hAct.toNat ∧
      width.toNat * 14 + 1 ≤ t.hAct.toNat ∧ t.hAct.toNat ≤ width.toNat * 14 + 14 := by
  simp only [matchesText, cellW, Bool.and_eq_true, decide_eq_true_eq]
  omega

/-- Settles O23: without a font there is no answer, with one the answer is the first text match. -/
theorem selectTimingTextCells : Obligations.SelectTimingTextCells := by
  unfold Obligations.SelectTimingTextCells
  intro s width height mode hm hf
  have hsel : selectTiming s.plat width height mode =
      selectText s.plat.catalog s.plat.font width height := by simp [selectTiming, hm]
  refine ⟨_, exec_selectTiming fun _ => hf, ?_⟩
  rw [hsel]
  cases hfont : s.plat.font with
  | none => simp [selectText]
  | some f =>
    have hfontOf : s.font = f := by simp [State.font, hfont]
    rw [hfontOf]
    refine ⟨nofun, fun t hs vs h => ?_, fun h => .inr fun t ht => ?_⟩
    · obtain ⟨u, hfind, heq⟩ := Option.map_eq_some_iff.1 h
      obtain ⟨rfl, rfl, rfl⟩ := Selection.mk.inj heq
      obtain ⟨hv, -, hlo, hhi⟩ := matchesText_iff.1 (List.find?_some hfind)
      exact ⟨hfind, rfl, rfl, hv, hlo, hhi⟩
    · have hno := List.find?_eq_none.1 (Option.map_eq_none_iff.1 h) t ht
      rw [matchesText_iff] at hno
      omega

end Sys2Proof.Machine
end

section
/-!
What a step can do to the platform and to the tables that INIT builds, and O17: only INIT and RESET write
them.
-/

namespace Sys2Proof.Machine

variable {s t : State}

/-! ## The tables of INIT, step by step -/

/-- `CL_ON`, `CL_OFF`, `HDR`, `FC` and the headers of the line buffers: what INIT builds once (R67). -/
def State.tables (s : State) : List Word × List Word × List Word × List Word × List (List Word) :=
  (s.clOn, s.clOff, s.hdr, s.fc, s.lb.map LineBuffer.header)

theorem State.tables_eq_iff : t.tables = s.tables ↔ t.clOn = s.clOn ∧ t.clOff = s.clOff ∧ t.hdr = s.hdr ∧
    t.fc = s.fc ∧ t.lb.map LineBuffer.header = s.lb.map LineBuffer.header := by
  simp [State.tables]

@[simp] theorem State.opStep_tables (op : HostOp) : (s.opStep op).tables = s.tables := by
  simp [State.tables]

@[simp] theorem State.transfer_tables (k : Channel) : (s.transfer k).tables = s.tables := by
  simp [State.tables]

/-- A change of a pixel region leaves every header as it is. -/
theorem State.modifyPix_headers (k : Nat) (f : List Byte → List Byte) :
    (s.modifyPix k f).lb.map LineBuffer.header = s.lb.map LineBuffer.header := by
  rw [State.modifyPix_lb]
  apply List.ext_getElem <;> simp [List.getElem_modify, apply_ite LineBuffer.header]

theorem State.fillLine_headers (k y : Nat) :
    (s.fillLine k y).lb.map LineBuffer.header = s.lb.map LineBuffer.header := by
  unfold State.fillLine
  split <;> exact State.modifyPix_headers ..

theorem State.pointChannel_headers (c : Channel) :
    (s.pointChannel c).lb.map LineBuffer.header = s.lb.map LineBuffer.header := by
  unfold State.pointChannel
  split
  · rw [State.pointSync_lb]
  · rw [State.pointBlank_lb]
  · change (s.fillUnlessMarked _ _).lb.map LineBuffer.header = _
    unfold State.fillUnlessMarked
    split
    · rfl
    · exact State.fillLine_headers ..

@[simp] theorem State.refilled_tables : s.refilled.tables = s.tables := by
  have hlb : s.refilled.lb = ((handlerEntry s).pointChannel s.ch).lb := by
    simp [State.refilled, State.programChannel]
  simp [State.tables, hlb, State.pointChannel_headers]

/-! ## What a host operation can answer -/

/-- Two states that differ at most in what the start of a host operation other than INIT and RESET writes: the
buffer roles, the request, the palette, the operation under way and the replies. -/
abbrev State.differsAtHostStart (s t : State) : Prop :=
  t = { s with front := t.front, flipReq := t.flipReq, pal := t.pal, busy := t.busy, reply := t.reply }

theorem State.goOn_differsAtHostStart (remains : Bool) (op : HostOp) :
    s.differsAtHostStart (s.goOn remains op) := by
  cases remains <;> rfl

theorem State.checkFlip_differsAtHostStart : s.differsAtHostStart s.checkFlip := by
  unfold State.checkFlip; split <;> rfl

theorem State.checkVsync_differsAtHostStart : s.differsAtHostStart s.checkVsync := by
  unfold State.checkVsync; split <;> rfl

/-- A host operation is INIT, or RESET, or a start that leaves the rest of the state as it is. -/
theorem exec_host_next {i : Instr} (hf : i.format = .h) (h : exec i s = .next t) :
    (∃ width height mode, i = .init width height mode) ∨ i = .reset ∨ s.differsAtHostStart t := by
  cases i <;> simp only [exec] at h <;> try cases hf
  case init width height mode => exact .inl ⟨width, height, mode, rfl⟩
  case reset => exact .inr (.inl rfl)
  all_goals refine .inr (.inr ?_)
  case flipAsync => obtain ⟨-, ⟨⟩⟩ := whenInited_next.1 h; rfl
  case flipBlocking => obtain ⟨-, ⟨⟩⟩ := whenInited_next.1 h; rfl
  case flipNow =>
    obtain ⟨-, h⟩ := whenInited_next.1 h
    split at h <;> cases h
    rfl
  case waitVsync => obtain ⟨-, ⟨⟩⟩ := whenInited_next.1 h; exact State.checkVsync_differsAtHostStart
  case waitFlip => obtain ⟨-, ⟨⟩⟩ := whenInited_next.1 h; exact State.checkFlip_differsAtHostStart
  case clear => obtain ⟨-, ⟨⟩⟩ := whenInited_next.1 h; exact State.goOn_differsAtHostStart ..
  case writePixel => obtain ⟨-, -, -, -, ⟨⟩⟩ := graphicAccess_next.1 h; rfl
  case writeSpanFill =>
    obtain ⟨-, -, -, -, ⟨⟩⟩ := graphicAccess_next.1 h; exact State.goOn_differsAtHostStart ..
  case writeSpanCopy =>
    obtain ⟨-, -, -, -, ⟨⟩⟩ := graphicAccess_next.1 h; exact State.goOn_differsAtHostStart ..
  case readSpan => obtain ⟨-, -, -, -, ⟨⟩⟩ := graphicAccess_next.1 h; exact State.goOn_differsAtHostStart ..
  case palSet => cases h; rfl
  case palGet => cases h; rfl
  case writeText => obtain ⟨-, -, -, ⟨⟩⟩ := textAccess_next.1 h; exact State.goOn_differsAtHostStart ..

/-! ## The tables and the platform across a step -/

/-- The platform is kept, and the tables are kept, or the block is not initialised, or an INIT has counted. -/
abbrev State.keepsTables (s t : State) : Prop :=
  t.plat = s.plat ∧ (t.tables = s.tables ∨ t.inited = false ∨ t.epoch = s.epoch + 1)

@[simp] theorem afterReset_epoch : s.afterReset.epoch = s.epoch := by
  unfold State.afterReset; split <;> rfl

@[simp] theorem State.committed_plat (sel : Selection) (width height : Half) (mode : Mode) :
    (s.committed sel width height mode).plat = s.plat := by
  simp [State.committed]

@[simp] theorem State.committed_epoch (sel : Selection) (width height : Half) (mode : Mode) :
    (s.committed sel width height mode).epoch = s.epoch + 1 := by
  simp [State.committed]

theorem exec_host_keepsTables {i : Instr} (hf : i.format = .h) (h : exec i s = .next t) :
    s.keepsTables t := by
  rcases exec_host_next hf h with ⟨width, height, mode, rfl⟩ | rfl | ht
  · rcases execInit_next h with rfl | ⟨sel, -, -, -, rfl⟩
    · exact ⟨by simp, .inr (.inl (by simp))⟩
    · exact ⟨by simp, .inr (.inr (by simp))⟩
  · cases next_eq_iff.1 h
    exact ⟨afterReset_plat, .inr (.inl afterReset_inited)⟩
  · rw [State.keepsTables, ht]
    exact ⟨rfl, .inl rfl⟩

theorem appTurn_keepsTables (h : appTurn s = .next t) : s.keepsTables t := by
  rcases appTurn_next h with ⟨op, -, rfl⟩ | ⟨-, -, rfl⟩ | ⟨i, rest, -, hd, hexec⟩
  · exact ⟨by simp, .inl (by simp)⟩
  · exact ⟨rfl, .inl rfl⟩
  · exact exec_host_keepsTables (s := { s with port := rest }) (decodeH_format hd) hexec

theorem handlerTurn_keepsTables (h : handlerTurn s = .next t) : s.keepsTables t := by
  rcases handlerTurn_next h with rfl | ⟨-, hexec⟩
  · exact ⟨rfl, .inl rfl⟩
  · obtain ⟨-, -, rfl⟩ := execRefill_next.1 hexec
    exact ⟨by simp, .inl (by simp)⟩

theorem dmaTurn_keepsTables (h : dmaTurn s = .next t) : s.keepsTables t := by
  rcases dmaTurn_next h with ⟨-, rfl⟩ | ⟨-, hexec⟩
  · exact ⟨rfl, .inl rfl⟩
  · obtain ⟨-, -, rfl⟩ := execXfer_next.1 hexec
    exact ⟨by simp, .inl (by simp)⟩

theorem serialTurn_keepsTables (h : serialTurn s = .next t) : s.keepsTables t := by
  rw [State.keepsTables, serialTurn_next h]
  exact ⟨rfl, .inl rfl⟩

/-- The turn taken changes no table, so the step keeps what the agent's turn keeps. -/
theorem step_keepsTables (hi : s.invoke = []) (h : step s = .next t) : s.keepsTables t := by
  have hturn : s.took.keepsTables t := by
    rcases step_next hi h with ⟨-, h⟩ | ⟨-, h⟩ | ⟨-, h⟩ | ⟨-, h⟩
    · exact appTurn_keepsTables h
    · exact handlerTurn_keepsTables h
    · exact dmaTurn_keepsTables h
    · exact serialTurn_keepsTables h
  exact hturn

/-- Settles O17: INIT counts in `epoch` and RESET clears `INITED`, and every other step keeps the tables. -/
theorem tablesWrittenAtInitOnly : Obligations.TablesWrittenAtInitOnly := by
  unfold Obligations.TablesWrittenAtInitOnly
  intro s t hi h
  obtain ⟨hplat, hkept | hreset | hinit⟩ := step_keepsTables hi h
  · exact ⟨hplat, fun _ _ _ => State.tables_eq_iff.1 hkept⟩
  · exact ⟨hplat, fun _ hinited _ => absurd hinited (by simp [hreset])⟩
  · exact ⟨hplat, fun _ _ hepoch => by omega⟩

end Sys2Proof.Machine
end

section
/-!
The operations that set one element of the state, and O53, O7, O9, O21, O27, O44: what each leaves of it.
-/

namespace Sys2Proof.Machine

variable {s t : State}

/-- Settles O53: the entry read back is the one written, and no other entry is. -/
theorem paletteSetStoresColour : Obligations.PaletteSetStoresColour := by
  unfold Obligations.PaletteSetStoresColour
  intro s i colour
  refine ⟨s.writePal i (colourOf colour), rfl, rfl, ?_, fun j hj => ?_⟩
  · rw [State.readPal_writePal, if_pos rfl, toNat_colourOf]
  · rw [State.readPal_writePal, if_neg hj]

theorem dmaTurn_of_not_inited (h : s.inited = false) : dmaTurn s = .next s := by
  simp [dmaTurn, State.xferEnabled, h]

/-- Without a pending completion the event vector names no operation. -/
theorem decodeE_of_not_pending (h : s.pending.get s.ch = false) : decodeE s.ints s.ch = .error .noEvent := by
  rw [decodeE, State.ints_getLsbD, h]
  rfl

theorem handlerTurn_of_not_refillEnabled (h : s.refillEnabled = false) : handlerTurn s = .next s := by
  unfold handlerTurn
  cases henabled : s.inited && s.irqEn with
  | false => rfl
  | true =>
    have hpending : s.pending.get s.ch = false := by simpa [State.refillEnabled, henabled] using h
    rw [if_pos rfl, decodeE_of_not_pending hpending]

/-- Settles O7: the turn of an agent that is not enabled leaves the state with the turn taken. -/
theorem disabledAgentsPassTheirTurn : Obligations.DisabledAgentsPassTheirTurn := by
  unfold Obligations.DisabledAgentsPassTheirTurn
  intro s hi
  refine ⟨fun ha hinit => ?_, fun ha hen => ?_⟩
  · rw [step_of_invoke_nil hi, ha]
    exact dmaTurn_of_not_inited (s := s.took) hinit
  · rw [step_of_invoke_nil hi, ha]
    exact handlerTurn_of_not_refillEnabled (s := s.took) hen

theorem reset_stoppedOk : State.reset.stoppedOk :=
  ⟨rfl, rfl, rfl, rfl, rfl, rfl, rfl, rfl, rfl, rfl, rfl⟩

theorem reset_memoryOk : State.reset.memoryOk :=
  ⟨rfl, rfl, rfl, rfl, rfl, rfl⟩

/-- Settles O9: after reset the block is stopped, and its catalog has one entry of each size. -/
theorem resetStateHasInvariant : Obligations.ResetStateHasInvariant :=
  ⟨rfl, reset_memoryOk, rfl, nofun, fun _ => reset_stoppedOk, reset_catalogOk⟩

/-! ## RESET -/

theorem afterReset_of_inited (h : s.inited = true) : s.afterReset = s.released := if_pos h

theorem afterReset_of_not_inited (h : s.inited = false) : s.afterReset = s := by
  simp [State.afterReset, h]

/-- What RESET keeps: what stands outside the block, the palette, the lines sent and the model's own fields. -/
abbrev State.keptByReset (s t : State) : Prop :=
  t.plat = s.plat ∧ t.pal = s.pal ∧ t.out = s.out ∧ t.serIn = s.serIn ∧ t.wire = s.wire ∧ t.port = s.port ∧
    t.busy = s.busy ∧ t.reply = s.reply ∧ t.invoke = s.invoke ∧ t.epoch = s.epoch

theorem afterReset_kept : s.keptByReset s.afterReset := by
  cases h : s.inited with
  | true =>
    rw [afterReset_of_inited h]
    exact ⟨rfl, rfl, rfl, rfl, rfl, rfl, rfl, rfl, rfl, rfl⟩
  | false =>
    rw [afterReset_of_not_inited h]
    exact ⟨rfl, rfl, rfl, rfl, rfl, rfl, rfl, rfl, rfl, rfl⟩

/-- Settles O21: RESET leaves a block that is not initialised, and such a block it leaves as it is. -/
theorem resetReleasesTheBlock : Obligations.ResetReleasesTheBlock := by
  unfold Obligations.ResetReleasesTheBlock
  intro s
  obtain ⟨hplat, hpal, hout, hser, hwire, hport, hbusy, hreply, -, -⟩ := afterReset_kept (s := s)
  refine ⟨s.afterReset, rfl, ?_, afterReset_of_not_inited, afterReset_inited, fun hinit => ?_,
    State.readPal_congr hpal, hout, hplat, hreply, hport, hbusy, hser, hwire⟩
  · exact next_eq_iff.2 (afterReset_of_not_inited afterReset_inited).symm
  · rw [afterReset_of_inited hinit]
    exact ⟨rfl, rfl, rfl, rfl, rfl, rfl, rfl, rfl, rfl, rfl⟩

/-! ## VADVANCE and FLIP_ASYNC -/

theorem vAdvance_of_last (h : s.vScanline.toNat + 1 = s.vTotal) : s.vAdvance = s.wrap := if_pos h

theorem vAdvance_of_not_last (h : s.vScanline.toNat + 1 ≠ s.vTotal) :
    s.vAdvance = { s with vScanline := s.vScanline + 1 } := by
  rw [State.vAdvance, if_neg h]
  rfl

/-- Settles O27: the counter goes up by one, and at the last scanline the frame is closed. -/
theorem vadvanceCountsAndWraps : Obligations.VadvanceCountsAndWraps := by
  unfold Obligations.VadvanceCountsAndWraps
  intro s hinit
  have hexec : exec .vadvance s = .next s.vAdvance := whenInited_of hinit
  rw [hexec]
  refine ⟨fun h => ?_, fun h => ?_⟩
  · rw [vAdvance_of_not_last h]
  · rw [vAdvance_of_last h]
    rfl

/-- Settles O44: an initialised block accepts FLIP_ASYNC, whose one write is the flag. -/
theorem flipAsyncSetsTheFlag : Obligations.FlipAsyncSetsTheFlag :=
  fun _ hinit => whenInited_of hinit

end Sys2Proof.Machine
end

section
/-!
What PROGRAM, PRIME and INIT make of the state, as equations, and O18: a successful INIT element by element.
-/

namespace Sys2Proof.Machine

variable {s t : State}

/-! ## PROGRAM -/

/-- The vertical part of `VALID` (R117): there is an active line, the first three lines are inactive, and the
counter holds every scanline number. -/
theorem validTiming_vertical {d : TimingDescriptor} (h : validTiming d = true) :
    1 ≤ d.vAct.toNat ∧ 3 ≤ vInactiveOf d ∧ vTotalOf d ≤ 65535 := by
  simp only [validTiming, Bool.and_eq_true, decide_eq_true_eq] at h
  obtain ⟨⟨⟨-, hact⟩, hinactive⟩, htotal⟩ := h
  exact ⟨hact, hinactive, htotal⟩

theorem State.vTotal_eq (s : State) : s.vTotal = s.vInactive + s.timing.vAct.toNat := rfl

theorem classOf_eq_active_iff (v : Nat) : s.classOf v = .active ↔ s.vInactive ≤ v := by
  have hsync : s.timing.vFp.toNat + s.timing.vSw.toNat ≤ s.vInactive := Nat.le_add_right _ _
  unfold State.classOf
  split
  · simp; omega
  · split <;> simp <;> omega

@[simp] theorem State.pointChannel_desc (c : Channel) :
    (s.pointChannel c).desc = s.desc.set c (s.descFor c s.vScanline.toNat) := by
  unfold State.pointChannel State.descFor
  cases s.classOf s.vScanline.toNat with
  | sync => rfl
  | blank => rfl
  | active => simp [State.pointActive, State.pointRow]

theorem State.pointChannel_marker (c : Channel) : (s.pointChannel c).marker =
    if s.vInactive ≤ s.vScanline.toNat then some (s.slotOf c (s.rowOf s.vScanline.toNat)) else s.marker := by
  unfold State.pointChannel
  simp only [← classOf_eq_active_iff]
  cases s.classOf s.vScanline.toNat with
  | sync => rfl
  | blank => rfl
  | active => simp [State.pointActive]

/-- For an inactive scanline only the descriptor is written. -/
theorem pointChannel_of_inactive (c : Channel) (h : s.vScanline.toNat < s.vInactive) : s.pointChannel c =
    { s with desc := s.desc.set c (s.descFor c s.vScanline.toNat) } := by
  have hclass : s.classOf s.vScanline.toNat ≠ .active := by rw [Ne, classOf_eq_active_iff]; omega
  unfold State.pointChannel State.descFor
  cases hc : s.classOf s.vScanline.toNat with
  | sync => rfl
  | blank => rfl
  | active => exact absurd hc hclass

/-- The state with channel `c` pointed at the upcoming scanline and armed, and the counter advanced: what PROGRAM
leaves on an inactive scanline that is not the last. -/
def State.armedForNext (s : State) (c : Channel) : State :=
  { s with
    desc := s.desc.set c (s.descFor c s.vScanline.toNat)
    armed := s.armed.set c true
    vScanline := s.vScanline + 1 }

theorem programChannel_of_inactive (c : Channel) (hv : validTiming s.timing = true)
    (h : s.vScanline.toNat < s.vInactive) : s.programChannel c = s.armedForNext c := by
  obtain ⟨hact, -, -⟩ := validTiming_vertical hv
  have hnotLast : s.vScanline.toNat + 1 ≠ s.vTotal := by rw [State.vTotal_eq]; omega
  rw [State.programChannel, pointChannel_of_inactive c h]
  exact vAdvance_of_not_last hnotLast

/-! ## PRIME -/

/-- The state with the ring as PRIME leaves it: the channels carry the scanlines 0 to 2 (R90). -/
def State.withPrimedRing (s : State) : State :=
  { s with
    vScanline := 3
    flipReq := false
    front := false
    marker := none
    event := false
    ch := 0
    activeCh := 0
    irqEn := true
    pending := PerChannel.all false
    armed := PerChannel.all true
    desc := ⟨s.descFor 0 0, s.descFor 1 1, s.descFor 2 2⟩ }

/-- PRIME runs no fill: the scanlines 0 to 2 are inactive (R90, R117 (c)). -/
theorem primed_eq (hv : validTiming s.timing = true) : s.primed = s.withPrimedRing := by
  obtain ⟨-, hinactive, -⟩ := validTiming_vertical hv
  have h0 : 0 < s.vInactive := by change 0 < vInactiveOf s.timing; omega
  have h1 : 1 < s.vInactive := by change 1 < vInactiveOf s.timing; omega
  have h2 : 2 < s.vInactive := by change 2 < vInactiveOf s.timing; omega
  rw [State.primed, programChannel_of_inactive (s := s.primeStart) 0 hv h0,
    programChannel_of_inactive (s := s.primeStart.armedForNext 0) 1 hv h1,
    programChannel_of_inactive (s := (s.primeStart.armedForNext 0).armedForNext 1) 2 hv h2]
  rfl

/-! ## INIT -/

/-- The state with the tables of its configuration (R86, R87, R88, R111, R118). -/
def State.withTables (s : State) : State :=
  { s with
    clOn := s.vlist true
    clOff := s.vlist false
    hdr := s.header
    lb := List.replicate s.pool ⟨s.header, List.replicate (4 * s.lineWords) 0⟩
    fc := if s.mode = .textAttributed then fontCacheWords s.font else s.fc }

theorem built_eq : s.built = s.withTables := by
  unfold State.built State.withTables
  by_cases h : s.mode = .textAttributed
  · rw [if_pos h]
    exact if_pos h
  · rw [if_neg h]
    exact if_neg h

/-- The whole commit of INIT: the configuration, its tables, the ring primed. -/
theorem committed_eq {sel : Selection} (hv : validTiming sel.timing = true) (width height : Half) (mode : Mode) :
    s.committed sel width height mode =
      (s.configured sel width height mode).withTables.opened.withPrimedRing := by
  rw [State.committed, built_eq]
  exact primed_eq hv

/-- What INIT asks of its operands and of the platform to commit to a selection (R118, R139, I14). -/
structure InitAccepts (p : Platform) (width height : Half) (mode : Mode) (sel : Selection) : Prop where
  width_ne : width ≠ 0
  height_ne : height ≠ 0
  font : Mode.isText mode = true → Platform.fontReady p = true
  select : selectTiming p width height mode = some sel
  valid : validTiming sel.timing = true
  clock : Platform.clockOk p sel.timing.bitClk = true

theorem execInit_of_accepts {width height : Half} {mode : Mode} {sel : Selection}
    (h : InitAccepts s.plat width height mode sel) : execInit width height mode s =
      .next ((s.afterReset.committed sel width height mode).replied [statusOk]) := by
  have hoperands : ¬(width = 0 ∨ height = 0) := not_or.2 ⟨h.width_ne, h.height_ne⟩
  have hfont : ¬(Mode.isText mode && s.plat.font.isSome && !Platform.fontReady s.plat) = true := by
    simp only [Bool.and_eq_true, Bool.not_eq_true', not_and, Bool.not_eq_false]
    exact fun hm => h.font hm.1
  rw [execInit, initFrom, afterReset_plat, if_neg hoperands, if_neg hfont, h.select]
  simp only [h.valid, h.clock, if_true]

/-- Settles O18: the tables are those of the new configuration, and PRIME points the ring at the scanlines 0 to 2. -/
theorem initBringsUpTheBlock : Obligations.InitBringsUpTheBlock := by
  unfold Obligations.InitBringsUpTheBlock
  intro s width height mode sel hwidth hheight hfont hsel hvalid hclock hstopped
  have haccepts : InitAccepts s.plat width height mode sel := ⟨hwidth, hheight, hfont, hsel, hvalid, hclock⟩
  obtain ⟨hplat, hpal, -, -, -, hport, hbusy, hreply, -, hepoch⟩ := afterReset_kept (s := s)
  have hfc : s.afterReset.fc = [] := by
    cases hinit : s.inited with
    | true => rw [afterReset_of_inited hinit]; rfl
    | false =>
      rw [afterReset_of_not_inited hinit]
      obtain ⟨-, -, -, -, -, -, -, -, -, hfc, -⟩ := hstopped hinit
      exact hfc
  refine ⟨_, execInit_of_accepts haccepts, ?_⟩
  rw [committed_eq hvalid]
  obtain ⟨-, hinactive, -⟩ := validTiming_vertical hvalid
  refine ⟨rfl, rfl, rfl, rfl, rfl, rfl, rfl, ?memory, rfl, rfl, rfl, rfl, rfl, rfl, ?cache, rfl, rfl, rfl, ?ring,
    rfl, rfl, rfl, rfl, rfl, rfl, hplat, State.readPal_congr hpal, congrArg (· ++ [statusOk]) hreply, hport, hbusy⟩
  case memory =>
    intro b a
    rw [← hepoch]
    cases b <;> rfl
  case cache =>
    change (if mode = .textAttributed then _ else s.afterReset.fc) = _
    rw [hfc]
    rfl
  case ring =>
    intro k
    refine ⟨?_, ?_⟩
    · rw [Ne, classOf_eq_active_iff]
      change ¬vInactiveOf sel.timing ≤ k.val
      omega
    · rcases Channel.cases3 k with rfl | rfl | rfl <;> rfl

end Sys2Proof.Machine
end

section
/-!
The line buffers and the ring of a well-formed state, and O33: a transfer sends its whole region.
-/

namespace Sys2Proof.Machine

variable {s t : State}

/-! ## The regions a descriptor names -/

theorem State.length_vlist (v : Bool) : (s.vlist v).length = vlistLen := rfl

theorem State.length_header : s.header.length = s.hdrLen := by
  unfold State.header State.hdrTail State.hdrLen
  split <;> rfl

/-- A slot is an index into the pool (R98, R13). -/
theorem State.slotOf_lt_pool (c : Channel) (y : Nat) : s.slotOf c y < s.pool := by
  unfold State.slotOf State.pool
  split
  · exact c.isLt
  · exact Nat.mod_lt y (by decide)

/-- With the buffers as INIT built them, the region that a scanline's descriptor names has COUNT words. -/
theorem length_region_descFor (hb : s.buffersOk) (c : Channel) (v : Nat) :
    (s.region (s.descFor c v).src).length = (s.descFor c v).count := by
  obtain ⟨hclOn, hclOff, hhdr, hpool, hshape, -⟩ := hb
  unfold State.descFor
  cases s.classOf v with
  | sync => simp only [State.region, hclOn, State.length_vlist]
  | blank => simp only [State.region, hclOff, State.length_vlist]
  | active =>
    have hlt : s.slotOf c (s.rowOf v) < s.lb.length := hpool ▸ State.slotOf_lt_pool c _
    obtain ⟨hheader, hpix⟩ := hshape _ (List.getElem_mem hlt)
    simp only [State.region, List.getElem?_eq_getElem hlt, LineBuffer.words, List.length_append, hheader, hhdr,
      State.length_header, length_pixWords, hpix, State.lbLen]
    omega

/-! ## The armed channels -/

theorem State.armedCount_le (s : State) : s.armedCount ≤ 3 := by
  have h0 := s.armed.k0.toNat_le
  have h1 := s.armed.k1.toNat_le
  have h2 := s.armed.k2.toNat_le
  unfold State.armedCount
  omega

/-- The next channel to transfer, when it is armed, carries the oldest of the scanlines programmed. -/
theorem desc_of_armed_activeCh (hr : s.ringOk) (ha : s.armed.get s.activeCh = true) :
    s.desc.get s.activeCh =
      s.descFor s.activeCh ((s.vScanline.toNat + s.vTotal - s.armedCount) % s.vTotal) := by
  obtain ⟨-, -, -, -, harmed, hdesc⟩ := hr
  have hcount : 0 < s.armedCount := by simpa [ha] using (harmed 0).symm
  simpa using hdesc 0 hcount

/-- Settles O33: the descriptor of the channel is that of a scanline, and so its region has COUNT words. -/
theorem xferSendsWholeRegion : Obligations.XferSendsWholeRegion := by
  unfold Obligations.XferSendsWholeRegion
  rintro s t ⟨-, -, -, hrunning, -⟩ hexec
  obtain ⟨hinit, harmed, rfl⟩ := execXfer_next.1 hexec
  obtain ⟨-, hbuffers, hring, -⟩ := hrunning hinit
  have hlength : (s.region (s.desc.get s.activeCh).src).length = (s.desc.get s.activeCh).count := by
    rw [desc_of_armed_activeCh hring harmed]
    exact length_region_descFor hbuffers _ _
  exact ⟨s.region (s.desc.get s.activeCh).src, by
    rw [State.transfer_out, State.lineWordsOf, List.take_of_length_le hlength.le], rfl, hlength⟩

end Sys2Proof.Machine
end

section
/-!
The memories and the operation under way of a well-formed state: what an access and the start of a host operation
keep of them.
-/

namespace Sys2Proof.Machine

variable {s t : State}

/-! ## The bytes a single access writes lie in the frame buffer -/

/-- The written bytes of both frame buffers lie below a bound. -/
abbrev State.fbWithin (s : State) (bound : Nat) : Prop :=
  storeWithin bound (fun _ => true) s.fb0 = true ∧ storeWithin bound (fun _ => true) s.fb1 = true

theorem State.units_le_fbBytes (s : State) : s.units ≤ s.fbBytes := by
  unfold State.fbBytes
  exact Nat.le_mul_of_pos_right _ (by cases s.mode <;> decide)

theorem fbWithin_writeFb8 {bound : Nat} (h : s.fbWithin bound) (b : Bool) {off : Nat} (v : Byte)
    (hoff : off < bound) : (s.writeFb8 b off v).fbWithin bound := by
  obtain ⟨h0, h1⟩ := h
  cases b
  · exact ⟨storeWithin_storePut h0 hoff rfl, h1⟩
  · exact ⟨h0, storeWithin_storePut h1 hoff rfl⟩

theorem fbWithin_writeFb16 {bound : Nat} (h : s.fbWithin bound) (b : Bool) {off : Nat} (v : Half)
    (hoff : off + 1 < bound) : (s.writeFb16 b off v).fbWithin bound :=
  fbWithin_writeFb8 (fbWithin_writeFb8 h b _ (by omega)) b _ hoff

/-- A unit of a graphic frame lies in the frame buffer with all its bytes. -/
theorem fbWithin_writeUnit (h : s.fbWithin s.fbBytes) (b : Bool) {n : Nat} (v : Word)
    (hmode : Mode.isText s.mode = false) (hn : n < s.units) : (s.writeUnit b n v).fbWithin s.fbBytes := by
  have hunits := s.units_le_fbBytes
  unfold State.writeUnit
  split
  next hm =>
    refine fbWithin_writeFb16 h b _ ?_
    simp only [State.fbBytes, hm, Mode.frameBpu, unitOffset]
    omega
  next hm =>
    refine fbWithin_writeFb8 h b _ ?_
    rw [hm]
    exact Nat.lt_of_lt_of_le hn hunits
  next hm => rw [hm] at hmode; cases hmode
  next hm => rw [hm] at hmode; cases hmode

/-! ## The operation under way -/

theorem opOk_congr (hm : t.mode = s.mode) (hw : t.frameW = s.frameW) (hh : t.frameH = s.frameH) (op : HostOp) :
    t.opOk op = s.opOk op := by
  cases op <;> simp only [State.opOk, State.fbBytes_congr hw hh hm, State.units_congr hw hh, hm]

theorem opOk_pixel_iff {b : Bool} {n : Nat} {v : Word} : s.opOk (.pixel b n v) = true ↔
    Mode.isText s.mode = false ∧ n < s.units := by
  simp [State.opOk]

theorem opOk_spanFill_iff {b : Bool} {n len : Nat} {v : Word} : s.opOk (.spanFill b n len v) = true ↔
    Mode.isText s.mode = false ∧ 1 ≤ len ∧ n + len ≤ s.units := by
  simp [State.opOk, and_assoc]

theorem opOk_spanCopy_iff {b : Bool} {n : Nat} {data : List Word} : s.opOk (.spanCopy b n data) = true ↔
    Mode.isText s.mode = false ∧ (!data.isEmpty) = true ∧ n + data.length ≤ s.units := by
  simp [State.opOk, and_assoc]

theorem opOk_readSpan_iff {b : Bool} {n len : Nat} {got : List Word} : s.opOk (.readSpan b n len got) = true ↔
    Mode.isText s.mode = false ∧ 1 ≤ len ∧ n + len ≤ s.units := by
  simp [State.opOk, and_assoc]

theorem opOk_text_iff {b : Bool} {n : Nat} {bytes : List Byte} {attr : Byte} {attrNext : Bool} :
    s.opOk (.text b n bytes attr attrNext) = true ↔ Mode.isText s.mode = true ∧ (!bytes.isEmpty) = true ∧
      n + bytes.length ≤ s.units ∧ (attrNext = true → s.mode = .textAttributed) := by
  cases attrNext <;> simp [State.opOk, and_assoc]

theorem busyOk_of_none (h : s.busy = none) : s.busyOk = true := by
  simp [State.busyOk, h]

theorem busyOk_enterOp {op : HostOp} : (s.enterOp op).busyOk = s.opOk op := opOk_congr rfl rfl rfl op

/-- The two conditions on the state between two accesses: the bytes written and the accesses that remain lie in
the frame buffer. -/
abbrev State.accessOk (s : State) (bound : Nat) : Prop := s.fbWithin bound ∧ s.busyOk = true

theorem busyOk_goOn {remains : Bool} {op : HostOp} (hop : remains = true → s.opOk op = true) :
    (s.goOn remains op).busyOk = true := by
  cases remains with
  | false => rfl
  | true => exact busyOk_enterOp.trans (hop rfl)

theorem accessOk_goOn {bound : Nat} (h : s.fbWithin bound) {remains : Bool} {op : HostOp}
    (hop : remains = true → s.opOk op = true) : (s.goOn remains op).accessOk bound :=
  ⟨by cases remains <;> exact h, busyOk_goOn hop⟩

/-- The check of a wait goes on with the wait, or leaves it. -/
theorem checkFlip_eq_goOn : s.checkFlip = s.goOn s.flipReq (.waitFlip true) := by
  unfold State.checkFlip State.flipDone
  cases s.flipReq <;> rfl

theorem checkVsync_eq_goOn : s.checkVsync = s.goOn (!s.inVsync) (.waitVsync true) := by
  unfold State.checkVsync
  cases s.inVsync <;> rfl

theorem opOk_writeFb8 (b : Bool) (off : Nat) (v : Byte) (op : HostOp) :
    (s.writeFb8 b off v).opOk op = s.opOk op := opOk_congr (by simp) (by simp) (by simp) op

theorem opOk_writeUnit (b : Bool) (n : Nat) (v : Word) (op : HostOp) :
    (s.writeUnit b n v).opOk op = s.opOk op := opOk_congr (by simp) (by simp) (by simp) op

/-- An access of `WRITE_TEXT`: the code of a cell in plane 0, or its byte in plane 1 (R55, R134). -/
theorem accessOk_opStep_text (h : s.fbWithin s.fbBytes) {b : Bool} {n : Nat} {c : Byte} {rest : List Byte}
    {attr : Byte} {attrNext : Bool} (hop : s.opOk (.text b n (c :: rest) attr attrNext) = true) :
    (s.opStep (.text b n (c :: rest) attr attrNext)).accessOk s.fbBytes := by
  obtain ⟨hmode, hne, hn, hattr⟩ := opOk_text_iff.1 hop
  rw [List.length_cons] at hn
  have hrest : (!rest.isEmpty) = true → s.opOk (.text b (n + 1) rest attr false) = true :=
    fun hmore => opOk_text_iff.2 ⟨hmode, hmore, by omega, nofun⟩
  have hcode : (s.writeFb8 b n c).fbWithin s.fbBytes :=
    fbWithin_writeFb8 h b c (by have := s.units_le_fbBytes; omega)
  cases attrNext with
  | true =>
    have hoff : s.attrOffset n < s.fbBytes := by
      simp only [State.attrOffset, State.fbBytes, hattr rfl, Mode.frameBpu]
      omega
    exact accessOk_goOn (fbWithin_writeFb8 h b attr hoff) fun hmore => (opOk_writeFb8 ..).trans (hrest hmore)
  | false =>
    simp only [State.opStep, Bool.false_eq_true, if_false]
    split
    next hm =>
      exact ⟨hcode, busyOk_enterOp.trans ((opOk_writeFb8 ..).trans
        (opOk_text_iff.2 ⟨hmode, hne, hn, fun _ => hm⟩))⟩
    next => exact accessOk_goOn hcode fun hmore => (opOk_writeFb8 ..).trans (hrest hmore)

/-- One access of a well-formed operation stays in the frame buffer, and what remains of it is well formed. -/
theorem accessOk_opStep (h : s.fbWithin s.fbBytes) {op : HostOp} (hop : s.opOk op = true) :
    (s.opStep op).accessOk s.fbBytes := by
  cases op with
  | clear b off =>
    exact accessOk_goOn (fbWithin_writeFb8 h b 0 (of_decide_eq_true hop)) fun hmore =>
      (opOk_writeFb8 ..).trans hmore
  | pixel b n v =>
    obtain ⟨hmode, hn⟩ := opOk_pixel_iff.1 hop
    exact ⟨fbWithin_writeUnit h b v hmode hn, rfl⟩
  | spanFill b n len v =>
    obtain ⟨hmode, hlen, hn⟩ := opOk_spanFill_iff.1 hop
    refine accessOk_goOn (fbWithin_writeUnit h b v hmode (by omega)) fun hmore => (opOk_writeUnit ..).trans ?_
    have hmore := of_decide_eq_true hmore
    exact opOk_spanFill_iff.2 ⟨hmode, by omega, by omega⟩
  | spanCopy b n data =>
    obtain ⟨hmode, hne, hn⟩ := opOk_spanCopy_iff.1 hop
    cases data with
    | nil => cases hne
    | cons v rest =>
      rw [List.length_cons] at hn
      exact accessOk_goOn (fbWithin_writeUnit h b v hmode (by omega)) fun hmore =>
        (opOk_writeUnit ..).trans (opOk_spanCopy_iff.2 ⟨hmode, hmore, by omega⟩)
  | readSpan b n len got =>
    obtain ⟨hmode, hlen, hn⟩ := opOk_readSpan_iff.1 hop
    simp only [State.opStep]
    split
    · exact ⟨h, busyOk_enterOp.trans (opOk_readSpan_iff.2 ⟨hmode, by omega, by omega⟩)⟩
    · exact ⟨h, rfl⟩
  | text b n bytes attr attrNext =>
    cases bytes with
    | nil =>
      obtain ⟨-, hne, -⟩ := opOk_text_iff.1 hop
      cases hne
    | cons c rest => exact accessOk_opStep_text h hop
  | waitFlip asleep =>
    cases asleep with
    | true => exact ⟨h, rfl⟩
    | false =>
      change s.checkFlip.accessOk _
      rw [checkFlip_eq_goOn]
      exact accessOk_goOn h fun _ => rfl
  | waitVsync asleep =>
    cases asleep with
    | true => exact ⟨h, rfl⟩
    | false =>
      change s.checkVsync.accessOk _
      rw [checkVsync_eq_goOn]
      exact accessOk_goOn h fun _ => rfl

/-! ## The start of a host operation -/

/-- The palette is kept or stores one colour, and the operation under way is kept or a new one that lies in the
frame buffer of an initialised block. -/
abbrev State.startsInside (s t : State) : Prop :=
  (t.pal = s.pal ∨ ∃ i w, t.pal = (s.writePal i (colourOf w)).pal) ∧
    (t.busy = s.busy ∨ s.inited = true ∧ t.busyOk = true)

theorem exec_host_startsInside {i : Instr} (hf : i.format = .h) (h : exec i s = .next t) :
    s.startsInside t := by
  cases i <;> simp only [exec] at h <;> try cases hf
  case init width height mode =>
    obtain ⟨-, hpal, -, -, -, -, hbusy, -⟩ := afterReset_kept (s := s)
    rcases execInit_next h with rfl | ⟨sel, -, -, -, rfl⟩
    · exact ⟨.inl hpal, .inl hbusy⟩
    · exact ⟨.inl (by simpa [State.committed] using hpal), .inl (by simpa [State.committed] using hbusy)⟩
  case reset =>
    cases h
    obtain ⟨-, hpal, -, -, -, -, hbusy, -⟩ := afterReset_kept (s := s)
    exact ⟨.inl hpal, .inl hbusy⟩
  case flipAsync => obtain ⟨-, ⟨⟩⟩ := whenInited_next.1 h; exact ⟨.inl rfl, .inl rfl⟩
  case flipBlocking => obtain ⟨hinit, ⟨⟩⟩ := whenInited_next.1 h; exact ⟨.inl rfl, .inr ⟨hinit, rfl⟩⟩
  case flipNow =>
    obtain ⟨-, h⟩ := whenInited_next.1 h
    split at h <;> cases h
    exact ⟨.inl rfl, .inl rfl⟩
  case waitVsync =>
    obtain ⟨hinit, ⟨⟩⟩ := whenInited_next.1 h
    rw [checkVsync_eq_goOn]
    exact ⟨.inl (by simp), .inr ⟨hinit, busyOk_goOn fun _ => rfl⟩⟩
  case waitFlip =>
    obtain ⟨hinit, ⟨⟩⟩ := whenInited_next.1 h
    rw [checkFlip_eq_goOn]
    exact ⟨.inl (by simp), .inr ⟨hinit, busyOk_goOn fun _ => rfl⟩⟩
  case clear =>
    obtain ⟨hinit, ⟨⟩⟩ := whenInited_next.1 h
    exact ⟨.inl (by simp), .inr ⟨hinit, busyOk_goOn id⟩⟩
  case writePixel x y value =>
    obtain ⟨hinit, hmode, -, hin, ⟨⟩⟩ := graphicAccess_next.1 h
    obtain ⟨-, -, hn⟩ := inBounds_iff.1 hin
    exact ⟨.inl rfl, .inr ⟨hinit, busyOk_enterOp.trans (opOk_pixel_iff.2 ⟨hmode, hn⟩)⟩⟩
  case writeSpanFill x y len value =>
    obtain ⟨hinit, hmode, -, hin, ⟨⟩⟩ := graphicAccess_next.1 h
    obtain ⟨-, -, hn⟩ := inBounds_iff.1 hin
    exact ⟨.inl (by simp), .inr ⟨hinit, busyOk_goOn fun hlen =>
      opOk_spanFill_iff.2 ⟨hmode, of_decide_eq_true hlen, hn⟩⟩⟩
  case writeSpanCopy x y data =>
    obtain ⟨hinit, hmode, -, hin, ⟨⟩⟩ := graphicAccess_next.1 h
    obtain ⟨-, -, hn⟩ := inBounds_iff.1 hin
    exact ⟨.inl (by simp), .inr ⟨hinit, busyOk_goOn fun hne => opOk_spanCopy_iff.2 ⟨hmode, hne, hn⟩⟩⟩
  case readSpan x y len =>
    obtain ⟨hinit, hmode, -, hin, ⟨⟩⟩ := graphicAccess_next.1 h
    obtain ⟨-, -, hn⟩ := inBounds_iff.1 hin
    exact ⟨.inl (by simp), .inr ⟨hinit, busyOk_goOn fun hlen =>
      opOk_readSpan_iff.2 ⟨hmode, of_decide_eq_true hlen, hn⟩⟩⟩
  case palSet index colour => cases h; exact ⟨.inr ⟨index, colour, rfl⟩, .inl rfl⟩
  case palGet index => cases h; exact ⟨.inl rfl, .inl rfl⟩
  case writeText x y bytes attr immediate =>
    obtain ⟨hinit, hmode, hin, ⟨⟩⟩ := textAccess_next.1 h
    obtain ⟨-, -, hn⟩ := inBounds_iff.1 hin
    exact ⟨.inl (by simp), .inr ⟨hinit, busyOk_goOn fun hne => opOk_text_iff.2 ⟨hmode, hne, hn, nofun⟩⟩⟩

end Sys2Proof.Machine
end

section
/-!
The configuration, the tables, the ring and the marker: what INIT, XFER and REFILL keep of them.
-/

namespace Sys2Proof.Machine

variable {s t : State}

/-! ## The shape of the line buffers -/

/-- What a fill keeps of a line buffer: its header, and how many bytes its pixel region has. -/
def LineBuffer.shape (b : LineBuffer) : List Word × Nat := (b.header, b.pix.length)

theorem State.modifyPix_shape (k : Nat) {f : List Byte → List Byte} (hf : ∀ p, (f p).length = p.length) :
    (s.modifyPix k f).lb.map LineBuffer.shape = s.lb.map LineBuffer.shape := by
  rw [State.modifyPix_lb]
  refine List.ext_getElem (by simp) fun i _ _ => ?_
  rw [List.getElem_map, List.getElem_map, List.getElem_modify]
  split
  · simp [LineBuffer.shape, hf]
  · rfl

theorem State.fillLine_shape (k y : Nat) :
    (s.fillLine k y).lb.map LineBuffer.shape = s.lb.map LineBuffer.shape := by
  unfold State.fillLine
  cases s.mode with
  | rgb565 => exact State.modifyPix_shape k (length_pixRgb565 s y)
  | palette8 => exact State.modifyPix_shape k (length_pixPal8 s y)
  | textMono => exact State.modifyPix_shape k (length_pixTextmono s y)
  | textAttributed => exact State.modifyPix_shape k (length_pixTextattr s y)

theorem State.pointChannel_shape (c : Channel) :
    (s.pointChannel c).lb.map LineBuffer.shape = s.lb.map LineBuffer.shape := by
  unfold State.pointChannel
  split
  · rw [State.pointSync_lb]
  · rw [State.pointBlank_lb]
  · change (s.fillUnlessMarked _ _).lb.map LineBuffer.shape = _
    unfold State.fillUnlessMarked
    split
    · rfl
    · exact State.fillLine_shape ..

/-- Line buffers of the same shapes all have a given shape together. -/
theorem forall_shape_of_map_eq {l l' : List LineBuffer} {header : List Word} {n : Nat}
    (hl : l'.map LineBuffer.shape = l.map LineBuffer.shape) (h : ∀ b ∈ l, b.header = header ∧ b.pix.length = n) :
    ∀ b ∈ l', b.header = header ∧ b.pix.length = n := by
  intro b hb
  obtain ⟨b', hb', hshape⟩ := List.mem_map.1 (hl ▸ List.mem_map_of_mem hb : b.shape ∈ l.map LineBuffer.shape)
  obtain ⟨hheader, hlength⟩ := Prod.mk.inj hshape
  exact hheader ▸ hlength ▸ h b' hb'

/-! ## REFILL, element by element -/

theorem State.pointChannel_eq (c : Channel) : s.pointChannel c =
    { s with lb := (s.pointChannel c).lb, desc := (s.pointChannel c).desc, marker := (s.pointChannel c).marker } := by
  unfold State.pointChannel
  split
  · rfl
  · rfl
  · unfold State.pointActive State.pointRow State.fillUnlessMarked
    split
    · rfl
    · unfold State.fillLine
      split <;> rfl

/-- Two states that differ at most in what REFILL writes: the line buffers and the ring, the buffer roles and the
flags of the end of a frame. -/
abbrev State.differsInRing (s t : State) : Prop :=
  t = { s with
    lb := t.lb, desc := t.desc, marker := t.marker, armed := t.armed, pending := t.pending, ch := t.ch
    vScanline := t.vScanline, front := t.front, flipReq := t.flipReq, event := t.event }

theorem refilled_differsInRing : s.differsInRing s.refilled := by
  unfold State.differsInRing State.refilled handlerReturn State.programChannel
  rw [State.pointChannel_eq]
  unfold State.vAdvance
  split <;> rfl

theorem State.programChannel_desc (c : Channel) :
    (s.programChannel c).desc = s.desc.set c (s.descFor c s.vScanline.toNat) := by
  simp [State.programChannel]

theorem State.programChannel_armed (c : Channel) : (s.programChannel c).armed = s.armed.set c true := by
  simp [State.programChannel]

theorem State.programChannel_shape (c : Channel) :
    (s.programChannel c).lb.map LineBuffer.shape = s.lb.map LineBuffer.shape := by
  simp [State.programChannel, State.pointChannel_shape]

/-- The counter after PROGRAM, in numbers: no scanline number is cut to 16 bits (R117 (d)). -/
theorem State.programChannel_vScanline (c : Channel) (hlt : s.vScanline.toNat < s.vTotal) (hT : s.vTotal ≤ 65535) :
    (s.programChannel c).vScanline.toNat =
      if s.vScanline.toNat + 1 = s.vTotal then 0 else s.vScanline.toNat + 1 := by
  have hv : ((s.pointChannel c).arm c).vScanline = s.vScanline := by simp
  have hV : ((s.pointChannel c).arm c).vTotal = s.vTotal := State.vTotal_congr (by simp)
  unfold State.programChannel
  split
  next h =>
    rw [vAdvance_of_last (by rw [hv, hV, h])]
    rfl
  next h =>
    rw [vAdvance_of_not_last (by rw [hv, hV]; exact h), hv]
    bv_omega

theorem State.programChannel_marker (c : Channel) : (s.programChannel c).marker =
    if s.vScanline.toNat + 1 = s.vTotal then none
    else if s.vInactive ≤ s.vScanline.toNat then some (s.slotOf c (s.rowOf s.vScanline.toNat))
    else s.marker := by
  have hv : ((s.pointChannel c).arm c).vScanline = s.vScanline := by simp
  have hV : ((s.pointChannel c).arm c).vTotal = s.vTotal := State.vTotal_congr (by simp)
  unfold State.programChannel
  split
  next h =>
    rw [vAdvance_of_last (by rw [hv, hV, h])]
    rfl
  next h =>
    rw [vAdvance_of_not_last (by rw [hv, hV]; exact h)]
    exact State.pointChannel_marker c

/-! ## The ring -/

theorem PerChannel.get_set_add {α : Type} (v : PerChannel α) (k i j : Channel) (a : α) :
    (v.set (k + i) a).get (k + j) = if j = i then a else v.get (k + j) := by
  simp only [PerChannel.get_set, add_right_inj]

/-- A channel that is freed and one that is armed trade their two flags. -/
theorem pending_eq_not_armed_set {pending armed : PerChannel Bool} (h : ∀ k, pending.get k = !armed.get k)
    (c : Channel) (b : Bool) (k : Channel) : (pending.set c (!b)).get k = !(armed.set c b).get k := by
  simp only [PerChannel.get_set, h k]
  split <;> rfl

theorem armedCount_arm {c : Channel} (h : s.armed.get c = false) :
    (s.arm c).armedCount = s.armedCount + 1 := by
  unfold State.armedCount State.arm
  rcases Channel.cases3 c with rfl | rfl | rfl <;> simp_all [PerChannel.get, PerChannel.set] <;> omega

theorem armedCount_complete {k : Channel} (h : s.armed.get k = true) :
    (s.complete k).armedCount + 1 = s.armedCount := by
  unfold State.armedCount State.complete
  rcases Channel.cases3 k with rfl | rfl | rfl <;> simp_all [PerChannel.get, PerChannel.set] <;> omega

/-- The scanline the channel `j` places on carries is the same before and after the counter goes on: the counter
and the number of armed channels go up together. -/
theorem carried_after_advance {v total count j : Nat} (hcount : count + 1 ≤ total) :
    ((if v + 1 = total then 0 else v + 1) + total - (count + 1) + j) % total =
      (v + total - count + j) % total := by
  split
  next hlast =>
    have hsum : v + total - count + j = total + (0 + total - (count + 1) + j) := by omega
    rw [hsum, Nat.add_mod_left]
  next => congr 1; omega

theorem ofNat_succ_channel (n : Nat) : (Fin.ofNat 3 (n + 1) : Channel) = 1 + Fin.ofNat 3 n := by
  ext
  simp [Fin.val_add]
  omega

theorem transfer_ringOk (hr : s.ringOk) (ha : s.armed.get s.activeCh = true) (hT : 3 ≤ s.vTotal) :
    (s.transfer s.activeCh).ringOk := by
  obtain ⟨hirq, hlt, hpend, hch, harmed, hdesc⟩ := hr
  have hcount : (s.transfer s.activeCh).armedCount + 1 = s.armedCount := armedCount_complete ha
  have hle := s.armedCount_le
  have hnext : ∀ j : Channel, (1 + j : Channel) = 0 ∧ j.val = 2 ∨
      (1 + j : Channel) ≠ 0 ∧ (1 + j : Channel).val = j.val + 1 := by decide
  have hoff : ∀ j : Channel, (s.transfer s.activeCh).activeCh + j = s.activeCh + (1 + j) := by
    intro j
    rw [State.transfer_activeCh, chain_eq, add_assoc]
  refine ⟨hirq, hlt, pending_eq_not_armed_set hpend s.activeCh false, ?ch, ?armed, ?desc⟩
  case ch =>
    rw [State.transfer_ch, hoff, ← ofNat_succ_channel, hcount]
    exact hch
  case armed =>
    intro j
    rw [hoff, State.transfer_armed]
    have hset := PerChannel.get_set_add s.armed s.activeCh 0 (1 + j) false
    rw [add_zero] at hset
    rw [hset, harmed]
    rcases hnext j with ⟨hzero, hval⟩ | ⟨hne, hval⟩
    · rw [if_pos hzero, eq_comm, decide_eq_false_iff_not]
      omega
    · rw [if_neg hne, hval, decide_eq_decide]
      omega
  case desc =>
    intro j hj
    rw [hoff]
    rcases hnext j with ⟨-, hval⟩ | ⟨-, hval⟩
    · omega
    · have hold := hdesc (1 + j) (by omega)
      rw [hval] at hold
      refine hold.trans ?_
      change s.descFor _ _ = s.descFor _ ((s.vScanline.toNat + s.vTotal - _ + _) % s.vTotal)
      congr 2
      omega

/-- With the completion of `CH` pending, `CH` is as many places after the next channel to transfer as there are
armed channels, and these are two at most. -/
theorem ch_place_of_pending (hr : s.ringOk) (hp : s.pending.get s.ch = true) :
    s.armed.get s.ch = false ∧ ∀ j : Channel, j = Fin.ofNat 3 s.armedCount ↔ j.val = s.armedCount := by
  obtain ⟨-, -, hpend, hch, harmed, -⟩ := hr
  have hfree : s.armed.get s.ch = false := by simpa [hp] using hpend s.ch
  have hplace : ¬(Fin.ofNat 3 s.armedCount : Channel).val < s.armedCount := by
    rw [hch, harmed] at hfree
    exact of_decide_eq_false hfree
  have hle := s.armedCount_le
  rw [Fin.val_ofNat] at hplace
  refine ⟨hfree, fun j => ?_⟩
  rw [Fin.ext_iff, Fin.val_ofNat]
  omega

theorem refilled_ringOk (hr : s.ringOk) (hp : s.pending.get s.ch = true) (hT : 3 ≤ s.vTotal)
    (hT' : s.vTotal ≤ 65535) : s.refilled.ringOk := by
  obtain ⟨hfree, hplace⟩ := ch_place_of_pending hr hp
  obtain ⟨hirq, hlt, hpend, hch, harmed, hdesc⟩ := hr
  have harm : s.refilled.armed = s.armed.set s.ch true := State.programChannel_armed s.ch
  have hcount : s.refilled.armedCount = s.armedCount + 1 := by
    rw [← armedCount_arm hfree]
    simp only [State.armedCount, harm, State.arm_armed]
  have hle : s.armedCount + 1 ≤ 3 := hcount ▸ s.refilled.armedCount_le
  have hv : s.refilled.vScanline.toNat = if s.vScanline.toNat + 1 = s.vTotal then 0 else s.vScanline.toNat + 1 :=
    State.programChannel_vScanline (s := handlerEntry s) s.ch hlt hT'
  have hV : s.refilled.vTotal = s.vTotal := State.vTotal_congr (by simp)
  have hd : s.refilled.desc = s.desc.set s.ch (s.descFor s.ch s.vScanline.toNat) :=
    State.programChannel_desc (s := handlerEntry s) s.ch
  have hdf : ∀ c v, s.refilled.descFor c v = s.descFor c v :=
    State.descFor_congr (by simp) (by simp) (by simp) (by simp) (by simp)
  refine ⟨?_, ?_, ?pending, ?ch, ?armed, ?desc⟩
  · rw [State.refilled_irqEn, hirq]
  · rw [hv, hV]
    split <;> omega
  case pending =>
    rw [harm, State.refilled_pending]
    exact pending_eq_not_armed_set hpend s.ch true
  case ch =>
    rw [State.refilled_ch, chain_eq, hcount, ofNat_succ_channel, hch, State.refilled_activeCh]
    rw [add_assoc, add_comm 1]
  case armed =>
    intro j
    rw [harm, State.refilled_activeCh, hcount, hch, PerChannel.get_set_add, harmed]
    simp only [hplace]
    split
    next hj => rw [eq_comm, decide_eq_true_iff]; omega
    next hj => rw [decide_eq_decide]; omega
  case desc =>
    intro j hj
    rw [hcount] at hj ⊢
    rw [hd, State.refilled_activeCh, hdf, hv, hV, carried_after_advance (by omega)]
    conv_lhs => rw [hch, PerChannel.get_set_add]
    split
    next hlast =>
      have hnum : s.vScanline.toNat + s.vTotal - s.armedCount + j.val = s.vScanline.toNat + s.vTotal := by
        have := (hplace j).1 hlast
        omega
      rw [← hlast, hnum, Nat.add_mod_right, Nat.mod_eq_of_lt hlt]
    next hne => exact hdesc j (by have := (hplace j).not.1 hne; omega)

/-- The marker is cleared at the wrap, and otherwise names the slot of the line just programmed, if it is active. -/
theorem refilled_markerOk (hr : s.ringOk) (hm : s.markerOk) (hT' : s.vTotal ≤ 65535) : s.refilled.markerOk := by
  obtain ⟨-, hlt, -⟩ := hr
  have hv : s.refilled.vScanline.toNat = if s.vScanline.toNat + 1 = s.vTotal then 0 else s.vScanline.toNat + 1 :=
    State.programChannel_vScanline (s := handlerEntry s) s.ch hlt hT'
  have hmarker : s.refilled.marker = _ := State.programChannel_marker (s := handlerEntry s) s.ch
  have hch : s.refilled.ch + 2 = s.ch := by
    rw [State.refilled_ch, chain_eq, add_assoc]
    exact add_zero s.ch
  have hV : s.refilled.vInactive = s.vInactive := State.vInactive_congr (by simp)
  have hslot : ∀ y, s.refilled.slotOf s.ch y = s.slotOf s.ch y := State.slotOf_congr (by simp) s.ch
  have hrow : ∀ v, s.refilled.rowOf v = s.rowOf v := State.rowOf_congr (by simp) (by simp)
  rw [State.markerOk, hv, hmarker, hch, hV, hslot, hrow]
  change (if s.vScanline.toNat + 1 = s.vTotal then none
    else if s.vInactive ≤ s.vScanline.toNat then some (s.slotOf s.ch (s.rowOf s.vScanline.toNat))
    else s.marker) = _
  split
  next => simp
  next =>
    rcases Nat.lt_or_ge s.vScanline.toNat s.vInactive with hinactive | hactive
    · rw [if_neg (by omega), if_pos (by omega), hm, if_pos (by omega)]
    · rw [if_pos hactive, if_neg (by omega), Nat.add_sub_cancel]

/-! ## The tables -/

theorem refilled_buffersOk (hb : s.buffersOk) : s.refilled.buffersOk := by
  obtain ⟨hclOn, hclOff, hhdr, hpool, hshape, hfc⟩ := hb
  have hshapes : s.refilled.lb.map LineBuffer.shape = s.lb.map LineBuffer.shape :=
    State.programChannel_shape (s := handlerEntry s) s.ch
  have hlength : s.refilled.lb.length = s.pool := by
    rw [← hpool, ← List.length_map LineBuffer.shape, hshapes, List.length_map]
  have hall := forall_shape_of_map_eq hshapes hshape
  rw [refilled_differsInRing]
  exact ⟨hclOn, hclOff, hhdr, hlength, hall, hfc⟩

end Sys2Proof.Machine
end

section
/-!
The states INIT and RESET leave, the four agents' turns, and O8: every step keeps the invariant.
-/

namespace Sys2Proof.Machine

variable {s t : State}

/-! ## What INIT commits to -/

theorem execInit_operands {width height : Half} {mode : Mode} (h : execInit width height mode s = .next t)
    (ht : t.inited = true) : width ≠ 0 ∧ height ≠ 0 ∧
      (Mode.isText mode = true → s.plat.font.isSome = true → Platform.fontReady s.plat = true) := by
  unfold execInit initFrom at h
  split at h
  · obtain ⟨-, rfl⟩ := raise_next.1 h
    simp at ht
  next hoperands =>
    split at h
    · cases h
    next hfont =>
      obtain ⟨hwidth, hheight⟩ := not_or.1 hoperands
      refine ⟨hwidth, hheight, fun hm hsome => ?_⟩
      simpa [hm, hsome] using hfont

theorem selectTiming_text {p : Platform} {width height : Half} {mode : Mode} {sel : Selection}
    (hm : Mode.isText mode = true) (h : selectTiming p width height mode = some sel) :
    ∃ f, p.font = some f ∧ sel.hShift = 0 ∧ sel.vShift = 0 ∧ matchesText width height f sel.timing = true := by
  rw [selectTiming, if_pos hm] at h
  cases hf : p.font with
  | none => rw [hf] at h; cases h
  | some f =>
    rw [hf] at h
    obtain ⟨u, hfind, rfl⟩ := Option.map_eq_some_iff.1 h
    exact ⟨f, rfl, rfl, rfl, List.find?_some hfind⟩

theorem selectTiming_graphic {p : Platform} {width height : Half} {mode : Mode} {sel : Selection}
    (hm : Mode.isText mode = false) (h : selectTiming p width height mode = some sel) :
    sel.hShift.toNat ≤ 2 ∧ sel.vShift.toNat ≤ 2 ∧ sel.timing.hAct.toNat = width.toNat * 2 ^ sel.hShift.toNat ∧
      sel.timing.vAct.toNat = height.toNat * 2 ^ sel.vShift.toNat := by
  rw [selectTiming, if_neg (by simp [hm])] at h
  obtain ⟨hfind, hmem, -⟩ := selectGraphic_eq_some h
  obtain ⟨hhs, hvs⟩ := (mem_shiftPairs _ _).1 hmem
  have hmatch := List.find?_some hfind
  simp only [matchesGraphic, Bool.and_eq_true, decide_eq_true_eq, Nat.shiftLeft_eq] at hmatch
  exact ⟨hhs, hvs, hmatch⟩

/-- INIT that ends in an initialised block has accepted its operands. -/
theorem execInit_accepts {width height : Half} {mode : Mode} (h : execInit width height mode s = .next t) :
    t = s.afterReset.replied [statusFail] ∨ ∃ sel, InitAccepts s.plat width height mode sel ∧
      t = (s.afterReset.committed sel width height mode).replied [statusOk] := by
  rcases execInit_next h with hfail | ⟨sel, hsel, hvalid, hclock, rfl⟩
  · exact .inl hfail
  · rw [afterReset_plat] at hsel hclock
    obtain ⟨hwidth, hheight, hfont⟩ := execInit_operands h (by simp [State.committed])
    refine .inr ⟨sel, ⟨hwidth, hheight, fun hm => ?_, hsel, hvalid, hclock⟩, rfl⟩
    obtain ⟨f, hf, -⟩ := selectTiming_text hm hsel
    exact hfont hm (by rw [hf]; rfl)

theorem one_le_toNat {w : Half} (h : w ≠ 0) : 1 ≤ w.toNat :=
  Nat.one_le_iff_ne_zero.2 fun hzero => h (BitVec.eq_of_toNat_eq hzero)

theorem configured_configOk {width height : Half} {mode : Mode} {sel : Selection}
    (h : InitAccepts s.plat width height mode sel) : (s.configured sel width height mode).configOk := by
  cases hm : Mode.isText mode with
  | false =>
    obtain ⟨hhs, hvs, hmatch⟩ := selectTiming_graphic hm h.select
    exact ⟨h.valid, one_le_toNat h.width_ne, one_le_toNat h.height_ne, hhs, hvs, fun _ => hmatch,
      fun htext => absurd htext (by simp [hm])⟩
  | true =>
    obtain ⟨f, hf, hhs, hvs, hmatch⟩ := selectTiming_text hm h.select
    obtain ⟨hrows, hlo, hcells⟩ := matchesText_iff.1 hmatch
    have hfont : (s.configured sel width height mode).font = f := by simp [State.font, hf]
    refine ⟨h.valid, one_le_toNat h.width_ne, one_le_toNat h.height_ne, by simp [hhs], by simp [hvs],
      fun hgraphic => absurd hgraphic (by simp [hm]), fun _ => ⟨h.font hm, hhs, hvs, hlo, ?_, ?_⟩⟩
    · simp only [State.configured_frameW, State.configured_timing, cellW]
      omega
    · rw [hfont]
      exact hrows

theorem withTables_buffersOk (hfc : s.fc = []) : s.withTables.buffersOk := by
  refine ⟨rfl, rfl, rfl, List.length_replicate, fun b hb => ?_, ?_⟩
  · rw [List.eq_of_mem_replicate hb]
    exact ⟨rfl, List.length_replicate⟩
  · rw [← hfc]
    rfl

theorem withPrimedRing_ringOk (hv : validTiming s.timing = true) : s.withPrimedRing.ringOk := by
  obtain ⟨hact, hinactive, htotal⟩ := validTiming_vertical hv
  have hlt : 3 < s.vTotal := by
    rw [State.vTotal_eq]
    change 3 < vInactiveOf s.timing + _
    omega
  refine ⟨rfl, hlt, ?pending, ?ch, ?armed, ?desc⟩
  case pending =>
    intro k
    change (PerChannel.all false).get k = !(PerChannel.all true).get k
    rw [PerChannel.get_all, PerChannel.get_all]
    rfl
  case ch =>
    change (0 : Channel) = 0 + Fin.ofNat 3 3
    decide
  case armed =>
    intro j
    change (PerChannel.all true).get (0 + j) = decide (j.val < 3)
    rw [PerChannel.get_all, decide_eq_true j.isLt]
  case desc =>
    intro j _
    have hline : (3 + s.vTotal - 3 + j.val) % s.vTotal = j.val := by
      rw [Nat.add_sub_cancel_left, Nat.add_mod_left, Nat.mod_eq_of_lt (by omega)]
    change s.withPrimedRing.desc.get (0 + j) = s.descFor (0 + j) ((3 + s.vTotal - 3 + j.val) % s.vTotal)
    rw [hline, zero_add]
    rcases Channel.cases3 j with rfl | rfl | rfl <;> rfl

theorem withPrimedRing_markerOk (hv : validTiming s.timing = true) : s.withPrimedRing.markerOk := by
  obtain ⟨-, hinactive, -⟩ := validTiming_vertical hv
  exact (if_pos hinactive).symm

/-! ## INIT and RESET -/

theorem replied_inv (h : s.Inv) (ws : List Word) : (s.replied ws).Inv := h

/-- Out of an operation, RESET leaves a well-formed block that is not initialised. -/
theorem afterReset_inv (h : s.Inv) (hb : s.busy = none) : s.afterReset.Inv := by
  cases hinit : s.inited with
  | false => rwa [afterReset_of_not_inited hinit]
  | true =>
    obtain ⟨hi, ⟨-, -, hwf, -, -, hpal⟩, -, -, -, hcat⟩ := h
    rw [afterReset_of_inited hinit]
    exact ⟨hi, ⟨rfl, rfl, hwf, rfl, rfl, hpal⟩, busyOk_of_none hb, nofun,
      fun _ => ⟨rfl, rfl, rfl, rfl, rfl, rfl, rfl, rfl, rfl, rfl, hb⟩, hcat⟩

theorem committed_inv (h : s.Inv) (hinit : s.inited = false) {width height : Half} {mode : Mode} {sel : Selection}
    (ha : InitAccepts s.plat width height mode sel) : (s.committed sel width height mode).Inv := by
  obtain ⟨hi, ⟨-, -, hwf, -, -, hpal⟩, -, -, hstop, hcat⟩ := h
  obtain ⟨-, -, -, -, -, -, -, -, -, hfc, hb⟩ := hstop hinit
  rw [committed_eq ha.valid]
  exact ⟨hi, ⟨rfl, rfl, hwf, rfl, rfl, hpal⟩, busyOk_of_none hb,
    fun _ => ⟨configured_configOk ha, withTables_buffersOk (s := s.configured sel width height mode) hfc,
      withPrimedRing_ringOk ha.valid, withPrimedRing_markerOk ha.valid⟩, nofun, hcat⟩

/-! ## The turns of the four agents -/

/-- The fields the application writes outside INIT and RESET: the invariant asks of them that the memories and the
operation under way are well formed. -/
theorem inv_of_application (h : s.Inv) (ht : t = { s with
      fb0 := t.fb0, fb1 := t.fb1, pal := t.pal, front := t.front, flipReq := t.flipReq, event := t.event
      busy := t.busy, reply := t.reply })
    (hm : t.memoryOk) (hb : t.busyOk = true)
    (hstopped : s.inited = false → t.fb0 = [] ∧ t.fb1 = [] ∧ t.busy = none) : t.Inv := by
  obtain ⟨hi, -, -, hrun, hstop, hcat⟩ := h
  refine ⟨?_, hm, hb, ?_, ?_, ?_⟩
  · rw [ht]; exact hi
  · rw [ht]; exact hrun
  · intro hinit
    have hinit : s.inited = false := by rw [ht] at hinit; exact hinit
    obtain ⟨hfb0, hfb1, hbusy⟩ := hstopped hinit
    obtain ⟨hirq, harmed, hpending, -, -, hlb, hclOn, hclOff, hhdr, hfc, -⟩ := hstop hinit
    rw [State.stoppedOk, hfb0, hfb1, hbusy, ht]
    exact ⟨hirq, harmed, hpending, rfl, rfl, hlb, hclOn, hclOff, hhdr, hfc, rfl⟩
  · rw [ht]; exact hcat

/-- A host operation is under way in an initialised block only. -/
theorem inited_of_busy (h : s.Inv) {op : HostOp} (hb : s.busy = some op) : s.inited = true := by
  obtain ⟨-, -, -, -, hstop, -⟩ := h
  by_contra hinit
  obtain ⟨-, -, -, -, -, -, -, -, -, -, hnone⟩ := hstop (by simpa using hinit)
  rw [hb] at hnone
  cases hnone

theorem opStep_inv (h : s.Inv) {op : HostOp} (hb : s.busy = some op) : (s.opStep op).Inv := by
  have hinit := inited_of_busy h hb
  have hop : s.opOk op = true := by
    obtain ⟨-, -, hbusy, -⟩ := h
    simpa [State.busyOk, hb] using hbusy
  have ⟨_, ⟨hwf0, hwf1, hwfPal, hin0, hin1, hpal⟩, _⟩ := h
  obtain ⟨⟨hin0', hin1'⟩, hbusy⟩ := accessOk_opStep ⟨hin0, hin1⟩ hop
  obtain ⟨hwf0', hwf1'⟩ := State.wf_opStep hwf0 hwf1 op
  have hbytes : (s.opStep op).fbBytes = s.fbBytes := State.fbBytes_congr (by simp) (by simp) (by simp)
  refine inv_of_application h ?_ ⟨hwf0', hwf1', ?_, ?_, ?_, ?_⟩ hbusy fun hnot => ?_
  · rw [State.opStep_eq]
  · rwa [State.opStep_pal]
  · rwa [hbytes]
  · rwa [hbytes]
  · rwa [State.opStep_pal]
  · rw [hinit] at hnot; cases hnot

/-- A colour stored in the palette keeps its canonical form and its zero top bytes (R39, R132). -/
theorem pal_ok_of_startsInside (h : s.startsInside t) (hwf : Memory.wf s.pal = true)
    (hpal : storeWithin palSize (fun w => decide (w.toNat < 16777216)) s.pal = true) :
    Memory.wf t.pal = true ∧ storeWithin palSize (fun w => decide (w.toNat < 16777216)) t.pal = true := by
  obtain ⟨heq | ⟨i, w, heq⟩, -⟩ := h
  · rw [heq]
    exact ⟨hwf, hpal⟩
  · rw [heq]
    refine ⟨State.wf_writePal hwf i _, storeWithin_storePut hpal i.isLt ?_⟩
    rw [decide_eq_true_eq, toNat_colourOf]
    omega

theorem hostStart_inv (h : s.Inv) (hb : s.busy = none) (hdiff : s.differsAtHostStart t) (hin : s.startsInside t) :
    t.Inv := by
  have ⟨_, ⟨hwf0, hwf1, hwfPal, hin0, hin1, hpal⟩, _, _, hstop, _⟩ := h
  obtain ⟨hwfPal', hpal'⟩ := pal_ok_of_startsInside hin hwfPal hpal
  obtain ⟨-, hbusy⟩ := hin
  have hfb0 : t.fb0 = s.fb0 := by rw [hdiff]
  have hfb1 : t.fb1 = s.fb1 := by rw [hdiff]
  have hbytes : t.fbBytes = s.fbBytes := by rw [hdiff]; rfl
  refine inv_of_application h ?_ ⟨by rwa [hfb0], by rwa [hfb1], hwfPal', by rwa [hbytes, hfb0],
    by rwa [hbytes, hfb1], hpal'⟩ ?_ fun hinit => ?_
  · rw [hfb0, hfb1, show t.event = s.event by rw [hdiff]]
    exact hdiff
  · rcases hbusy with hkept | ⟨-, hok⟩
    · exact busyOk_of_none (hkept.trans hb)
    · exact hok
  · obtain ⟨-, -, -, hempty0, hempty1, -⟩ := hstop hinit
    rcases hbusy with hkept | ⟨hrunning, -⟩
    · exact ⟨hfb0.trans hempty0, hfb1.trans hempty1, hkept.trans hb⟩
    · rw [hinit] at hrunning; cases hrunning

theorem exec_host_inv (h : s.Inv) (hb : s.busy = none) {i : Instr} (hf : i.format = .h)
    (hexec : exec i s = .next t) : t.Inv := by
  rcases exec_host_next hf hexec with ⟨width, height, mode, rfl⟩ | rfl | hdiff
  · rcases execInit_accepts hexec with rfl | ⟨sel, haccepts, rfl⟩
    · exact replied_inv (afterReset_inv h hb) _
    · exact replied_inv (committed_inv (afterReset_inv h hb) afterReset_inited (by rwa [afterReset_plat])) _
  · cases next_eq_iff.1 hexec
    exact afterReset_inv h hb
  · exact hostStart_inv h hb hdiff (exec_host_startsInside hf hexec)

theorem appTurn_inv (h : s.Inv) (hturn : appTurn s = .next t) : t.Inv := by
  rcases appTurn_next hturn with ⟨op, hb, rfl⟩ | ⟨-, -, rfl⟩ | ⟨i, rest, hb, hd, hexec⟩
  · exact opStep_inv h hb
  · exact h
  · exact exec_host_inv (s := { s with port := rest }) h hb (decodeH_format hd) hexec

theorem vTotal_bounds (hc : s.configOk) : 3 ≤ s.vTotal ∧ s.vTotal ≤ 65535 := by
  obtain ⟨hvalid, -⟩ := hc
  obtain ⟨-, hinactive, htotal⟩ := validTiming_vertical hvalid
  exact ⟨hinactive.trans (Nat.le_add_right _ _), htotal⟩

theorem handlerTurn_inv (h : s.Inv) (hturn : handlerTurn s = .next t) : t.Inv := by
  rcases handlerTurn_next hturn with rfl | ⟨hen, hexec⟩
  · exact h
  · obtain ⟨-, -, rfl⟩ := execRefill_next.1 hexec
    obtain ⟨hinit, -, hpending⟩ := refillEnabled_iff.1 hen
    obtain ⟨hi, hmem, hbusy, hrun, -, hcat⟩ := h
    obtain ⟨hconfig, hbuffers, hring, hmarker⟩ := hrun hinit
    obtain ⟨hlo, hhi⟩ := vTotal_bounds hconfig
    have hrunning : s.refilled.configOk ∧ s.refilled.buffersOk ∧ s.refilled.ringOk ∧ s.refilled.markerOk :=
      ⟨by rw [refilled_differsInRing]; exact hconfig, refilled_buffersOk hbuffers,
        refilled_ringOk hring hpending hlo hhi, refilled_markerOk hring hmarker hhi⟩
    refine ⟨?_, ?_, ?_, fun _ => hrunning, fun hnot => ?_, ?_⟩
    · rw [State.refilled_invoke, hi]
    · rw [refilled_differsInRing]; exact hmem
    · rw [refilled_differsInRing]; exact hbusy
    · rw [State.refilled_inited, hinit] at hnot; cases hnot
    · rw [State.refilled_plat]; exact hcat

theorem dmaTurn_inv (h : s.Inv) (hturn : dmaTurn s = .next t) : t.Inv := by
  rcases dmaTurn_next hturn with ⟨-, rfl⟩ | ⟨-, hexec⟩
  · exact h
  · obtain ⟨hinit, harmed, rfl⟩ := execXfer_next.1 hexec
    obtain ⟨hi, hmem, hbusy, hrun, hstop, hcat⟩ := h
    obtain ⟨hconfig, hbuffers, hring, hmarker⟩ := hrun hinit
    obtain ⟨hlo, -⟩ := vTotal_bounds hconfig
    exact ⟨hi, hmem, hbusy, fun _ => ⟨hconfig, hbuffers, transfer_ringOk hring harmed hlo, hmarker⟩,
      fun hnot => absurd (hinit.symm.trans hnot) (by decide), hcat⟩

/-- The invariant does not speak of the serial peripheral's two lists. -/
theorem serialTurn_inv (h : s.Inv) (hturn : serialTurn s = .next t) : t.Inv := by
  rw [serialTurn_next hturn]
  exact h

/-- Settles O8: the step is the turn of one agent, and every agent's turn keeps the invariant. -/
theorem stepKeepsInvariant : Obligations.StepKeepsInvariant := by
  unfold Obligations.StepKeepsInvariant
  intro s t h hstep
  have ⟨hinvoke, _⟩ := h
  have htook : s.took.Inv := h
  rcases step_next hinvoke hstep with ⟨-, hturn⟩ | ⟨-, hturn⟩ | ⟨-, hturn⟩ | ⟨-, hturn⟩
  · exact appTurn_inv htook hturn
  · exact handlerTurn_inv htook hturn
  · exact dmaTurn_inv htook hturn
  · exact serialTurn_inv htook hturn

end Sys2Proof.Machine
end

section
/-!
O10: REFILL writes no line buffer that the descriptor of an armed channel names.
-/

namespace Sys2Proof.Machine

variable {s : State}

/-! ## The line buffers a fill and REFILL leave alone -/

theorem fillLine_lb_of_ne {k i : Nat} (y : Nat) (h : i ≠ k) : (s.fillLine k y).lb[i]? = s.lb[i]? := by
  unfold State.fillLine
  split <;> rw [State.modifyPix_lb, List.getElem?_modify_ne _ _ (Ne.symm h)]

theorem refilled_lb_of_inactive (h : s.vScanline.toNat < s.vInactive) : s.refilled.lb = s.lb := by
  have hpoint : s.refilled.lb = ((handlerEntry s).pointChannel s.ch).lb := by
    simp [State.refilled, State.programChannel]
  rw [hpoint, pointChannel_of_inactive (s := handlerEntry s) s.ch h]
  rfl

/-- For an active scanline REFILL leaves a line buffer alone that is not the line's slot, or that the marker names
(R98, R99). -/
theorem refilled_lb_getElem?_of_active {i : Nat} (hactive : s.vInactive ≤ s.vScanline.toNat)
    (h : i ≠ s.slotOf s.ch (s.rowOf s.vScanline.toNat) ∨ s.marker = some i) :
    s.refilled.lb[i]? = s.lb[i]? := by
  rw [refilled_lb_of_active ((classOf_eq_active_iff _).2 hactive)]
  unfold State.fillUnlessMarked
  split
  next => rfl
  next hmarker =>
    refine fillLine_lb_of_ne _ ?_
    rcases h with hne | hmarked
    · exact hne
    · rintro rfl
      exact hmarker hmarked

/-! ## The scanlines the armed channels carry -/

/-- A descriptor that names a line buffer is that of an active scanline (R89). -/
theorem descFor_eq_lb {c : Channel} {v sl n : Nat} (h : s.descFor c v = ⟨.lb sl, n⟩) :
    s.vInactive ≤ v ∧ s.slotOf c (s.rowOf v) = sl := by
  unfold State.descFor at h
  split at h
  next => cases h
  next => cases h
  next hclass =>
    cases h
    exact ⟨(classOf_eq_active_iff v).1 hclass, rfl⟩

/-- An armed channel carries one of the last scanlines programmed, at most as many back as channels are armed. -/
theorem desc_of_armed (hr : s.ringOk) (hT : 3 ≤ s.vTotal) {k : Channel} (hk : s.armed.get k = true) :
    ∃ d, 1 ≤ d ∧ d ≤ s.armedCount ∧
      s.desc.get k = s.descFor k ((s.vScanline.toNat + s.vTotal - d) % s.vTotal) := by
  obtain ⟨-, -, -, -, harmed, hdesc⟩ := hr
  obtain ⟨j, rfl⟩ : ∃ j, k = s.activeCh + j := ⟨k - s.activeCh, (add_sub_cancel _ _).symm⟩
  have hj : j.val < s.armedCount := of_decide_eq_true ((harmed j).symm.trans hk)
  have hle := s.armedCount_le
  refine ⟨s.armedCount - j.val, by omega, by omega, (hdesc j hj).trans ?_⟩
  congr 2
  omega

/-- With the completion of `CH` pending, `CH` is free, and at most two channels are armed. -/
theorem armedCount_le_of_pending (hr : s.ringOk) (hp : s.pending.get s.ch = true) : s.armedCount ≤ 2 := by
  obtain ⟨hfree, -⟩ := ch_place_of_pending hr hp
  have hcount := armedCount_arm hfree
  have hle := (s.arm s.ch).armedCount_le
  omega

/-! ## Neighbouring source rows under vertical repeat -/

theorem rowOf_mono {v w : Nat} (h : w ≤ v) : s.rowOf w ≤ s.rowOf v := by
  simp only [State.rowOf, Nat.shiftRight_eq_div_pow]
  exact Nat.div_le_div_right (by omega)

/-- With vertical repeat two scanlines lie in one row or in neighbouring ones. -/
theorem rowOf_le_succ {v w : Nat} (hrep : s.vShift ≠ 0) (h : v ≤ w + 2) : s.rowOf v ≤ s.rowOf w + 1 := by
  have htwo : 2 ≤ 2 ^ s.vShift.toNat :=
    Nat.le_self_pow (fun hzero => hrep (BitVec.eq_of_toNat_eq hzero)) 2
  simp only [State.rowOf, Nat.shiftRight_eq_div_pow]
  rw [← Nat.add_div_right _ (by omega)]
  exact Nat.div_le_div_right (by omega)

/-- The slot of an active line programmed one or two lines before `v` is not the slot of `v`, or the marker names
it: without vertical repeat the two channels have slots of their own; with it either the rows are neighbours, whose
slots differ, or they are the same row, which has been filled (R98, R99). -/
theorem slotOf_ne_or_marked (hm : s.markerOk) {k : Channel} (hk : k ≠ s.ch) {w : Nat} (hw : s.vInactive ≤ w)
    (hlt : w < s.vScanline.toNat) (hnear : s.vScanline.toNat ≤ w + 2) :
    s.slotOf k (s.rowOf w) ≠ s.slotOf s.ch (s.rowOf s.vScanline.toNat) ∨
      s.marker = some (s.slotOf k (s.rowOf w)) := by
  rw [State.markerOk, if_neg (by omega)] at hm
  by_cases hrep : s.vShift = 0
  case pos =>
    left
    simp only [State.slotOf, if_pos hrep]
    exact Fin.val_ne_of_ne hk
  case neg =>
    have hle : s.rowOf w ≤ s.rowOf (s.vScanline.toNat - 1) := rowOf_mono (by omega)
    have hle' : s.rowOf (s.vScanline.toNat - 1) ≤ s.rowOf s.vScanline.toNat := rowOf_mono (by omega)
    have hsucc : s.rowOf s.vScanline.toNat ≤ s.rowOf w + 1 := rowOf_le_succ hrep hnear
    rw [hm]
    simp only [State.slotOf, if_neg hrep, Option.some.injEq]
    omega

/-! ## The line buffers in flight -/

theorem ne_ch_of_armed (hr : s.ringOk) (hp : s.pending.get s.ch = true) {k : Channel}
    (hk : s.armed.get k = true) : k ≠ s.ch := by
  obtain ⟨hfree, -⟩ := ch_place_of_pending hr hp
  rintro rfl
  rw [hfree] at hk
  cases hk

/-- The line buffer an armed channel's descriptor names is kept: for an active scanline, which is none of the first
three, the channel carries the scanline one or two before it. -/
theorem refilled_lb_of_inFlight (hc : s.configOk) (hr : s.ringOk) (hm : s.markerOk)
    (hp : s.pending.get s.ch = true) {k : Channel} {sl n : Nat} (hk : s.armed.get k = true)
    (hd : s.desc.get k = ⟨.lb sl, n⟩) : s.refilled.lb[sl]? = s.lb[sl]? := by
  rcases Nat.lt_or_ge s.vScanline.toNat s.vInactive with hinactive | hactive
  · rw [refilled_lb_of_inactive hinactive]
  · obtain ⟨hlo, -⟩ := vTotal_bounds hc
    obtain ⟨hvalid, -⟩ := hc
    obtain ⟨-, hthree, -⟩ := validTiming_vertical hvalid
    have hthree : 3 ≤ s.vScanline.toNat := Nat.le_trans hthree hactive
    obtain ⟨d, hd1, hdle, hcarried⟩ := desc_of_armed hr hlo hk
    have hcount := armedCount_le_of_pending hr hp
    have hne := ne_ch_of_armed hr hp hk
    obtain ⟨-, hlt, -⟩ := hr
    have hback : (s.vScanline.toNat + s.vTotal - d) % s.vTotal = s.vScanline.toNat - d := by
      rw [Nat.sub_add_comm (by omega), Nat.add_mod_right, Nat.mod_eq_of_lt (by omega)]
    rw [hd, hback] at hcarried
    obtain ⟨hw, rfl⟩ := descFor_eq_lb hcarried.symm
    exact refilled_lb_getElem?_of_active hactive (slotOf_ne_or_marked hm hne hw (by omega) (by omega))

/-- Settles O10: REFILL writes the descriptor of `CH` only, which is not armed, and keeps the line buffers that are
in flight. -/
theorem inFlightBuffersNeverOverwritten : Obligations.InFlightBuffersNeverOverwritten := by
  unfold Obligations.InFlightBuffersNeverOverwritten
  intro s k sl n hinv hen hk hd
  obtain ⟨-, -, -, hrun, -, -⟩ := hinv
  obtain ⟨hinit, -, hpending⟩ := refillEnabled_iff.1 hen
  obtain ⟨hconfig, -, hring, hmarker⟩ := hrun hinit
  have ⟨_, _, _, _, _, _, htext⟩ := hconfig
  have hfont : Mode.isText s.mode = true → Platform.fontReady s.plat = true := fun hm => (htext hm).1
  have hdesc : s.refilled.desc = s.desc.set s.ch (s.descFor s.ch s.vScanline.toNat) :=
    State.programChannel_desc (s := handlerEntry s) s.ch
  refine ⟨s.refilled, execRefill_next.2 ⟨hen, hfont, rfl⟩,
    refilled_lb_of_inFlight hconfig hring hmarker hpending hk hd, ?_⟩
  rw [hdesc, PerChannel.get_set_ne _ _ (ne_ch_of_armed hring hpending hk), hd]

end Sys2Proof.Machine
end

section
/-!
Host operations that write a frame buffer, brought to their end: what they store and what they leave, and O50 and
O55.
-/

namespace Sys2Proof.Machine

variable {s t u : State}

/-! ## A unit written -/

/-- Two states that differ at most in the bytes of the frame buffers. -/
abbrev State.differsInFb (s t : State) : Prop := t = { s with fb0 := t.fb0, fb1 := t.fb1 }

theorem State.differsInFb.trans (h : s.differsInFb t) (h' : t.differsInFb u) : s.differsInFb u :=
  Eq.trans h' (congrArg (fun v : State => { v with fb0 := u.fb0, fb1 := u.fb1 }) h)

theorem writeFb8_differsInFb (b : Bool) (off : Nat) (v : Byte) : s.differsInFb (s.writeFb8 b off v) := by
  cases b <;> rfl

theorem writeUnit_differsInFb (b : Bool) (n : Nat) (v : Word) : s.differsInFb (s.writeUnit b n v) := by
  unfold State.writeUnit
  split
  next => exact (writeFb8_differsInFb ..).trans (writeFb8_differsInFb ..)
  all_goals exact writeFb8_differsInFb ..

theorem readFb16_writeUnit (hm : s.mode = .rgb565) (b : Bool) (n : Nat) (v : Word) :
    (s.writeUnit b n v).readFb16 b (2 * n) = truncHalf v := by
  simp [State.writeUnit, hm, unitOffset, State.readFb16, State.readFb8_writeFb16]

theorem readFb8_writeUnit (hm : s.mode = .palette8) (b : Bool) (n : Nat) (v : Word) :
    (s.writeUnit b n v).readFb8 b n = truncByte v := by
  simp [State.writeUnit, hm, unitOffset, State.readFb8_writeFb8]

/-! ## An access and the operation under way

An access does not look at the operation under way, so that a whole operation is its accesses and then the end. -/

theorem enterOp_writeFb8 (op : HostOp) (b : Bool) (off : Nat) (v : Byte) :
    (s.enterOp op).writeFb8 b off v = (s.writeFb8 b off v).enterOp op := by
  cases b <;> rfl

theorem enterOp_goOn (op op' : HostOp) (remains : Bool) : (s.enterOp op).goOn remains op' = s.goOn remains op' := by
  cases remains <;> rfl

theorem enterOp_writeUnit (op : HostOp) (b : Bool) (n : Nat) (v : Word) :
    (s.enterOp op).writeUnit b n v = (s.writeUnit b n v).enterOp op := by
  unfold State.writeUnit
  rw [State.enterOp_mode]
  split
  next => simp only [State.writeFb16, enterOp_writeFb8]
  all_goals exact enterOp_writeFb8 ..

/-! ## WRITE_PIXEL -/

/-- A position inside the frame is inside it with its one unit (R126). -/
theorem inBounds_one {x y : Half} (hx : x.toNat < s.frameW.toNat) (hy : y.toNat < s.frameH.toNat) :
    s.inBounds x y 1 = true := by
  refine inBounds_iff.2 ⟨hx, hy, ?_⟩
  calc s.linear x y + 1 ≤ (y.toNat + 1) * s.frameW.toNat := by rw [State.linear, Nat.succ_mul]; omega
    _ ≤ s.frameH.toNat * s.frameW.toNat := Nat.mul_le_mul_right _ hy
    _ = s.units := Nat.mul_comm _ _

theorem finishOp_pixel (b : Bool) (n : Nat) (v : Word) :
    State.finishOp 1 (s.enterOp (.pixel b n v)) = (s.writeUnit b n v).leaveOp := by
  rw [State.finishOp_succ _ rfl, State.opStep, enterOp_writeUnit]
  rfl

/-- Settles O50: brought to its end, the operation is one write of a unit. -/
theorem writePixelStoresOneUnit : Obligations.WritePixelStoresOneUnit := by
  unfold Obligations.WritePixelStoresOneUnit
  intro s x y value hinit hmode hx hy hfits
  have hexec : exec (.writePixel x y value) s = .next (s.enterOp (.pixel s.back (s.linear x y) value)) :=
    graphicAccess_next.2 ⟨hinit, hmode, by simp [hfits], inBounds_one hx hy, rfl⟩
  refine ⟨_, _, hexec, rfl, ?_⟩
  rw [finishOp_pixel]
  refine ⟨congrArg State.leaveOp (writeUnit_differsInFb ..), fun hm => readFb16_writeUnit hm _ _ _,
    fun hm => readFb8_writeUnit hm _ _ _, fun off hoff => ?_, fun off => ?_⟩
  · exact State.readFb8_writeUnit_frame _ _ _ _ _ (.inr hoff)
  · exact State.readFb8_writeUnit_frame _ _ _ _ _ (.inl (by simp [State.back]))

/-! ## Cells written -/

/-- The state with the code of cell `n` stored, and in TextAttributed its byte in plane 1: the accesses WRITE_TEXT makes
for one cell (R134). -/
def State.writeCell (s : State) (b : Bool) (n : Nat) (c attr : Byte) : State :=
  if s.mode = .textAttributed then (s.writeFb8 b n c).writeFb8 b (s.attrOffset n) attr else s.writeFb8 b n c

/-- The state with consecutive cells stored, from cell `n` on. -/
def State.writeCells (s : State) (b : Bool) (n : Nat) (attr : Byte) : List Byte → State
  | [] => s
  | c :: rest => (s.writeCell b n c attr).writeCells b (n + 1) attr rest

theorem writeCell_differsInFb (b : Bool) (n : Nat) (c attr : Byte) : s.differsInFb (s.writeCell b n c attr) := by
  unfold State.writeCell
  split
  · exact (writeFb8_differsInFb ..).trans (writeFb8_differsInFb ..)
  · exact writeFb8_differsInFb ..

theorem writeCells_differsInFb (b : Bool) (n : Nat) (attr : Byte) (bytes : List Byte) :
    s.differsInFb (s.writeCells b n attr bytes) := by
  induction bytes generalizing s n with
  | nil => rfl
  | cons c rest ih => exact (writeCell_differsInFb ..).trans (ih (n + 1))

@[simp] theorem writeCell_mode (b : Bool) (n : Nat) (c attr : Byte) : (s.writeCell b n c attr).mode = s.mode := by
  rw [writeCell_differsInFb]

@[simp] theorem writeCell_units (b : Bool) (n : Nat) (c attr : Byte) :
    (s.writeCell b n c attr).units = s.units := by
  rw [writeCell_differsInFb]
  rfl

theorem readFb8_writeCell (b b' : Bool) (n a : Nat) (c attr : Byte) : (s.writeCell b n c attr).readFb8 b' a =
    if b' = b ∧ s.mode = .textAttributed ∧ a = s.attrOffset n then attr
    else if b' = b ∧ a = n then c else s.readFb8 b' a := by
  unfold State.writeCell
  split
  next hm => simp [State.readFb8_writeFb8, hm]
  next hm => simp [State.readFb8_writeFb8, hm]

theorem readFb8_writeCell_frame {b b' : Bool} {n a : Nat} (c attr : Byte)
    (h : b' = b → a ≠ n ∧ (s.mode = .textAttributed → a ≠ s.attrOffset n)) :
    (s.writeCell b n c attr).readFb8 b' a = s.readFb8 b' a := by
  rw [readFb8_writeCell, if_neg fun ⟨hb, hm, ha⟩ => (h hb).2 hm ha, if_neg fun ⟨hb, ha⟩ => (h hb).1 ha]

/-- The bytes outside the cells written, in both planes, keep their value. -/
theorem readFb8_writeCells_frame {b b' : Bool} {n a : Nat} (attr : Byte) {bytes : List Byte}
    (h : b' = b → (a < n ∨ n + bytes.length ≤ a) ∧ (s.mode = .textAttributed →
      a < s.attrOffset n ∨ s.attrOffset n + bytes.length ≤ a)) :
    (s.writeCells b n attr bytes).readFb8 b' a = s.readFb8 b' a := by
  induction bytes generalizing s n with
  | nil => rfl
  | cons c rest ih =>
    simp only [State.attrOffset, List.length_cons] at h ih
    have hcell : b' = b → a ≠ n ∧ (s.mode = .textAttributed → a ≠ s.attrOffset n) := by
      intro hb
      obtain ⟨hcodes, hattrs⟩ := h hb
      exact ⟨by omega, fun hm => by have := hattrs hm; rw [State.attrOffset]; omega⟩
    refine (ih fun hb => ?_).trans (readFb8_writeCell_frame c attr hcell)
    obtain ⟨hcodes, hattrs⟩ := h hb
    simp only [writeCell_mode, writeCell_units]
    exact ⟨by omega, fun hm => by have := hattrs hm; omega⟩

theorem readFb8_writeCells_code (b : Bool) {n i : Nat} (attr : Byte) {bytes : List Byte} {c : Byte}
    (hn : n + bytes.length ≤ s.units) (hi : bytes[i]? = some c) :
    (s.writeCells b n attr bytes).readFb8 b (n + i) = c := by
  induction bytes generalizing s n i with
  | nil => cases hi
  | cons d rest ih =>
    rw [List.length_cons] at hn
    cases i with
    | zero =>
      cases hi
      rw [State.writeCells, readFb8_writeCells_frame, readFb8_writeCell, if_neg, if_pos ⟨rfl, rfl⟩]
      · simp only [State.attrOffset]
        omega
      · simp only [State.attrOffset, writeCell_units]
        exact fun _ => ⟨by omega, fun _ => by omega⟩
    | succ i =>
      rw [State.writeCells, show n + (i + 1) = n + 1 + i by omega]
      exact ih (by rw [writeCell_units]; omega) hi

theorem readFb8_writeCells_attr (hm : s.mode = .textAttributed) (b : Bool) {n i : Nat} (attr : Byte)
    {bytes : List Byte} (hn : n + bytes.length ≤ s.units) (hi : i < bytes.length) :
    (s.writeCells b n attr bytes).readFb8 b (s.attrOffset (n + i)) = attr := by
  induction bytes generalizing s n i with
  | nil => cases hi
  | cons d rest ih =>
    rw [List.length_cons] at hn hi
    cases i with
    | zero =>
      rw [State.writeCells, readFb8_writeCells_frame, readFb8_writeCell, if_pos ⟨rfl, hm, rfl⟩]
      simp only [State.attrOffset, writeCell_units]
      omega
    | succ i =>
      have hoff : s.attrOffset (n + (i + 1)) = (s.writeCell b n d attr).attrOffset (n + 1 + i) := by
        simp only [State.attrOffset, writeCell_units]
        omega
      rw [State.writeCells, hoff]
      exact ih (by rw [writeCell_mode, hm]) (by rw [writeCell_units]; omega) (by omega)

/-! ## WRITE_TEXT -/

/-- The accesses of one cell, with no other agent in between: two in TextAttributed, one in TextMono. -/
theorem finishOp_text_cons (b : Bool) (n : Nat) (c attr : Byte) (rest : List Byte) (k : Nat) :
    ∃ k', k ≤ k' ∧ State.finishOp (k + 2) (s.enterOp (.text b n (c :: rest) attr false)) =
      State.finishOp k' ((s.writeCell b n c attr).goOn (!rest.isEmpty) (.text b (n + 1) rest attr false)) := by
  rw [State.finishOp_succ _ rfl]
  simp only [State.opStep, State.enterOp_mode, State.writeCell, enterOp_writeFb8, enterOp_goOn, Bool.false_eq_true,
    if_false]
  split
  next =>
    refine ⟨k, le_rfl, ?_⟩
    rw [State.finishOp_succ _ rfl]
    simp [State.opStep, enterOp_writeFb8, enterOp_goOn, State.attrOffset, State.units]
  next => exact ⟨k + 1, Nat.le_succ k, rfl⟩

/-- Brought to its end, a text whose codes remain is the cells written. -/
theorem finishOp_text (b : Bool) (n : Nat) (attr : Byte) (bytes : List Byte) {k : Nat} (hk : 2 * bytes.length ≤ k) :
    State.finishOp k (s.goOn (!bytes.isEmpty) (.text b n bytes attr false)) =
      (s.writeCells b n attr bytes).leaveOp := by
  induction bytes generalizing s n k with
  | nil => exact State.finishOp_none k rfl
  | cons c rest ih =>
    rw [List.length_cons] at hk
    obtain ⟨k, rfl⟩ : ∃ j, k = j + 2 := ⟨k - 2, by omega⟩
    obtain ⟨k', hk', hcell⟩ := finishOp_text_cons (s := s) b n c attr rest k
    exact hcell.trans (ih _ (by omega))

/-- Settles O55: brought to its end, the operation is consecutive cells written, which lie in plane 0 (R126), below
their bytes in plane 1 (R55). -/
theorem writeTextStoresCells : Obligations.WriteTextStoresCells := by
  unfold Obligations.WriteTextStoresCells
  rintro s x y bytes attr immediate b hinit hmode hin rfl
  obtain ⟨-, -, hn⟩ := inBounds_iff.1 hin
  have hexec : exec (.writeText x y bytes attr immediate) s = .next (s.goOn (!bytes.isEmpty)
      (.text (if immediate then s.front else !s.front) (s.linear x y) bytes attr false)) :=
    textAccess_next.2 ⟨hinit, hmode, hin, rfl⟩
  refine ⟨_, _, hexec, rfl, ?_⟩
  rw [finishOp_text _ _ _ _ le_rfl]
  generalize (if immediate then s.front else !s.front) = b
  refine ⟨congrArg State.leaveOp (writeCells_differsInFb ..), fun i c hi => readFb8_writeCells_code b attr hn hi,
    fun hm i hi => readFb8_writeCells_attr hm b attr hn hi, fun off hcodes hattrs => ?_, fun off => ?_⟩
  · exact readFb8_writeCells_frame _ fun _ => ⟨hcodes, hattrs⟩
  · exact readFb8_writeCells_frame _ fun hb => absurd hb (by simp)

end Sys2Proof.Machine
end

section
/-!
Format H in both directions: what each opcode's decoder reads from an operation's words, O1 (R73, R74), and that it
reads nothing else, O2 (R76).
-/

namespace Sys2Proof

open Machine (toNat_append_eq)

variable {opc flg : Byte} {a : Half}

/-! ## Fields of a decoder's operands -/

/-- A bit vector is its upper and its lower field. -/
theorem append_extractLsb'_fields {m n : Nat} (x : BitVec (m + n)) :
    x.extractLsb' n m ++ x.extractLsb' 0 n = x := by
  apply BitVec.eq_of_toNat_eq
  have hlt : x.toNat / 2 ^ n < 2 ^ m :=
    Nat.div_lt_of_lt_mul (by simpa only [Nat.pow_add, Nat.mul_comm] using x.isLt)
  rw [toNat_append_eq, BitVec.extractLsb'_toNat, BitVec.extractLsb'_toNat, Nat.shiftRight_eq_div_pow,
    Nat.mod_eq_of_lt hlt, Nat.shiftRight_zero, Nat.mul_comm, Nat.div_add_mod]

/-- An operand whose upper field is zero is its lower field. -/
theorem zero_append_lowField {m n : Nat} {x : BitVec (m + n)} (h : x.extractLsb' n m = 0#m) :
    0#m ++ x.extractLsb' 0 n = x := by
  rw [← h, append_extractLsb'_fields]

/-- The upper byte of `A`, which `PAL_SET` and `PAL_GET` do not use (R74), as the decoder tests it. -/
theorem zero_append_eq_zero_iff {m n : Nat} {x : BitVec n} : 0#m ++ x = 0 ↔ x = 0#n := by
  rw [← BitVec.toNat_inj, ← BitVec.toNat_inj, toNat_append_eq]
  simp

/-- `FLG[0]` of `WRITE_TEXT` as its immediate flag (R74). -/
theorem ofBool_beq_one (b : BitVec 1) : BitVec.ofBool (b == 1#1) = b := by
  revert b; decide

/-- A payload of bytes is the words of its bytes (R73). -/
theorem map_byteWord_lowByte {data : List Word} (h : data.all isByte = true) :
    (data.map lowByte).map byteWord = data := by
  calc (data.map lowByte).map byteWord = data.map id :=
        List.map_map.trans (List.map_congr_left fun w hw => byteWord_lowByte (List.all_eq_true.1 h w hw))
    _ = data := List.map_id data

/-- A payload's length survives the way through the 16-bit field `A` (R73). -/
theorem toNat_ofNat_of_lengthFits {n : Nat} (h : lengthFits n = true) : (BitVec.ofNat 16 n).toNat = n := by
  rw [BitVec.toNat_ofNat]
  exact Nat.mod_eq_of_lt (of_decide_eq_true h)

/-! ## From an operation to its words and back -/

theorem decodeH_packW0 (opc flg : Byte) (a : Half) (ws : List Word) :
    decodeH (packW0 opc flg a :: ws) = decodeOp opc flg a ws := by
  rw [decodeH, opcField_packW0, flgField_packW0, aField_packW0]

/-- `W1` gives back the position it was packed from (R73). -/
theorem position_encoded (op : Half → Half → Instr) (x y : Half) (rest : List Word) :
    (.ok (op (xField (packW1 x y)) (yField (packW1 x y)), rest) : Decoded) = .ok (op x y, rest) := by
  rw [xField_packW1, yField_packW1]

theorem decodeInit_encoded (width height : Half) (mode : Mode) (rest : List Word) :
    decodeInit (0#6 ++ mode.code) 0 (packW1 width height :: rest) = .ok (.init width height mode, rest) := by
  rw [decodeInit, if_pos ⟨BitVec.extractLsb'_append_eq_left, rfl⟩, BitVec.extractLsb'_append_eq_right,
    xField_packW1, yField_packW1, Mode.ofCode_code]

theorem decodeWriteSpanCopy_encoded (x y : Half) {data : List Word} (h : lengthFits data.length = true)
    (rest : List Word) : decodeWriteSpanCopy 0 (BitVec.ofNat 16 data.length) (packW1 x y :: (data ++ rest)) =
      .ok (.writeSpanCopy x y data, rest) := by
  simp only [decodeWriteSpanCopy, toNat_ofNat_of_lengthFits h, takeWords_append]
  exact position_encoded (.writeSpanCopy · · data) x y rest

theorem decodePalSet_encoded (index : Byte) (colour : Word) (rest : List Word) :
    decodePalSet 0 (0#8 ++ index) (colour :: rest) = .ok (.palSet index colour, rest) := by
  rw [decodePalSet, BitVec.extractLsb'_append_eq_left, BitVec.extractLsb'_append_eq_right]
  rfl

theorem decodePalGet_encoded (index : Byte) (rest : List Word) :
    decodePalGet 0 (0#8 ++ index) rest = .ok (.palGet index, rest) := by
  rw [decodePalGet, BitVec.extractLsb'_append_eq_left, BitVec.extractLsb'_append_eq_right]
  rfl

theorem decodeWriteText_encoded (x y : Half) {bytes : List Byte} (h : lengthFits bytes.length = true) (attr : Byte)
    (immediate : Bool) (rest : List Word) :
    decodeWriteText (0#7 ++ BitVec.ofBool immediate) (BitVec.ofNat 16 bytes.length)
      (packW1 x y :: byteWord attr :: (bytes.map byteWord ++ rest)) =
        .ok (.writeText x y bytes attr immediate, rest) := by
  have htake : takeWords bytes.length (bytes.map byteWord ++ rest) = some (bytes.map byteWord, rest) := by
    simpa only [List.length_map] using takeWords_append (bytes.map byteWord) rest
  have hflag : (BitVec.ofBool immediate == 1#1) = immediate := by cases immediate <;> rfl
  have hbytes : (bytes.map byteWord).map lowByte = bytes := by simp [Function.comp_def]
  simp only [decodeWriteText, toNat_ofNat_of_lengthFits h, htake]
  rw [if_pos ⟨BitVec.extractLsb'_append_eq_left, isByte_byteWord attr, by simp⟩,
    BitVec.extractLsb'_append_eq_right, hflag, hbytes, lowByte_byteWord, xField_packW1, yField_packW1]

/-- Settles O1: the opcode of an operation selects the decoder that inverts the operation's own words. -/
theorem decodeEncodeHostOps : Obligations.DecodeEncodeHostOps := by
  unfold Obligations.DecodeEncodeHostOps
  intro i rest hformat hwf
  cases i with
  | init width height mode => exact (decodeH_packW0 ..).trans (decodeInit_encoded width height mode rest)
  | reset | flipAsync | flipBlocking | flipNow | waitVsync | waitFlip | clear => exact decodeH_packW0 ..
  | writePixel x y value => exact (decodeH_packW0 ..).trans (position_encoded (.writePixel · · value) x y rest)
  | writeSpanFill x y len value =>
    exact (decodeH_packW0 ..).trans (position_encoded (.writeSpanFill · · len value) x y rest)
  | writeSpanCopy x y data => exact (decodeH_packW0 ..).trans (decodeWriteSpanCopy_encoded x y hwf rest)
  | readSpan x y len => exact (decodeH_packW0 ..).trans (position_encoded (.readSpan · · len) x y rest)
  | palSet index colour => exact (decodeH_packW0 ..).trans (decodePalSet_encoded index colour rest)
  | palGet index => exact (decodeH_packW0 ..).trans (decodePalGet_encoded index rest)
  | writeText x y bytes attr immediate =>
    exact (decodeH_packW0 ..).trans (decodeWriteText_encoded x y hwf attr immediate rest)
  | _ => cases hformat

/-! ## From words to an operation and back -/

/-- What a decoder may read from the words after `W0`: an operation whose encoding the words are, `W0` included. -/
def ReadsItsEncoding (opc flg : Byte) (a : Half) (ws : List Word) (d : Decoded) : Prop :=
  ∀ i rest, d = .ok (i, rest) →
    i.format = .h ∧ i.wellFormed = true ∧ packW0 opc flg a :: ws = encode i ++ rest

theorem readsItsEncoding_error (ws : List Word) (e : DecodeError) :
    ReadsItsEncoding opc flg a ws (.error e) := nofun

theorem readsItsEncoding_ok {i : Instr} {ws rest : List Word} (hf : i.format = .h) (hwf : i.wellFormed = true)
    (henc : packW0 opc flg a :: ws = encode i ++ rest) : ReadsItsEncoding opc flg a ws (.ok (i, rest)) := by
  rintro _ _ ⟨⟩
  exact ⟨hf, hwf, henc⟩

/-- The decoders but those of `INIT` and `WRITE_TEXT` end in the test of `FLG` and of what they do not use of `A`. -/
theorem decodeBare_readsItsEncoding {i : Instr} {unused : Half} {ws rest : List Word} (hf : i.format = .h)
    (hwf : i.wellFormed = true) (henc : unused = 0 → packW0 opc 0 a :: ws = encode i ++ rest) :
    ReadsItsEncoding opc flg a ws (decodeBare i flg unused rest) := by
  unfold decodeBare
  split
  · next h => exact readsItsEncoding_ok hf hwf (by rw [h.1]; exact henc h.2)
  · exact readsItsEncoding_error _ _

theorem decodeInit_readsItsEncoding (ws : List Word) :
    ReadsItsEncoding 0x01#8 flg a ws (decodeInit flg a ws) := by
  rcases ws with _ | ⟨w1, rest⟩
  · exact readsItsEncoding_error _ _
  · simp only [decodeInit]
    split
    · next h =>
      obtain ⟨hflg, rfl⟩ := h
      refine readsItsEncoding_ok rfl rfl ?_
      rw [encode, Mode.code_ofCode, zero_append_lowField (m := 6) (n := 2) hflg, packW1_fields]
      rfl
    · exact readsItsEncoding_error _ _

theorem decodeWritePixel_readsItsEncoding (ws : List Word) :
    ReadsItsEncoding 0x10#8 flg a ws (decodeWritePixel flg a ws) := by
  rcases ws with _ | ⟨w1, _ | ⟨w2, rest⟩⟩
  · exact readsItsEncoding_error _ _
  · exact readsItsEncoding_error _ _
  · exact decodeBare_readsItsEncoding rfl rfl fun ha => by rw [ha, encode, packW1_fields]; rfl

theorem decodeWriteSpanFill_readsItsEncoding (ws : List Word) :
    ReadsItsEncoding 0x11#8 flg a ws (decodeWriteSpanFill flg a ws) := by
  rcases ws with _ | ⟨w1, _ | ⟨w2, rest⟩⟩
  · exact readsItsEncoding_error _ _
  · exact readsItsEncoding_error _ _
  · exact decodeBare_readsItsEncoding rfl rfl fun _ => by rw [encode, packW1_fields]; rfl

/-- The payload taken has the length `A`, so the length is well formed and gives `A` back. -/
theorem length_of_takeWords {ws data rest : List Word} (h : takeWords a.toNat ws = some (data, rest)) :
    ws = data ++ rest ∧ lengthFits data.length = true ∧ BitVec.ofNat 16 data.length = a := by
  obtain ⟨hws, hlen⟩ := takeWords_some h
  exact ⟨hws, decide_eq_true (hlen ▸ a.isLt), by rw [hlen, BitVec.ofNat_toNat, BitVec.setWidth_eq]⟩

theorem decodeWriteSpanCopy_readsItsEncoding (ws : List Word) :
    ReadsItsEncoding 0x12#8 flg a ws (decodeWriteSpanCopy flg a ws) := by
  rcases ws with _ | ⟨w1, ws⟩
  · exact readsItsEncoding_error _ _
  · simp only [decodeWriteSpanCopy]
    split
    · exact readsItsEncoding_error _ _
    · next data rest htake =>
      obtain ⟨rfl, hfits, hlen⟩ := length_of_takeWords htake
      exact decodeBare_readsItsEncoding rfl hfits fun _ => by rw [encode, hlen, packW1_fields]; rfl

theorem decodeReadSpan_readsItsEncoding (ws : List Word) :
    ReadsItsEncoding 0x13#8 flg a ws (decodeReadSpan flg a ws) := by
  rcases ws with _ | ⟨w1, rest⟩
  · exact readsItsEncoding_error _ _
  · exact decodeBare_readsItsEncoding rfl rfl fun _ => by rw [encode, packW1_fields]; rfl

/-- `A` of `PAL_SET` and `PAL_GET` is the index, if what they do not use of it is zero. -/
theorem zero_append_index (h : 0#8 ++ a.extractLsb' 8 8 = (0 : Half)) : 0#8 ++ a.extractLsb' 0 8 = a :=
  zero_append_lowField (m := 8) (n := 8) (zero_append_eq_zero_iff.1 h)

theorem decodePalSet_readsItsEncoding (ws : List Word) :
    ReadsItsEncoding 0x18#8 flg a ws (decodePalSet flg a ws) := by
  rcases ws with _ | ⟨w2, rest⟩
  · exact readsItsEncoding_error _ _
  · exact decodeBare_readsItsEncoding rfl rfl fun ha => by rw [encode, zero_append_index ha]; rfl

theorem decodePalGet_readsItsEncoding (ws : List Word) :
    ReadsItsEncoding 0x19#8 flg a ws (decodePalGet flg a ws) :=
  decodeBare_readsItsEncoding rfl rfl fun ha => by rw [encode, zero_append_index ha]; rfl

theorem decodeWriteText_readsItsEncoding (ws : List Word) :
    ReadsItsEncoding 0x1A#8 flg a ws (decodeWriteText flg a ws) := by
  rcases ws with _ | ⟨w1, _ | ⟨w2, ws⟩⟩
  · exact readsItsEncoding_error _ _
  · exact readsItsEncoding_error _ _
  · simp only [decodeWriteText]
    split
    · exact readsItsEncoding_error _ _
    · next data rest htake =>
      obtain ⟨rfl, hfits, hlen⟩ := length_of_takeWords htake
      split
      · next h =>
        obtain ⟨hflg, hattr, hdata⟩ := h
        refine readsItsEncoding_ok rfl (by simpa only [Instr.wellFormed, List.length_map] using hfits) ?_
        rw [encode, List.length_map, hlen, ofBool_beq_one, zero_append_lowField (m := 7) (n := 1) hflg,
          packW1_fields, byteWord_lowByte hattr, map_byteWord_lowByte hdata]
        rfl
      · exact readsItsEncoding_error _ _

/-- One arm of the opcode's dispatch. -/
theorem readsItsEncoding_ite {c : Byte} {ws : List Word} {d e : Decoded} (hd : ReadsItsEncoding c flg a ws d)
    (he : ReadsItsEncoding opc flg a ws e) : ReadsItsEncoding opc flg a ws (if opc = c then d else e) := by
  split
  · next h => exact h ▸ hd
  · exact he

/-- Whatever the opcode selects reads the encoding of what it answers: the fifteen arms in R74's order, and none. -/
theorem decodeOp_readsItsEncoding (ws : List Word) :
    ReadsItsEncoding opc flg a ws (decodeOp opc flg a ws) := by
  have bare {c : Byte} {i : Instr} (hf : i.format = .h) (hwf : i.wellFormed = true)
      (henc : encode i = [packW0 c 0 0]) : ReadsItsEncoding c flg a ws (decodeBare i flg a ws) :=
    decodeBare_readsItsEncoding hf hwf fun ha => by rw [ha, henc]; rfl
  exact readsItsEncoding_ite (decodeInit_readsItsEncoding ws) <|
    readsItsEncoding_ite (bare rfl rfl rfl) <| readsItsEncoding_ite (bare rfl rfl rfl) <|
    readsItsEncoding_ite (bare rfl rfl rfl) <| readsItsEncoding_ite (bare rfl rfl rfl) <|
    readsItsEncoding_ite (bare rfl rfl rfl) <| readsItsEncoding_ite (bare rfl rfl rfl) <|
    readsItsEncoding_ite (bare rfl rfl rfl) <|
    readsItsEncoding_ite (decodeWritePixel_readsItsEncoding ws) <|
    readsItsEncoding_ite (decodeWriteSpanFill_readsItsEncoding ws) <|
    readsItsEncoding_ite (decodeWriteSpanCopy_readsItsEncoding ws) <|
    readsItsEncoding_ite (decodeReadSpan_readsItsEncoding ws) <|
    readsItsEncoding_ite (decodePalSet_readsItsEncoding ws) <|
    readsItsEncoding_ite (decodePalGet_readsItsEncoding ws) <|
    readsItsEncoding_ite (decodeWriteText_readsItsEncoding ws) (readsItsEncoding_error _ _)

/-- Settles O2: `W0` is its three fields, and the decoder its opcode selects reads nothing but encodings. -/
theorem hostWordsHaveOneReading : Obligations.HostWordsHaveOneReading := by
  unfold Obligations.HostWordsHaveOneReading
  intro ws rest i h
  cases ws with
  | nil => cases h
  | cons w0 ws =>
    rw [← packW0_fields w0]
    exact decodeOp_readsItsEncoding ws i rest h

end Sys2Proof
end

section
/-!
What the format H decoder refuses, O5 (R76), and the words the spec writes out, O4.
-/

namespace Sys2Proof

open Machine

variable {flg : Byte} {a : Half} {w0 : Word} {ws rest : List Word}

/-! ## How many words an operation takes (R77) -/

theorem wordsAfter_of_position_value (h : opcField w0 = 0x10#8 ∨ opcField w0 = 0x11#8) : wordsAfter w0 = 2 := by
  rcases h with h | h <;> simp [wordsAfter, h]

theorem wordsAfter_of_one (h : opcField w0 = 0x01#8 ∨ opcField w0 = 0x13#8 ∨ opcField w0 = 0x18#8) :
    wordsAfter w0 = 1 := by
  rcases h with h | h | h <;> simp [wordsAfter, h]

theorem wordsAfter_of_spanCopy (h : opcField w0 = 0x12#8) : wordsAfter w0 = 1 + (aField w0).toNat := by
  simp [wordsAfter, h]

theorem wordsAfter_of_text (h : opcField w0 = 0x1A#8) : wordsAfter w0 = 2 + (aField w0).toNat := by
  simp [wordsAfter, h]

/-! ## Words that end too early -/

theorem decodeWriteSpanCopy_truncated (h : ws.length < 1 + a.toNat) :
    decodeWriteSpanCopy flg a ws = .error .truncated := by
  rcases ws with _ | ⟨w1, rest⟩
  · rfl
  · have htake : takeWords a.toNat rest = none := takeWords_eq_none.2 (by rw [List.length_cons] at h; omega)
    simp only [decodeWriteSpanCopy, htake]

theorem decodeWriteText_truncated (h : ws.length < 2 + a.toNat) :
    decodeWriteText flg a ws = .error .truncated := by
  rcases ws with _ | ⟨w1, _ | ⟨w2, rest⟩⟩
  · rfl
  · rfl
  · have htake : takeWords a.toNat rest = none := takeWords_eq_none.2 (by simp only [List.length_cons] at h; omega)
    simp only [decodeWriteText, htake]

/-- The opcode selects the decoder: after this, `decodeOp` at a numeral is one of its arms. -/
theorem decodeH_of_opcode {opc : Byte} (h : opcField w0 = opc) (ws : List Word) :
    decodeH (w0 :: ws) = decodeOp opc (flgField w0) (aField w0) ws := by
  rw [decodeH, h]

theorem decodeH_truncated
    (h : opcField w0 ∈ [0x01#8, 0x10#8, 0x11#8, 0x12#8, 0x13#8, 0x18#8, 0x1A#8])
    (hlen : ws.length < wordsAfter w0) : decodeH (w0 :: ws) = .error .truncated := by
  have none_left (h1 : wordsAfter w0 = 1) : ws = [] := List.eq_nil_of_length_eq_zero (by omega)
  have at_most_one (h2 : wordsAfter w0 = 2) : ws = [] ∨ ∃ w, ws = [w] :=
    (Nat.le_one_iff_eq_zero_or_eq_one.1 (by omega)).imp List.eq_nil_of_length_eq_zero List.length_eq_one_iff.1
  simp only [List.mem_cons, List.not_mem_nil, or_false] at h
  obtain h | h | h | h | h | h | h := h <;> rw [decodeH_of_opcode h]
  · rw [none_left (wordsAfter_of_one (by simp [h]))]; rfl
  · obtain rfl | ⟨w, rfl⟩ := at_most_one (wordsAfter_of_position_value (by simp [h])) <;> rfl
  · obtain rfl | ⟨w, rfl⟩ := at_most_one (wordsAfter_of_position_value (by simp [h])) <;> rfl
  · exact decodeWriteSpanCopy_truncated (wordsAfter_of_spanCopy h ▸ hlen)
  · rw [none_left (wordsAfter_of_one (by simp [h]))]; rfl
  · rw [none_left (wordsAfter_of_one (by simp [h]))]; rfl
  · exact decodeWriteText_truncated (wordsAfter_of_text h ▸ hlen)

/-! ## Fields that must be zero -/

theorem decodeBare_unusedFieldSet {i : Instr} (h : flg ≠ 0 ∨ a ≠ 0) :
    decodeBare i flg a rest = .error .unusedFieldSet :=
  if_neg (not_and_or.2 h)

/-- The operations without operand words use neither `FLG` nor `A` (R74). -/
theorem decodeH_of_bare
    (h : opcField w0 ∈ [0x02#8, 0x03#8, 0x04#8, 0x05#8, 0x06#8, 0x07#8, 0x08#8]) (rest : List Word) :
    ∃ i, decodeH (w0 :: rest) = decodeBare i (flgField w0) (aField w0) rest := by
  simp only [List.mem_cons, List.not_mem_nil, or_false] at h
  obtain h | h | h | h | h | h | h := h <;> exact ⟨_, decodeH_of_opcode h rest⟩

theorem decodeInit_unusedFieldSet (hws : ws ≠ []) (h : flg.extractLsb' 2 6 ≠ 0#6 ∨ a ≠ 0) :
    decodeInit flg a ws = .error .unusedFieldSet := by
  obtain ⟨w1, rest, rfl⟩ := List.exists_cons_of_ne_nil hws
  exact if_neg (not_and_or.2 h)

/-- What `WRITE_PIXEL`, the spans, `READ_SPAN`, `PAL_SET` and `PAL_GET` do not use of `A` (R74): all of it, nothing
where it is a length, the upper byte where it is an index. -/
def unusedA (opc : Byte) (a : Half) : Half :=
  if opc = 0x10#8 then a
  else if opc = 0x18#8 ∨ opc = 0x19#8 then 0#8 ++ a.extractLsb' 8 8
  else 0

theorem decodeWriteSpanCopy_of_enough (h : 1 + a.toNat ≤ ws.length) :
    ∃ i rest, decodeWriteSpanCopy flg a ws = decodeBare i flg 0 rest := by
  obtain ⟨w1, ws, rfl⟩ := List.exists_cons_of_length_pos (by omega : 0 < ws.length)
  cases htake : takeWords a.toNat ws with
  | none => exact absurd (takeWords_eq_none.1 htake) (by rw [List.length_cons] at h; omega)
  | some taken =>
    refine ⟨.writeSpanCopy (xField w1) (yField w1) taken.1, taken.2, ?_⟩
    simp only [decodeWriteSpanCopy, htake]

/-- With all their words there, these operations are decoded by the one test of `FLG` and of what they do not use
of `A`. -/
theorem decodeH_of_operands (h : opcField w0 ∈ [0x10#8, 0x11#8, 0x12#8, 0x13#8, 0x18#8, 0x19#8])
    (hlen : wordsAfter w0 ≤ ws.length) :
    ∃ i rest, decodeH (w0 :: ws) = decodeBare i (flgField w0) (unusedA (opcField w0) (aField w0)) rest := by
  have one (h1 : wordsAfter w0 = 1) : ∃ w1 rest, ws = w1 :: rest :=
    List.exists_cons_of_length_pos (by omega)
  have two (h2 : wordsAfter w0 = 2) : ∃ w1 w2 rest, ws = w1 :: w2 :: rest := by
    rcases ws with _ | ⟨w1, _ | ⟨w2, rest⟩⟩
    · exact absurd hlen (by simp [h2])
    · exact absurd hlen (by simp [h2])
    · exact ⟨w1, w2, rest, rfl⟩
  simp only [List.mem_cons, List.not_mem_nil, or_false] at h
  obtain h | h | h | h | h | h := h <;> rw [decodeH_of_opcode h, h]
  · obtain ⟨w1, w2, rest, rfl⟩ := two (wordsAfter_of_position_value (by simp [h]))
    exact ⟨_, _, rfl⟩
  · obtain ⟨w1, w2, rest, rfl⟩ := two (wordsAfter_of_position_value (by simp [h]))
    exact ⟨_, _, rfl⟩
  · exact decodeWriteSpanCopy_of_enough (wordsAfter_of_spanCopy h ▸ hlen)
  · obtain ⟨w1, rest, rfl⟩ := one (wordsAfter_of_one (by simp [h]))
    exact ⟨_, _, rfl⟩
  · obtain ⟨w2, rest, rfl⟩ := one (wordsAfter_of_one (by simp [h]))
    exact ⟨_, _, rfl⟩
  · exact ⟨_, _, rfl⟩

theorem decodeWriteText_unusedFieldSet {w1 w2 : Word} {data : List Word} (hlen : data.length = a.toNat)
    (h : flg.extractLsb' 1 7 ≠ 0#7 ∨ 256 ≤ w2.toNat ∨ ∃ w ∈ data, 256 ≤ w.toNat) :
    decodeWriteText flg a (w1 :: w2 :: (data ++ rest)) = .error .unusedFieldSet := by
  have hbad : ¬(flg.extractLsb' 1 7 = 0#7 ∧ isByte w2 = true ∧ data.all isByte = true) := by
    simp only [isByte, List.all_eq_true, decide_eq_true_eq]
    rintro ⟨hflg, hattr, hdata⟩
    obtain h | h | ⟨w, hw, h⟩ := h
    · exact h hflg
    · exact absurd hattr (not_lt.2 h)
    · exact absurd (hdata w hw) (not_lt.2 h)
  simp only [decodeWriteText, ← hlen, takeWords_append]
  exact if_neg hbad

/-! ## Opcodes that R74 does not list -/

theorem decodeH_unknownOpcode
    (h : opcField w0 ∉ [0x01#8, 0x02#8, 0x03#8, 0x04#8, 0x05#8, 0x06#8, 0x07#8, 0x08#8, 0x10#8, 0x11#8,
      0x12#8, 0x13#8, 0x18#8, 0x19#8, 0x1A#8]) :
    decodeH (w0 :: rest) = .error (.unknownOpcode (opcField w0)) := by
  simp only [List.mem_cons, List.not_mem_nil, or_false, not_or] at h
  simp only [decodeH, decodeOp, h, if_false]

/-! ## The application's turn -/

theorem appTurn_of_undecodable {s : State} {e : DecodeError} (hb : s.busy = none) (hp : s.port ≠ [])
    (hd : decodeH s.port = .error e) : appTurn s = .refused (.undecodable e) := by
  obtain ⟨w0, ws, hport⟩ := List.exists_cons_of_ne_nil hp
  rw [hport] at hd
  simp only [appTurn, hb, hport, hd]

/-- Settles O5: the turn hands on the decoder's reason, and each way to be no operation has its own reason. -/
theorem undecodableHostWordsRefused : Obligations.UndecodableHostWordsRefused := by
  unfold Obligations.UndecodableHostWordsRefused
  refine ⟨fun s e hi ha hb hp hd => ?turn, fun w0 rest => ⟨decodeH_unknownOpcode, decodeH_truncated,
    fun h hset => ?bare, fun h hws hset => ?init, fun h hlen hset => ?flg, fun h hlen hset => ?pixel,
    fun h hlen hset => ?index⟩, fun w0 w1 w2 data rest h hlen hset => ?text⟩
  case turn =>
    rw [step_of_invoke_nil hi, ha]
    exact appTurn_of_undecodable (s := s.took) hb hp hd
  case bare =>
    obtain ⟨i, hdec⟩ := decodeH_of_bare h rest
    exact hdec.trans (decodeBare_unusedFieldSet hset)
  case init => exact (decodeH_of_opcode h rest).trans (decodeInit_unusedFieldSet hws hset)
  case flg =>
    obtain ⟨i, r, hdec⟩ := decodeH_of_operands h hlen
    exact hdec.trans (decodeBare_unusedFieldSet (.inl hset))
  case pixel =>
    obtain ⟨i, r, hdec⟩ := decodeH_of_operands (by simp [h]) hlen
    exact hdec.trans (decodeBare_unusedFieldSet (.inr (by rwa [unusedA, if_pos h])))
  case index =>
    simp only [List.mem_cons, List.not_mem_nil, or_false] at h
    obtain ⟨i, r, hdec⟩ := decodeH_of_operands (by rcases h with h | h <;> simp [h]) hlen
    have hA : unusedA (opcField w0) (aField w0) = 0#8 ++ (aField w0).extractLsb' 8 8 := by
      rcases h with h | h <;> rw [h] <;> rfl
    exact hdec.trans (decodeBare_unusedFieldSet (.inr (by rw [hA]; exact mt zero_append_eq_zero_iff.1 hset)))
  case text => exact (decodeH_of_opcode h _).trans (decodeWriteText_unusedFieldSet hlen hset)

/-- Settles O4: the words the spec gives are the encodings of the operations it gives beside them. -/
theorem writtenOutWordsDecode : Obligations.WrittenOutWordsDecode :=
  ⟨decodeEncodeHostOps (.init 640 480 .rgb565) [] rfl rfl,
    decodeEncodeHostOps (.writePixel 0 9 0x1F#32) [] rfl rfl,
    decodeEncodeHostOps (.writeSpanFill 2 0 4 0x1F#32) [] rfl rfl,
    decodeEncodeHostOps (.writeText 1 0 [0x41#8] 0x80#8 true) [] rfl rfl,
    decodeEncodeHostOps (.palSet 1 0x123456#32) [] rfl rfl,
    decodeH_unknownOpcode (w0 := 0x09000000#32) (by decide),
    decodeBare_unusedFieldSet (i := .flipAsync) (flg := 0) (a := 1) (rest := []) (.inr (by decide)), rfl, rfl⟩

end Sys2Proof
end

section
/-!
The command words of format C and the codes of the formats M and L, and O3: each names the operation it encodes.
-/

namespace Sys2Proof

open Machine (toNat_append_eq)

/-! ## Command words (R71) -/

/-- The test the decoder makes of bits 31:12: the upper half zero and the opcode. -/
theorem eq_cmdWord_iff {w : Word} {op : BitVec 4} {n : BitVec 12} :
    w = cmdWord op n ↔ w.extractLsb' 12 20 = 0#16 ++ op ∧ w.extractLsb' 0 12 = n := by
  constructor
  · rintro rfl
    exact ⟨BitVec.extractLsb'_append_eq_left, BitVec.extractLsb'_append_eq_right⟩
  · rintro ⟨hop, hn⟩
    rw [cmdWord, ← hop, ← hn]
    exact (append_extractLsb'_fields (m := 20) (n := 12) w).symm

theorem decodeC_eq_ok_iff {w : Word} {i : Instr} : decodeC w = .ok i ↔
    (∃ n, i = .rawRepeat n ∧ w = cmdWord 0x1#4 n) ∨ ∃ n, i = .stream n ∧ w = cmdWord 0x2#4 n := by
  have repeat_iff (n : BitVec 12) :
      w = cmdWord 0x1#4 n ↔ w.extractLsb' 12 20 = 0x00001#20 ∧ w.extractLsb' 0 12 = n := eq_cmdWord_iff
  have stream_iff (n : BitVec 12) :
      w = cmdWord 0x2#4 n ↔ w.extractLsb' 12 20 = 0x00002#20 ∧ w.extractLsb' 0 12 = n := eq_cmdWord_iff
  simp only [repeat_iff, stream_iff, decodeC]
  by_cases h1 : w.extractLsb' 12 20 = 0x00001#20
  · simp [h1, eq_comm]
  · by_cases h2 : w.extractLsb' 12 20 = 0x00002#20
    · simp [h2, eq_comm]
    · simp [h1, h2]

theorem decodeC_rawRepeat (n : BitVec 12) : decodeC (cmdWord 0x1#4 n) = .ok (.rawRepeat n) :=
  decodeC_eq_ok_iff.2 (.inl ⟨n, rfl, rfl⟩)

theorem decodeC_stream (n : BitVec 12) : decodeC (cmdWord 0x2#4 n) = .ok (.stream n) :=
  decodeC_eq_ok_iff.2 (.inr ⟨n, rfl, rfl⟩)

/-- The operations of format C are the two command words. -/
theorem encode_eq_commandWord_iff {w : Word} {i : Instr} : i.format = .c ∧ encode i = [w] ↔
    (∃ n, i = .rawRepeat n ∧ w = cmdWord 0x1#4 n) ∨ ∃ n, i = .stream n ∧ w = cmdWord 0x2#4 n := by
  constructor
  · rintro ⟨hf, henc⟩
    cases i with
    | rawRepeat n => exact .inl ⟨n, rfl, (List.cons.inj henc).1.symm⟩
    | stream n => exact .inr ⟨n, rfl, (List.cons.inj henc).1.symm⟩
    | _ => cases hf
  · rintro (⟨n, rfl, rfl⟩ | ⟨n, rfl, rfl⟩) <;> exact ⟨rfl, rfl⟩

/-! ## Codes of fills and of line classes (R70) -/

theorem decodeM_encodes (code : BitVec 2) (k y : Nat) :
    (decodeM code k y).format = .m ∧ encode (decodeM code k y) = [0#30 ++ code] := by
  have hcode := Mode.code_ofCode code
  unfold decodeM
  cases hm : Mode.ofCode code <;> rw [hm] at hcode <;> subst hcode <;> exact ⟨rfl, rfl⟩

theorem decodeL_encodes (l : LineClass) (c : Channel) :
    ∃ i, decodeL l.code c = .ok i ∧ i.format = .l ∧ encode i = [0#30 ++ l.code] := by
  cases l <;> exact ⟨_, rfl, rfl, rfl⟩

/-- The code that no line class has is 0b11. -/
theorem exists_code_iff (code : BitVec 2) : (∃ l : LineClass, l.code = code) ↔ code ≠ 3#2 := by
  constructor
  · rintro ⟨l, rfl⟩
    cases l <;> decide
  · intro h
    have hcases : code = 0#2 ∨ code = 1#2 ∨ code = 2#2 := by revert code; decide
    obtain rfl | rfl | rfl := hcases
    · exact ⟨.sync, rfl⟩
    · exact ⟨.blank, rfl⟩
    · exact ⟨.active, rfl⟩

/-- Settles O3: the decoders of the formats C, M and L invert the encoder. -/
theorem commandWordsAndCodesDecode : Obligations.CommandWordsAndCodesDecode := by
  unfold Obligations.CommandWordsAndCodesDecode
  refine ⟨fun w i => decodeC_eq_ok_iff.trans encode_eq_commandWord_iff.symm, decodeM_encodes,
    fun code c => ⟨?_, fun h => ?_⟩⟩
  · rintro ⟨i, hdec, -⟩ rfl
    cases hdec
  · obtain ⟨l, rfl⟩ := (exists_code_iff code).2 h
    exact decodeL_encodes l c

end Sys2Proof
end

section
/-!
The tables of INIT in numbers, and O28: the words the three builders write (R86, R87, R88).
-/

namespace Sys2Proof.Machine

variable {s : State}

/-! ## Command words in numbers (R71) -/

theorem toNat_cmdWord (op : BitVec 4) (n : BitVec 12) : (cmdWord op n).toNat = op.toNat * 4096 + n.toNat := by
  change (0#16 ++ op ++ n).toNat = _
  rw [toNat_append_eq, toNat_append_eq]
  simp

theorem toNat_count {n : Nat} (h : n ≤ 4095) : (BitVec.ofNat 12 n).toNat = n := by
  rw [BitVec.toNat_ofNat, Nat.mod_eq_of_lt (by omega)]

theorem cmdWord_ofNat (op : BitVec 4) {n : Nat} (h : n ≤ 4095) :
    cmdWord op (BitVec.ofNat 12 n) = BitVec.ofNat 32 (op.toNat * 4096 + n) := by
  apply BitVec.eq_of_toNat_eq
  have hop := op.isLt
  rw [toNat_cmdWord, toNat_count h, BitVec.toNat_ofNat, Nat.mod_eq_of_lt (by omega)]

theorem repeatWord_eq {n : Nat} (h : n ≤ 4095) : repeatWord n = BitVec.ofNat 32 (4096 + n) :=
  cmdWord_ofNat 0x1#4 h

theorem streamWord_eq {n : Nat} (h : n ≤ 4095) : streamWord n = BitVec.ofNat 32 (8192 + n) :=
  cmdWord_ofNat 0x2#4 h

/-! ## The counts of an accepted configuration (R117 (a), R116) -/

theorem validTiming_horizontal {d : TimingDescriptor} (h : validTiming d = true) :
    (1 ≤ d.hFp.toNat ∧ d.hFp.toNat ≤ 4095) ∧ (1 ≤ d.hSw.toNat ∧ d.hSw.toNat ≤ 4095) ∧
      1 ≤ d.hBp.toNat ∧ 1 ≤ d.hAct.toNat ∧ d.hBp.toNat + d.hAct.toNat ≤ 4095 := by
  simp only [validTiming, Bool.and_eq_true, decide_eq_true_eq] at h
  omega

/-- The cells of a text line leave a filler of at least one pixel. -/
theorem textWidth_lt (hc : s.configOk) (hm : Mode.isText s.mode = true) :
    s.frameW.toNat * 14 < s.timing.hAct.toNat := by
  obtain ⟨-, -, -, -, -, -, htext⟩ := hc
  obtain ⟨-, -, -, hact, hw, -⟩ := htext hm
  rw [hw]
  simp only [cellW] at hact ⊢
  omega

/-! ## The three builders -/

theorem vlist_eq (hc : s.configOk) (v : Bool) : s.vlist v =
    [BitVec.ofNat 32 (4096 + s.timing.hFp.toNat), Platform.syncw s.plat v false,
      BitVec.ofNat 32 (4096 + s.timing.hSw.toNat), Platform.syncw s.plat v true,
      BitVec.ofNat 32 (4096 + (s.timing.hBp.toNat + s.timing.hAct.toNat)), Platform.syncw s.plat v false] := by
  obtain ⟨⟨-, hfp⟩, ⟨-, hsw⟩, -, -, hline⟩ := validTiming_horizontal hc.1
  rw [State.vlist, repeatWord_eq hfp, repeatWord_eq hsw, repeatWord_eq hline]

theorem hdrTail_eq (hc : s.configOk) : s.hdrTail =
    if Mode.isText s.mode then
      [BitVec.ofNat 32 (4096 + (s.timing.hAct.toNat - s.frameW.toNat * 14)), s.plat.blankPixel,
        BitVec.ofNat 32 (8192 + s.frameW.toNat * 14)]
    else [BitVec.ofNat 32 (8192 + s.timing.hAct.toNat)] := by
  obtain ⟨-, -, -, -, hline⟩ := validTiming_horizontal hc.1
  unfold State.hdrTail
  split
  · next hm =>
    have hwidth := textWidth_lt hc hm
    rw [State.textFiller, repeatWord_eq (by omega), streamWord_eq (hwidth.le.trans (by omega))]
  · rw [streamWord_eq (by omega)]

/-- Settles O28: each builder sets its own table, and the counts fit the 12 bits of a command word. -/
theorem buildersWriteTheTables : Obligations.BuildersWriteTheTables := by
  unfold Obligations.BuildersWriteTheTables
  intro s hinit hc
  refine ⟨(whenInited_of hinit).trans ?_, (whenInited_of hinit).trans ?_, whenInited_of hinit⟩
  · rw [State.withVlists, vlist_eq hc, vlist_eq hc]
    rfl
  · obtain ⟨⟨-, hfp⟩, ⟨-, hsw⟩, -, -, hline⟩ := validTiming_horizontal hc.1
    rw [State.withHdr, State.header, repeatWord_eq hfp, repeatWord_eq hsw, repeatWord_eq (by omega), hdrTail_eq hc]
    rfl

end Sys2Proof.Machine
end

section
/-!
The serial output of a line (R72), O59 and O60: a command list is a list of raw runs, a line buffer such a list and
its pixels, and both last `H_TOTAL` pixel periods.
-/

namespace Sys2Proof.Machine

variable {s t : State} {n k : Nat} {d : Word} {rest data : List Word} {lines : List (List Word)}

/-! ## One command word -/

theorem execRawRepeat_of_data {count : BitVec 12} (hn : count ≠ 0) (hs : s.serIn = (d :: rest) :: lines) :
    execRawRepeat count s = .next { s with
      serIn := rest :: lines, wire := s.wire ++ [.raw d count.toNat] } := by
  simp only [execRawRepeat, if_neg hn, hs]

theorem execStream_of_data {count : BitVec 12} (hn : count ≠ 0) (hs : s.serIn = (d :: rest) :: lines) :
    execStream count s = .next { s with
      serIn := lines, wire := s.wire ++ [.pixels count.toNat (d :: rest)] } := by
  simp only [execStream, if_neg hn, hs]

/-- Settles O59: with a data word there, a command word with a count other than 0 makes its run. -/
theorem commandWordsDriveSerialOutput : Obligations.CommandWordsDriveSerialOutput :=
  fun _ _ _ _ _ => ⟨fun hn hs => ⟨execRawRepeat_of_data hn hs, execStream_of_data hn hs⟩, rfl, rfl⟩

/-- A count that a command word can carry: 1 to 4095 (R71). -/
abbrev countOk (n : Nat) : Prop := 1 ≤ n ∧ n ≤ 4095

theorem count_ne_zero (h : countOk n) : BitVec.ofNat 12 n ≠ 0 := fun h0 => by
  have hcount := toNat_count h.2
  rw [h0] at hcount
  exact absurd hcount.symm (Nat.ne_of_gt h.1)

theorem serialTurn_repeatWord (h : countOk n) (hs : s.serIn = (repeatWord n :: d :: rest) :: lines) :
    serialTurn s = .next { s with serIn := rest :: lines, wire := s.wire ++ [.raw d n] } := by
  rw [serialTurn_of_decodeC hs (decodeC_rawRepeat _)]
  change execRawRepeat _ { s with serIn := (d :: rest) :: lines } = _
  rw [execRawRepeat_of_data (count_ne_zero h) rfl, toNat_count h.2]

theorem serialTurn_streamWord (h : countOk n) (hdata : data ≠ [])
    (hs : s.serIn = (streamWord n :: data) :: lines) :
    serialTurn s = .next { s with serIn := lines, wire := s.wire ++ [.pixels n data] } := by
  obtain ⟨d, rest, rfl⟩ := List.exists_cons_of_ne_nil hdata
  rw [serialTurn_of_decodeC hs (decodeC_stream _)]
  change execStream _ { s with serIn := (d :: rest) :: lines } = _
  rw [execStream_of_data (count_ne_zero h) rfl, toNat_count h.2]

theorem serialTurns_succ (h : serialTurn s = .next t) : serialTurns (k + 1) s = serialTurns k t := by
  simp only [serialTurns, h]

/-! ## A list of raw runs -/

/-- The words of some raw runs, each a period count and its data word. -/
def repeatWords (runs : List (Nat × Word)) : List Word := runs.flatMap fun r => [repeatWord r.1, r.2]

/-- The same runs on the serial output. -/
def rawRuns (runs : List (Nat × Word)) : List WireRun := runs.map fun r => .raw r.2 r.1

theorem serialTurns_repeatWords {runs : List (Nat × Word)} (hok : ∀ r ∈ runs, countOk r.1)
    (hs : s.serIn = (repeatWords runs ++ rest) :: lines) :
    serialTurns (runs.length + k) s =
      serialTurns k { s with serIn := rest :: lines, wire := s.wire ++ rawRuns runs } := by
  induction runs generalizing s with
  | nil =>
    have hsame : { s with serIn := rest :: lines, wire := s.wire ++ rawRuns [] } = s := by
      have hs : s.serIn = rest :: lines := hs
      rw [← hs, show s.wire ++ rawRuns [] = s.wire from List.append_nil _]
    rw [hsame, List.length_nil, Nat.zero_add]
  | cons r runs ih =>
    have hturn := serialTurn_repeatWord (hok r (List.mem_cons_self ..)) (rest := repeatWords runs ++ rest) hs
    rw [List.length_cons, Nat.add_right_comm, serialTurns_succ hturn,
      ih (fun r hr => hok r (List.mem_cons_of_mem _ hr)) rfl, List.append_assoc]
    rfl

theorem wireDuration_append (ws ws' : List WireRun) :
    wireDuration (ws ++ ws') = wireDuration ws + wireDuration ws' := by
  rw [wireDuration, List.map_append, List.sum_append]
  rfl

theorem wireDuration_rawRuns (runs : List (Nat × Word)) : wireDuration (rawRuns runs) = (runs.map Prod.fst).sum := by
  rw [wireDuration, rawRuns, List.map_map]
  rfl

/-! ## The vertical lists (R86) -/

/-- The runs of the vertical command list with vertical sync at `v`. -/
def State.vlistRuns (s : State) (v : Bool) : List (Nat × Word) :=
  [(s.timing.hFp.toNat, Platform.syncw s.plat v false), (s.timing.hSw.toNat, Platform.syncw s.plat v true),
    (s.timing.hBp.toNat + s.timing.hAct.toNat, Platform.syncw s.plat v false)]

theorem vlist_eq_repeatWords (v : Bool) : s.vlist v = repeatWords (s.vlistRuns v) ++ [] := rfl

theorem vlistRuns_countOk (hc : s.configOk) (v : Bool) : ∀ r ∈ s.vlistRuns v, countOk r.1 := by
  obtain ⟨hfp, hsw, hbp, -, hline⟩ := validTiming_horizontal hc.1
  simp only [State.vlistRuns, List.forall_mem_cons, countOk]
  exact ⟨hfp, hsw, ⟨by omega, hline⟩, nofun⟩

theorem vlistRuns_duration (v : Bool) : wireDuration (rawRuns (s.vlistRuns v)) = hTotalOf s.timing := by
  rw [wireDuration_rawRuns]
  simp only [State.vlistRuns, List.map_cons, List.map_nil, List.sum_cons, List.sum_nil, hTotalOf]
  omega

/-! ## The line buffers (R87) -/

/-- The runs of the active line header before its stream directive: in the text modes the filler is the last. -/
def State.headerRuns (s : State) : List (Nat × Word) :=
  [(s.timing.hFp.toNat, Platform.syncw s.plat false false), (s.timing.hSw.toNat, Platform.syncw s.plat false true),
    (s.timing.hBp.toNat, Platform.syncw s.plat false false)] ++
    if Mode.isText s.mode then [(s.textFiller, s.plat.blankPixel)] else []

theorem header_eq_repeatWords : s.header = repeatWords s.headerRuns ++ [streamWord s.nPix] := by
  unfold State.header State.hdrTail State.headerRuns State.nPix
  split <;> rfl

theorem headerRuns_length : s.headerRuns.length + 1 = if Mode.isText s.mode then 5 else 4 := by
  unfold State.headerRuns
  split <;> rfl

/-- The filler and the pixels of a line together take `H_ACT` periods, and each has a count that fits. -/
theorem filler_and_pixels (hc : s.configOk) : countOk s.nPix ∧ if Mode.isText s.mode then
    countOk s.textFiller ∧ s.textFiller + s.nPix = s.timing.hAct.toNat else s.nPix = s.timing.hAct.toNat := by
  obtain ⟨-, -, -, hact, hline⟩ := validTiming_horizontal hc.1
  have ⟨_, hwidth, _⟩ := hc
  cases hm : Mode.isText s.mode with
  | true =>
    have hlt := textWidth_lt hc hm
    simp only [State.nPix, State.textFiller, countOk, cellW, hm, if_true]
    omega
  | false =>
    simp only [State.nPix, hm, Bool.false_eq_true, if_false, and_true]
    exact ⟨hact, by omega⟩

theorem headerRuns_countOk (hc : s.configOk) : ∀ r ∈ s.headerRuns, countOk r.1 := by
  obtain ⟨hfp, hsw, hbp, -, hline⟩ := validTiming_horizontal hc.1
  obtain ⟨-, htail⟩ := filler_and_pixels hc
  simp only [State.headerRuns, List.forall_mem_append, List.forall_mem_cons]
  refine ⟨⟨hfp, hsw, ⟨hbp, by omega⟩, nofun⟩, ?_⟩
  split
  · next hm =>
    rw [if_pos hm] at htail
    exact List.forall_mem_singleton.2 htail.1
  · exact nofun

theorem headerRuns_duration (hc : s.configOk) (data : List Word) :
    wireDuration (rawRuns s.headerRuns ++ [.pixels s.nPix data]) = hTotalOf s.timing := by
  obtain ⟨-, htail⟩ := filler_and_pixels hc
  have hpixels : wireDuration [.pixels s.nPix data] = s.nPix := Nat.add_zero _
  rw [wireDuration_append, wireDuration_rawRuns, hpixels, hTotalOf]
  cases hm : Mode.isText s.mode with
  | true =>
    simp only [hm, if_true] at htail
    simp only [State.headerRuns, hm, if_true, List.map_append, List.map_cons, List.map_nil, List.sum_append,
      List.sum_cons, List.sum_nil]
    omega
  | false =>
    simp only [hm, Bool.false_eq_true, if_false] at htail
    simp only [State.headerRuns, hm, Bool.false_eq_true, if_false, List.append_nil, List.map_cons, List.map_nil,
      List.sum_cons, List.sum_nil]
    omega

/-- Settles O60: the peripheral reads the runs of a list one a turn, and then the pixels of a line buffer. -/
theorem everyScanlineLastsHTotal : Obligations.EveryScanlineLastsHTotal := by
  unfold Obligations.EveryScanlineLastsHTotal
  refine fun s lines hc => ⟨fun v hs => ?vlist, fun data hdata hs => ?line⟩
  case vlist =>
    rw [vlist_eq_repeatWords] at hs
    exact ⟨_, _, serialTurns_repeatWords (k := 0) (vlistRuns_countOk hc v) hs, rfl, vlistRuns_duration v⟩
  case line =>
    rw [header_eq_repeatWords, List.append_assoc] at hs
    have hpixels := serialTurn_streamWord (filler_and_pixels hc).1 hdata
      (s := { s with serIn := (streamWord s.nPix :: data) :: lines, wire := s.wire ++ rawRuns s.headerRuns }) rfl
    refine ⟨_, rawRuns s.headerRuns ++ [.pixels s.nPix data], ?_, rfl, headerRuns_duration hc data,
      List.getLast?_concat⟩
    rw [← headerRuns_length, serialTurns_repeatWords (headerRuns_countOk hc) hs]
    refine (serialTurns_succ hpixels).trans ?_
    rw [← List.append_assoc]
    rfl

end Sys2Proof.Machine
end

section
/-!
Where the host's operations are refused, O56: what the acceptance of an access answers when it does not accept.
-/

namespace Sys2Proof.Machine

variable {s : State} {x y : Half} {len : Nat} {values : List Word} {k : Outcome'}

/-! ## The refusals of an access -/

theorem graphicAccess_of_text (hinit : s.inited = true) (hm : Mode.isText s.mode = true) :
    graphicAccess s x y len values k = .refused .wrongMode :=
  (whenInited_of hinit).trans (if_pos hm)

theorem textAccess_of_graphic (hinit : s.inited = true) (hm : Mode.isText s.mode = false) :
    textAccess s x y len k = .refused .wrongMode :=
  (whenInited_of hinit).trans (if_neg (Bool.eq_false_iff.1 hm))

theorem graphicAccess_of_outside (hinit : s.inited = true) (hm : Mode.isText s.mode = false)
    (hfit : values.all (valueFits s.mode) = true) (hout : s.outside x y len) :
    graphicAccess s x y len values k = .refused .contractViolation := by
  rw [graphicAccess, whenInited_of hinit, if_neg (Bool.eq_false_iff.1 hm), if_pos hfit,
    if_neg (Bool.eq_false_iff.1 (outside_iff.1 hout)), raise]

theorem textAccess_of_outside (hinit : s.inited = true) (hm : Mode.isText s.mode = true)
    (hout : s.outside x y len) : textAccess s x y len k = .refused .contractViolation := by
  rw [textAccess, whenInited_of hinit, if_pos hm, if_neg (Bool.eq_false_iff.1 (outside_iff.1 hout)), raise]

/-- A value of a graphic mode that has a bit above the unit (R73, R128). -/
abbrev State.tooWide (s : State) (v : Word) : Prop :=
  s.mode = .rgb565 ∧ 65536 ≤ v.toNat ∨ s.mode = .palette8 ∧ 256 ≤ v.toNat

theorem graphicAccess_of_tooWide (hinit : s.inited = true) {v : Word} (hv : v ∈ values) (hwide : s.tooWide v) :
    graphicAccess s x y len values k = .refused .valueTooWide := by
  have hmode : Mode.isText s.mode = false ∧ valueFits s.mode v = false := by
    rcases hwide with ⟨hm, hv⟩ | ⟨hm, hv⟩ <;> rw [hm] <;> exact ⟨rfl, decide_eq_false (not_lt.2 hv)⟩
  have hall : ¬values.all (valueFits s.mode) = true := fun hall =>
    Bool.eq_false_iff.1 hmode.2 (List.all_eq_true.1 hall v hv)
  rw [graphicAccess, whenInited_of hinit, if_neg (Bool.eq_false_iff.1 hmode.1), if_neg hall]

/-! ## Before INIT -/

theorem exec_host_of_not_inited {i : Instr} (h : s.inited = false) (hf : i.format = .h)
    (hinit : ∀ width height mode, i ≠ .init width height mode) (hreset : i ≠ .reset)
    (hset : ∀ index colour, i ≠ .palSet index colour) (hget : ∀ index, i ≠ .palGet index) :
    exec i s = .refused .notInitialised := by
  cases i with
  | init width height mode => exact absurd rfl (hinit width height mode)
  | reset => exact absurd rfl hreset
  | palSet index colour => exact absurd rfl (hset index colour)
  | palGet index => exact absurd rfl (hget index)
  | flipAsync | flipBlocking | flipNow | waitVsync | waitFlip | clear | writePixel | writeSpanFill
  | writeSpanCopy | readSpan | writeText => exact whenInited_not h
  | _ => cases hf

/-- Settles O56: the acceptance makes its tests in the order INITED, mode, width of the value, bounds. -/
theorem hostOperationsRefusedWhere : Obligations.HostOperationsRefusedWhere := by
  unfold Obligations.HostOperationsRefusedWhere
  refine ⟨fun s i => exec_host_of_not_inited, fun s x y len v data hinit hm => ?text,
    fun s x y bytes attr immediate => textAccess_of_graphic,
    fun s x y len v data hinit hm hv hdata => ?outside,
    fun s x y bytes attr immediate => textAccess_of_outside,
    fun s x y len v data hinit hwide => ?wide⟩
  case text =>
    exact ⟨graphicAccess_of_text hinit hm, graphicAccess_of_text hinit hm, graphicAccess_of_text hinit hm,
      graphicAccess_of_text hinit hm⟩
  case outside =>
    have hone : [v].all (valueFits s.mode) = true := by rw [List.all_cons, hv]; rfl
    exact ⟨graphicAccess_of_outside hinit hm hone,
      fun hout => ⟨graphicAccess_of_outside hinit hm hone hout, graphicAccess_of_outside hinit hm rfl hout⟩,
      graphicAccess_of_outside hinit hm hdata⟩
  case wide =>
    have hone := List.mem_singleton_self v
    exact ⟨graphicAccess_of_tooWide hinit hone hwide, graphicAccess_of_tooWide hinit hone hwide,
      fun hmem => graphicAccess_of_tooWide hinit hmem hwide⟩

end Sys2Proof.Machine
end

section
/-!
The vertical state machine: the class and the source row of a scanline, PROGRAM in its two cases, the steps that can
exchange the buffer roles, and O25, O26, O29, O14.
-/

namespace Sys2Proof.Machine

variable {s t : State}

/-! ## The class of a scanline (R80) -/

theorem classOf_eq_sync_iff (v : Nat) : s.classOf v = .sync ↔
    s.timing.vFp.toNat ≤ v ∧ v < s.timing.vFp.toNat + s.timing.vSw.toNat := by
  unfold State.classOf
  split
  next hsync => exact iff_of_true rfl hsync
  next hnot => split <;> exact iff_of_false nofun hnot

/-- Settles O25: CLASSIFY accepts every scanline of the frame, and its tests are those of the statement. -/
theorem classifyScanline : Obligations.ClassifyScanline := by
  unfold Obligations.ClassifyScanline
  intro s v hinit hv
  have hexec : exec (.classify v) s = .next (s.returned (.lineClass (s.classOf v))) :=
    (whenInited_of hinit).trans (if_pos hv)
  exact ⟨s.classOf v, hexec, classOf_eq_sync_iff v, classOf_eq_active_iff v⟩

/-! ## The source row of a scanline (R81) -/

theorem vRep_pos : 0 < s.vRep := Nat.two_pow_pos _

theorem rowOf_eq_div (v : Nat) : s.rowOf v = (v - s.vInactive) / s.vRep := Nat.shiftRight_eq_div_pow _ _

/-- The active lines of an accepted configuration are its pixel rows, each `V_REP` times (R116). -/
theorem vAct_eq_rows_mul_vRep (hc : s.configOk) : s.timing.vAct.toNat = s.rows * s.vRep := by
  obtain ⟨-, -, -, -, -, hgraphic, htext⟩ := hc
  cases hm : Mode.isText s.mode with
  | false =>
    obtain ⟨-, hlines⟩ := hgraphic hm
    rw [State.rows, if_neg (Bool.eq_false_iff.1 hm), hlines]
  | true =>
    obtain ⟨-, -, hshift, -, -, hlines⟩ := htext hm
    have hrep : s.vRep = 1 := by rw [State.vRep, hshift]; rfl
    rw [State.rows, if_pos hm, hrep, Nat.mul_one, hlines]

theorem rowOf_lt_rows (hc : s.configOk) {v : Nat} (hactive : s.vInactive ≤ v) (hv : v < s.vTotal) :
    s.rowOf v < s.rows := by
  rw [rowOf_eq_div, Nat.div_lt_iff_lt_mul vRep_pos, ← vAct_eq_rows_mul_vRep hc]
  rw [State.vTotal_eq] at hv
  omega

/-- A scanline lies among the `V_REP` lines of its row. -/
theorem rowOf_bounds {v : Nat} (hactive : s.vInactive ≤ v) :
    s.vInactive + s.rowOf v * s.vRep ≤ v ∧ v < s.vInactive + (s.rowOf v + 1) * s.vRep := by
  rw [rowOf_eq_div]
  have hlo := Nat.div_mul_le_self (v - s.vInactive) s.vRep
  have hhi := Nat.lt_div_mul_add (a := v - s.vInactive) (vRep_pos (s := s))
  rw [Nat.succ_mul]
  omega

/-- Settles O26: the row is the quotient of the line's number by `V_REP`. -/
theorem sourceRowOfScanline : Obligations.SourceRowOfScanline := by
  unfold Obligations.SourceRowOfScanline
  intro s v hinit hc hactive hv
  have hexec : exec (.srcrow v) s = .next (s.returned (.number (s.rowOf v))) :=
    (whenInited_of hinit).trans (if_pos ⟨hactive, hv⟩)
  exact ⟨s.rowOf v, hexec, rowOf_lt_rows hc hactive hv, rowOf_bounds hactive⟩

/-! ## PROGRAM (R89) -/

theorem programChannel_of_last (c : Channel) (h : s.vScanline.toNat + 1 = s.vTotal) :
    s.programChannel c = ((s.pointChannel c).arm c).wrap := by
  refine vAdvance_of_last ?_
  rw [State.vTotal_congr (s := s) (by simp)]
  simpa using h

theorem programChannel_of_not_last (c : Channel) (h : s.vScanline.toNat + 1 ≠ s.vTotal) :
    s.programChannel c = { (s.pointChannel c).arm c with vScanline := s.vScanline + 1 } := by
  have hv : ((s.pointChannel c).arm c).vScanline = s.vScanline := by simp
  rw [State.programChannel, vAdvance_of_not_last, hv]
  rwa [hv, State.vTotal_congr (s := s) (by simp)]

/-- PROGRAM differs from REFILL in that it acknowledges no completion: it keeps `PENDING` and `CH`. -/
theorem programChannel_eq (c : Channel) : s.programChannel c = { s with
    desc := (s.programChannel c).desc, armed := (s.programChannel c).armed
    vScanline := (s.programChannel c).vScanline, front := (s.programChannel c).front
    flipReq := (s.programChannel c).flipReq, event := (s.programChannel c).event
    marker := (s.programChannel c).marker, lb := (s.programChannel c).lb } := by
  unfold State.programChannel
  rw [State.pointChannel_eq]
  unfold State.vAdvance
  split <;> rfl

theorem fillUnlessMarked_of_marked {k : Nat} (y : Nat) (h : s.marker = some k) : s.fillUnlessMarked k y = s :=
  if_pos h

theorem fillUnlessMarked_of_not_marked {k : Nat} (y : Nat) (h : s.marker ≠ some k) :
    s.fillUnlessMarked k y = { s.fillLine k y with marker := some k } :=
  if_neg h

theorem programChannel_lb_of_inactive (c : Channel) (h : s.classOf s.vScanline.toNat ≠ .active) :
    (s.programChannel c).lb = s.lb := by
  rw [Ne, classOf_eq_active_iff, not_le] at h
  simp [State.programChannel, pointChannel_of_inactive c h]

theorem programChannel_lb_of_active (c : Channel) (h : s.classOf s.vScanline.toNat = .active) :
    (s.programChannel c).lb =
      (s.fillUnlessMarked (s.slotOf c (s.rowOf s.vScanline.toNat)) (s.rowOf s.vScanline.toNat)).lb := by
  simp [State.programChannel, State.pointChannel, h, State.pointActive, State.pointRow]

/-- PROGRAM writes the slot of an active line that the marker does not name, and no other line buffer (R98, R99). -/
theorem programChannel_lb_getElem? (c : Channel) {k : Nat} (h : ¬(s.classOf s.vScanline.toNat = .active ∧
    s.marker ≠ some k ∧ k = s.slotOf c (s.rowOf s.vScanline.toNat))) :
    (s.programChannel c).lb[k]? = s.lb[k]? := by
  by_cases hclass : s.classOf s.vScanline.toNat = .active
  case neg => rw [programChannel_lb_of_inactive c hclass]
  case pos =>
    rw [programChannel_lb_of_active c hclass]
    by_cases hmarker : s.marker = some (s.slotOf c (s.rowOf s.vScanline.toNat))
    case pos => rw [fillUnlessMarked_of_marked _ hmarker]
    case neg =>
      rw [fillUnlessMarked_of_not_marked _ hmarker]
      refine fillLine_lb_of_ne _ ?_
      rintro rfl
      exact h ⟨hclass, hmarker, rfl⟩

/-- Settles O29: the channel, the counter and the line buffers, each by its own lemma about `programChannel`. -/
theorem programSetsUpOneChannel : Obligations.ProgramSetsUpOneChannel := by
  unfold Obligations.ProgramSetsUpOneChannel
  intro s c hinit hfont
  have hexec : exec (.program c) s = .next (s.programChannel c) :=
    (whenInited_of hinit).trans (whenFillable_of hfont)
  refine ⟨s.programChannel c, hexec, ?desc, ?armed, ?others, fun hnotLast => ?counts, fun hlast => ?wraps,
    fun k => programChannel_lb_getElem? c, fun hclass hmarker => ?fills, programChannel_eq c⟩
  case desc => rw [State.programChannel_desc, PerChannel.get_set_same]
  case armed => rw [State.programChannel_armed, PerChannel.get_set_same]
  case others =>
    intro k hk
    rw [State.programChannel_desc, State.programChannel_armed]
    exact ⟨PerChannel.get_set_ne _ _ hk, PerChannel.get_set_ne _ _ hk⟩
  case counts =>
    rw [programChannel_of_not_last c hnotLast]
    refine ⟨rfl, State.pointChannel_front s c, State.pointChannel_flipReq s c, State.pointChannel_event s c,
      fun hclass => ?_, fun hclass => ?_⟩
    · exact (State.pointChannel_marker c).trans (if_neg ((classOf_eq_active_iff _).not.1 hclass))
    · exact (State.pointChannel_marker c).trans (if_pos ((classOf_eq_active_iff _).1 hclass))
  case wraps =>
    rw [programChannel_of_last c hlast]
    simp
  case fills =>
    rw [programChannel_lb_of_active c hclass, fillUnlessMarked_of_not_marked _ hmarker]

/-! ## The steps that can exchange the buffer roles (R83 (c)) -/

/-- `FRONT` is kept, or the block is not initialised, or an INIT has counted. -/
abbrev State.keepsFront (s t : State) : Prop :=
  t.front = s.front ∨ t.inited = false ∨ t.epoch = s.epoch + 1

/-- The one host operation besides INIT and RESET that would write `FRONT` is FLIP_NOW, which the policy `refuse`
refuses (R124). -/
theorem exec_host_keepsFront {i : Instr} (hf : i.format = .h) (hpolicy : s.plat.flipNow = .refuse)
    (h : exec i s = .next t) : s.keepsFront t := by
  cases i with
  | init width height mode =>
    rcases execInit_next h with rfl | ⟨sel, -, -, -, rfl⟩
    · exact .inr (.inl (by simp))
    · exact .inr (.inr (by simp))
  | reset =>
    cases next_eq_iff.1 h
    exact .inr (.inl afterReset_inited)
  | flipNow =>
    obtain ⟨-, h⟩ := whenInited_next.1 h
    rw [hpolicy] at h
    cases h
  | palSet | palGet => cases h; exact .inl rfl
  | flipAsync | flipBlocking => obtain ⟨-, ⟨⟩⟩ := whenInited_next.1 h; exact .inl rfl
  | waitVsync => obtain ⟨-, ⟨⟩⟩ := whenInited_next.1 h; rw [checkVsync_eq_goOn]; exact .inl (by simp)
  | waitFlip => obtain ⟨-, ⟨⟩⟩ := whenInited_next.1 h; rw [checkFlip_eq_goOn]; exact .inl (by simp)
  | clear => obtain ⟨-, ⟨⟩⟩ := whenInited_next.1 h; exact .inl (by simp)
  | writePixel | writeSpanFill | writeSpanCopy | readSpan =>
    obtain ⟨-, -, -, -, ⟨⟩⟩ := graphicAccess_next.1 h
    exact .inl (by simp)
  | writeText => obtain ⟨-, -, -, ⟨⟩⟩ := textAccess_next.1 h; exact .inl (by simp)
  | _ => cases hf

theorem appTurn_keepsFront (hpolicy : s.plat.flipNow = .refuse) (h : appTurn s = .next t) : s.keepsFront t := by
  rcases appTurn_next h with ⟨op, -, rfl⟩ | ⟨-, -, rfl⟩ | ⟨i, rest, -, hd, hexec⟩
  · exact .inl (State.opStep_front s op)
  · exact .inl rfl
  · exact exec_host_keepsFront (s := { s with port := rest }) (decodeH_format hd) hpolicy hexec

theorem dmaTurn_front (h : dmaTurn s = .next t) : t.front = s.front := by
  rcases dmaTurn_next h with ⟨-, rfl⟩ | ⟨-, hexec⟩
  · rfl
  · obtain ⟨-, -, rfl⟩ := execXfer_next.1 hexec
    exact State.transfer_front s s.activeCh

theorem serialTurn_front (h : serialTurn s = .next t) : t.front = s.front := by
  rw [serialTurn_next h]

/-- PROGRAM exchanges the buffer roles only at the wrap, for a pending flip, and with the end-of-frame bookkeeping
of R82. -/
theorem programChannel_front_ne {c : Channel} (h : (s.programChannel c).front ≠ s.front) :
    s.flipReq = true ∧ s.vScanline.toNat + 1 = s.vTotal ∧
      (s.programChannel c).vScanline = 0 ∧ (s.programChannel c).flipReq = false ∧
      (s.programChannel c).marker = none ∧ (s.programChannel c).event = true := by
  by_cases hlast : s.vScanline.toNat + 1 = s.vTotal
  case neg =>
    rw [programChannel_of_not_last c hlast] at h
    exact absurd (by simp) h
  case pos =>
    rw [programChannel_of_last c hlast] at h ⊢
    have hflip : s.flipReq = true := by
      by_contra hno
      exact h (by simp [hno])
    exact ⟨hflip, hlast, rfl, rfl, rfl, rfl⟩

/-- Settles O14: no agent but the handler exchanges the roles, and the handler does it through PROGRAM. -/
theorem frontChangesOnlyAtWrap : Obligations.FrontChangesOnlyAtWrap := by
  unfold Obligations.FrontChangesOnlyAtWrap
  intro s t hi hpolicy _ hinit hepoch h hne
  rcases step_next hi h with ⟨-, hturn⟩ | ⟨hhandler, hturn⟩ | ⟨-, hturn⟩ | ⟨-, hturn⟩
  · rcases appTurn_keepsFront (s := s.took) hpolicy hturn with hkept | hreset | hcounted
    · exact absurd hkept hne
    · exact absurd (hinit.symm.trans hreset) (by decide)
    · exact absurd (hepoch.symm.trans hcounted) (by simp)
  · rcases handlerTurn_next hturn with rfl | ⟨-, hexec⟩
    · exact absurd rfl hne
    · obtain ⟨-, -, rfl⟩ := execRefill_next.1 hexec
      exact ⟨hhandler, programChannel_front_ne (s := handlerEntry s.took) hne⟩
  · exact absurd (dmaTurn_front hturn) hne
  · exact absurd (serialTurn_front hturn) hne

end Sys2Proof.Machine
end

section
/-!
The DMA ring: what PRIME, the line classes, XFER and REFILL answer run by name, and O30, O31, O32, O34, O35.
-/

namespace Sys2Proof.Machine

variable {s : State}

/-! ## The descriptor of a scanline (R89) -/

theorem descFor_of_active (c : Channel) {v : Nat} (h : s.vInactive ≤ v) :
    s.descFor c v = ⟨.lb (s.slotOf c (s.rowOf v)), s.lbLen⟩ := by
  rw [State.descFor, (classOf_eq_active_iff v).2 h]

/-- An inactive scanline is one of the two command lists, which have six words (R86). -/
theorem descFor_count_of_inactive (c : Channel) {v : Nat} (h : v < s.vInactive) :
    (s.descFor c v).count = vlistLen := by
  unfold State.descFor
  cases hclass : s.classOf v with
  | sync => rfl
  | blank => rfl
  | active => exact absurd ((classOf_eq_active_iff v).1 hclass) (not_le.2 h)

/-! ## PRIME (R90) -/

/-- The font of a configuration that INIT accepts is one the fills can use (R118, I14). -/
theorem fontReady_of_configOk (hc : s.configOk) (hm : Mode.isText s.mode = true) :
    Platform.fontReady s.plat = true := by
  obtain ⟨-, -, -, -, -, -, htext⟩ := hc
  obtain ⟨hfont, -⟩ := htext hm
  exact hfont

theorem exec_prime (hinit : s.inited = true) (hc : s.configOk) : exec .prime s = .next s.withPrimedRing := by
  have ⟨hvalid, _⟩ := hc
  rw [← primed_eq hvalid]
  exact (whenInited_of hinit).trans (whenFillable_of (fontReady_of_configOk hc))

theorem withPrimedRing_desc_get (k : Channel) : s.withPrimedRing.desc.get k = s.descFor k k.val := by
  rcases Channel.cases3 k with rfl | rfl | rfl <;> rfl

/-- Settles O30: the scanlines 0 to 2 are inactive, so PRIME fills no line buffer and every count is six. -/
theorem primeStartsTheRing : Obligations.PrimeStartsTheRing := by
  unfold Obligations.PrimeStartsTheRing
  intro s hinit hc
  refine ⟨s.withPrimedRing, exec_prime hinit hc, rfl, fun k => ⟨withPrimedRing_desc_get k, ?count⟩⟩
  obtain ⟨hvalid, -⟩ := hc
  obtain ⟨-, hinactive, -⟩ := validTiming_vertical hvalid
  rw [withPrimedRing_desc_get]
  exact descFor_count_of_inactive k (Nat.lt_of_lt_of_le k.isLt hinactive)

/-! ## The line classes (R89) -/

theorem pointChannel_of_active (c : Channel) (h : s.vInactive ≤ s.vScanline.toNat) :
    s.pointChannel c = s.pointActive c := by
  rw [State.pointChannel, (classOf_eq_active_iff _).2 h]

/-- What the ACTIVE arm of PROGRAM writes. -/
theorem pointActive_eq (c : Channel) (h : s.vInactive ≤ s.vScanline.toNat) : s.pointActive c = { s with
    desc := s.desc.set c ⟨.lb (s.slotOf c (s.rowOf s.vScanline.toNat)), s.lbLen⟩
    marker := some (s.slotOf c (s.rowOf s.vScanline.toNat))
    lb := (s.pointActive c).lb } := by
  have hpoint := s.pointChannel_eq c
  rwa [State.pointChannel_desc, State.pointChannel_marker, if_pos h, descFor_of_active c h,
    pointChannel_of_active c h] at hpoint

/-- The line buffers after the ACTIVE arm are those of the reuse test (R99). -/
theorem State.pointActive_lb (c : Channel) : (s.pointActive c).lb =
    (s.fillUnlessMarked (s.slotOf c (s.rowOf s.vScanline.toNat)) (s.rowOf s.vScanline.toNat)).lb := rfl

theorem exec_lineActive (c : Channel) (hinit : s.inited = true)
    (hfont : Mode.isText s.mode = true → Platform.fontReady s.plat = true)
    (hactive : s.vInactive ≤ s.vScanline.toNat) (hlt : s.vScanline.toNat < s.vTotal) :
    exec (.lineActive c) s = .next (s.pointActive c) :=
  (whenInited_of hinit).trans ((whenFillable_of hfont).trans (if_pos ⟨hactive, hlt⟩))

/-- Settles O31: the inactive classes write the descriptor only; the active one fills unless the marker names the
slot. -/
theorem lineClassesPointAChannel : Obligations.LineClassesPointAChannel := by
  unfold Obligations.LineClassesPointAChannel
  intro s c hinit
  refine ⟨whenInited_of hinit, whenInited_of hinit, fun hfont hactive hlt => ?_⟩
  refine ⟨s.pointActive c, exec_lineActive c hinit hfont hactive hlt, pointActive_eq c hactive,
    fun hmarked => ?reused, fun hnotMarked => ?filled⟩
  case reused => rw [State.pointActive_lb, fillUnlessMarked_of_marked _ hmarked]
  case filled => rw [State.pointActive_lb, fillUnlessMarked_of_not_marked _ hnotMarked]

/-! ## XFER (R91, R141) -/

/-- What the transfer of channel `k` writes: the outputs, the two flags of `k`, and the chain trigger. -/
theorem transfer_eq (k : Channel) : s.transfer k = { s with
    out := s.out ++ [s.lineWordsOf (s.desc.get k)]
    serIn := s.serIn ++ [s.lineWordsOf (s.desc.get k)]
    armed := s.armed.set k false
    pending := s.pending.set k true
    activeCh := k + 1 } := by
  rw [← chain_eq]
  rfl

/-- Settles O32: XFER of an armed channel is its transfer. -/
theorem xferSendsOneScanline : Obligations.XferSendsOneScanline := by
  unfold Obligations.XferSendsOneScanline
  intro s hinit harmed
  exact execXfer_next.2 ⟨hinit, harmed, (transfer_eq s.activeCh).symm⟩

/-- Settles O34: the test of XFER on `ARMED` fails, and what it raises then stops the run. -/
theorem xferUnarmedMissesDeadline : Obligations.XferUnarmedMissesDeadline := by
  unfold Obligations.XferUnarmedMissesDeadline
  intro s hinit hunarmed
  exact (whenInited_of hinit).trans (if_neg (Bool.eq_false_iff.1 hunarmed))

/-! ## REFILL (R92) -/

theorem handlerEntry_eq : handlerEntry s = { s with pending := s.pending.set s.ch false, ch := s.ch + 1 } := by
  rw [← chain_eq]
  rfl

theorem exec_program (c : Channel) (hinit : s.inited = true)
    (hfont : Mode.isText s.mode = true → Platform.fontReady s.plat = true) :
    exec (.program c) s = .next (s.programChannel c) :=
  (whenInited_of hinit).trans (whenFillable_of hfont)

/-- Settles O35: REFILL is PROGRAM on the freed channel, run in the state that the entry leaves. -/
theorem refillServesOneCompletion : Obligations.RefillServesOneCompletion := by
  unfold Obligations.RefillServesOneCompletion
  intro s hinit hirq hpending hfont
  have hrefill : exec .refill s = .next s.refilled :=
    execRefill_next.2 ⟨refillEnabled_iff.2 ⟨hinit, hirq, hpending⟩, hfont, rfl⟩
  have hprogram : exec (.program s.ch) (handlerEntry s) = .next s.refilled := exec_program s.ch hinit hfont
  have harmed : s.refilled.armed = s.armed.set s.ch true := State.programChannel_armed (s := handlerEntry s) s.ch
  have hdesc : s.refilled.desc = s.desc.set s.ch (s.descFor s.ch s.vScanline.toNat) :=
    State.programChannel_desc (s := handlerEntry s) s.ch
  rw [handlerEntry_eq] at hprogram
  refine ⟨s.refilled, hrefill, hprogram, ?acknowledged, ?advanced, ?armed, ?pointed⟩
  case acknowledged => rw [State.refilled_pending, PerChannel.get_set_same]
  case advanced => rw [State.refilled_ch, chain_eq]
  case armed => rw [harmed, PerChannel.get_set_same]
  case pointed => rw [hdesc, PerChannel.get_set_same]

end Sys2Proof.Machine
end

section
/-!
The pixel regions of the line buffers: which bytes a write and a loop of writes store, in units of one, two and four
bytes.
-/

namespace Sys2Proof.Machine

variable {f f' : List Byte → List Byte} {p : List Byte} {lo mid hi : Nat} {byteAt : Nat → Byte}

/-! ## Which bytes of a pixel region a write stores -/

/-- `f` stores the bytes `lo .. hi - 1` of every pixel region that reaches so far, byte `a` as `byteAt a`, and keeps
the others. -/
def WritesBytes (lo hi : Nat) (byteAt : Nat → Byte) (f : List Byte → List Byte) : Prop :=
  ∀ p : List Byte, hi ≤ p.length → (f p).length = p.length ∧
    ∀ a, (f p).getD a 0 = if lo ≤ a ∧ a < hi then byteAt a else p.getD a 0

theorem writesBytes_setPix8 {off : Nat} {v : Byte} (hv : byteAt off = v) :
    WritesBytes off (off + 1) byteAt (setPix8 · off v) := by
  refine fun p hp => ⟨length_setPix8 p off v, fun a => ?_⟩
  rw [getD_setPix8]
  by_cases ha : a = off
  · subst ha
    rw [if_pos ⟨rfl, hp⟩, if_pos ⟨le_rfl, Nat.lt_succ_self a⟩, hv]
  · rw [if_neg (by omega), if_neg (by omega)]

/-- Writes of two neighbouring ranges are a write of the range they make. -/
theorem WritesBytes.comp (hf : WritesBytes lo mid byteAt f) (hf' : WritesBytes mid hi byteAt f') (hlo : lo ≤ mid)
    (hhi : mid ≤ hi) : WritesBytes lo hi byteAt fun p => f' (f p) := by
  intro p hp
  obtain ⟨hlength, hbyte⟩ := hf p (hhi.trans hp)
  obtain ⟨hlength', hbyte'⟩ := hf' (f p) (hp.trans_eq hlength.symm)
  refine ⟨hlength'.trans hlength, fun a => ?_⟩
  rw [hbyte', hbyte]
  by_cases ha : mid ≤ a ∧ a < hi
  · rw [if_pos ha, if_pos ⟨hlo.trans ha.1, ha.2⟩]
  · rw [if_neg ha]
    exact if_congr (by omega) rfl rfl

/-- A loop whose round `i` writes block `i` writes all its blocks. -/
theorem WritesBytes.foldl_range {g : List Byte → Nat → List Byte} {size n : Nat}
    (h : ∀ i < n, WritesBytes (lo + size * i) (lo + size * (i + 1)) byteAt (g · i)) :
    WritesBytes lo (lo + size * n) byteAt fun p => (List.range n).foldl g p := by
  induction n with
  | zero => exact fun p _ => ⟨rfl, fun a => (if_neg (by omega)).symm⟩
  | succ n ih =>
    simp only [List.range_succ, List.foldl_append, List.foldl_cons, List.foldl_nil]
    exact (ih fun i hi => h i (Nat.lt_succ_of_lt hi)).comp (h n (Nat.lt_succ_self n)) (Nat.le_add_right _ _)
      (by rw [Nat.mul_succ]; omega)

/-- The same for blocks that start at byte 0. -/
theorem WritesBytes.foldl_blocks {g : List Byte → Nat → List Byte} {size n : Nat}
    (h : ∀ i < n, WritesBytes (size * i) (size * (i + 1)) byteAt (g · i)) :
    WritesBytes 0 (size * n) byteAt fun p => (List.range n).foldl g p := by
  have hloop := WritesBytes.foldl_range (lo := 0) (g := g) fun i hi => by simpa only [Nat.zero_add] using h i hi
  rwa [Nat.zero_add] at hloop

/-- Two nested loops that write unit `x * rep + i` with the value of `x`: every value `rep` times (R100, R101). -/
theorem WritesBytes.foldl_repeat {α : Type} {put : List Byte → Nat → α → List Byte} {v : Nat → α}
    {size rep : Nat} (h : ∀ n, WritesBytes (size * n) (size * (n + 1)) byteAt (put · n (v (n / rep)))) (width : Nat) :
    WritesBytes 0 (size * (width * rep)) byteAt fun p =>
      (List.range width).foldl (fun q x => (List.range rep).foldl (fun q i => put q (x * rep + i) (v x)) q) p := by
  have hcopies : ∀ x, WritesBytes (size * (x * rep)) (size * (x * rep) + size * rep) byteAt fun q =>
      (List.range rep).foldl (fun q i => put q (x * rep + i) (v x)) q := by
    intro x
    refine WritesBytes.foldl_range fun i hi => ?_
    have hunit := h (x * rep + i)
    have hdiv : (x * rep + i) / rep = x := Nat.div_eq_of_lt_le (by omega) (by rw [Nat.succ_mul]; omega)
    rwa [hdiv, Nat.add_assoc, Nat.mul_add, Nat.mul_add] at hunit
  rw [Nat.mul_comm width, ← Nat.mul_assoc]
  refine WritesBytes.foldl_blocks fun x _ => ?_
  convert hcopies x using 1 <;> ring

theorem WritesBytes.getD_inside (h : WritesBytes lo hi byteAt f) (hp : hi ≤ p.length) {a : Nat} (hlo : lo ≤ a)
    (hhi : a < hi) : (f p).getD a 0 = byteAt a := by
  rw [(h p hp).2, if_pos ⟨hlo, hhi⟩]

theorem WritesBytes.getD_above (h : WritesBytes lo hi byteAt f) (hp : hi ≤ p.length) {a : Nat} (ha : hi ≤ a) :
    (f p).getD a 0 = p.getD a 0 := by
  rw [(h p hp).2, if_neg (by omega)]

/-! ## Units of two and of four bytes -/

/-- The bytes of consecutive 16-bit units, low byte first (R57). -/
def halfBytes (unit : Nat → Half) (a : Nat) : Byte := halfByte (unit (a / 2)) (a % 2)

/-- The bytes of consecutive 32-bit units, low byte first (R56). -/
def wordBytes (unit : Nat → Word) (a : Nat) : Byte := wordByte (unit (a / 4)) (a % 4)

theorem halfBytes_unit (unit : Nat → Half) (n : Nat) {j : Nat} (hj : j < 2) :
    halfBytes unit (2 * n + j) = halfByte (unit n) j := by
  rw [halfBytes, Nat.mul_add_div (by decide), Nat.div_eq_of_lt hj, Nat.mul_add_mod, Nat.mod_eq_of_lt hj, Nat.add_zero]

theorem wordBytes_unit (unit : Nat → Word) (n : Nat) {j : Nat} (hj : j < 4) :
    wordBytes unit (4 * n + j) = wordByte (unit n) j := by
  rw [wordBytes, Nat.mul_add_div (by decide), Nat.div_eq_of_lt hj, Nat.mul_add_mod, Nat.mod_eq_of_lt hj, Nat.add_zero]

theorem writesBytes_setPix16 (unit : Nat → Half) (n : Nat) :
    WritesBytes (2 * n) (2 * (n + 1)) (halfBytes unit) (setPix16 · (n * 2) (unit n)) := by
  rw [Nat.mul_comm n 2]
  exact (writesBytes_setPix8 (halfBytes_unit unit n (j := 0) (by decide))).comp
    (writesBytes_setPix8 (halfBytes_unit unit n (j := 1) (by decide))) (by omega) (by omega)

theorem writesBytes_setPix32 (unit : Nat → Word) (n : Nat) :
    WritesBytes (4 * n) (4 * (n + 1)) (wordBytes unit) (setPix32 · n (unit n)) := by
  have hbyte : ∀ j, j < 4 → WritesBytes (4 * n + j) (4 * n + (j + 1)) (wordBytes unit)
      (setPix8 · (4 * n + j) (wordByte (unit n) j)) :=
    fun j hj => writesBytes_setPix8 (wordBytes_unit unit n hj)
  exact (((hbyte 0 (by decide)).comp (hbyte 1 (by decide)) (by omega) (by omega)).comp
    (hbyte 2 (by decide)) (by omega) (by omega)).comp (hbyte 3 (by decide)) (by omega) (by omega)

theorem WritesBytes.halfOf_getD {unit : Nat → Half} (h : WritesBytes 0 hi (halfBytes unit) f) (hp : hi ≤ p.length)
    {n : Nat} (hn : 2 * n + 2 ≤ hi) : halfOf ((f p).getD (2 * n) 0) ((f p).getD (2 * n + 1) 0) = unit n := by
  have hbyte : ∀ j, j < 2 → (f p).getD (2 * n + j) 0 = halfByte (unit n) j := fun j hj => by
    rw [h.getD_inside hp (Nat.zero_le _) (by omega), halfBytes_unit unit n hj]
  rw [← halfOf_halfByte (unit n), hbyte 1 (by decide)]
  exact congrArg (halfOf · _) (hbyte 0 (by decide))

theorem WritesBytes.pixWords_getElem? {unit : Nat → Word} (h : WritesBytes 0 hi (wordBytes unit) f)
    (hp : hi ≤ p.length) {n : Nat} (hn : 4 * n + 4 ≤ hi) : (pixWords (f p))[n]? = some (unit n) := by
  have hbyte : ∀ j, j < 4 → (f p).getD (4 * n + j) 0 = wordByte (unit n) j := fun j hj => by
    rw [h.getD_inside hp (Nat.zero_le _) (by omega), wordBytes_unit unit n hj]
  have hlength : (f p).length = p.length := (h p hp).1
  rw [getElem?_pixWords _ _ (by omega), ← wordOf_wordByte (unit n), hbyte 1 (by decide), hbyte 2 (by decide),
    hbyte 3 (by decide)]
  exact congrArg (fun b => some (wordOf b _ _ _)) (hbyte 0 (by decide))

end Sys2Proof.Machine
end

section
/-!
The pixel pipeline: the bytes each of the four fills writes, what the fills, SLOT and ATTR_DECODE answer run by name,
and O36 to O41.
-/

namespace Sys2Proof.Machine

variable {s : State} {k y : Nat} {b : LineBuffer}

/-! ## The bytes of a line (R19) -/

theorem lineBytes_of_rgb565 (hm : s.mode = .rgb565) : s.lineBytes = 2 * (s.frameW.toNat * s.hRep) := by
  simp [State.lineBytes, hm, Mode.isText, Mode.lineBpu, Nat.mul_comm]

theorem lineBytes_of_palette8 (hm : s.mode = .palette8) : s.lineBytes = 4 * (s.frameW.toNat * s.hRep) := by
  simp [State.lineBytes, hm, Mode.isText, Mode.lineBpu, Nat.mul_comm]

theorem lineBytes_of_textMono (hm : s.mode = .textMono) : s.lineBytes = 4 * s.frameW.toNat := by
  simp [State.lineBytes, hm, Mode.isText, Mode.lineBpu, Nat.mul_comm]

theorem lineBytes_of_textAttributed (hm : s.mode = .textAttributed) : s.lineBytes = 14 * s.frameW.toNat := by
  simp [State.lineBytes, hm, Mode.isText, Mode.lineBpu, Nat.mul_comm]

/-- The pixel region of a line buffer has room for the line: at most 3 pad bytes are left. -/
theorem lineBytes_le_length (hlength : b.pix.length = 4 * s.lineWords) : s.lineBytes ≤ b.pix.length := by
  rw [hlength, State.lineWords]
  omega

/-! ## Cells in TextAttributed (R103, R104) -/

@[simp] theorem length_attrDecode (cw : Word) (a : Byte) : (attrDecode cw a).length = 13 := by
  simp [attrDecode]

theorem attrDecode_getD (cw : Word) (a : Byte) {k : Nat} (hk : k < 13) :
    (attrDecode cw a).getD k 0 = attrByte cw a k := by
  simp [attrDecode, hk]

/-- The bytes of consecutive cells: 13 pixels each, and after them the filler byte 0. -/
def cellBytes (cell : Nat → List Byte) (a : Nat) : Byte := (cell (a / 14)).getD (a % 14) 0

theorem cellBytes_cell (cell : Nat → List Byte) (j : Nat) {c : Nat} (hc : c < 14) :
    cellBytes cell (14 * j + c) = (cell j).getD c 0 := by
  rw [cellBytes, Nat.mul_add_div (by decide), Nat.div_eq_of_lt hc, Nat.mul_add_mod, Nat.mod_eq_of_lt hc, Nat.add_zero]

theorem cellBytes_filler {cell : Nat → List Byte} {j : Nat} (h : (cell j).length = 13) :
    cellBytes cell (14 * j + 13) = 0 := by
  rw [cellBytes_cell cell j (by decide), List.getD_eq_default _ _ h.le]

theorem writesBytes_putCell {cell : Nat → List Byte} {j : Nat} (h : (cell j).length = 13) :
    WritesBytes (14 * j) (14 * (j + 1)) (cellBytes cell) (putCell (cell j) j) := by
  have hpixels : WritesBytes (14 * j) (14 * j + 1 * 13) (cellBytes cell) fun q =>
      (List.range 13).foldl (fun q k => setPix8 q (14 * j + k) ((cell j).getD k 0)) q :=
    WritesBytes.foldl_range fun k hk => by
      rw [Nat.one_mul, Nat.one_mul]
      exact writesBytes_setPix8 (cellBytes_cell cell j (by omega))
  exact hpixels.comp (writesBytes_setPix8 (cellBytes_filler h)) (by omega) (by omega)

/-! ## The bytes the four fills write: those of the line, and not the pad bytes (R105) -/

theorem pixRgb565_writesBytes (hm : s.mode = .rgb565) (y : Nat) : WritesBytes 0 s.lineBytes
    (halfBytes fun n => s.srcRgb s.front y (n / s.hRep)) (s.pixRgb565 y) := by
  rw [lineBytes_of_rgb565 hm]
  exact WritesBytes.foldl_repeat (v := s.srcRgb s.front y) (put := fun q n v => setPix16 q (n * 2) v)
    (writesBytes_setPix16 _) s.frameW.toNat

theorem pixPal8_writesBytes (hm : s.mode = .palette8) (y : Nat) : WritesBytes 0 s.lineBytes
    (wordBytes fun n => s.readPal (s.srcByte s.front y (n / s.hRep))) (s.pixPal8 y) := by
  rw [lineBytes_of_palette8 hm]
  exact WritesBytes.foldl_repeat (v := fun x => s.readPal (s.srcByte s.front y x)) (put := setPix32)
    (writesBytes_setPix32 _) s.frameW.toNat

theorem pixTextmono_writesBytes (hm : s.mode = .textMono) (y : Nat) :
    WritesBytes 0 s.lineBytes (wordBytes (s.monoWord y)) (s.pixTextmono y) := by
  rw [lineBytes_of_textMono hm]
  exact WritesBytes.foldl_blocks (g := fun q j => setPix32 q j (s.monoWord y j)) fun j _ =>
    writesBytes_setPix32 (s.monoWord y) j

theorem pixTextattr_writesBytes (hm : s.mode = .textAttributed) (y : Nat) :
    WritesBytes 0 s.lineBytes (cellBytes (s.attrCell y)) (s.pixTextattr y) := by
  rw [lineBytes_of_textAttributed hm]
  exact WritesBytes.foldl_blocks (g := fun q j => putCell (s.attrCell y j) j q) fun j _ =>
    writesBytes_putCell (length_attrDecode _ _)

/-! ## The line buffer a fill names -/

theorem modifyPix_lb_of_eq (f : List Byte → List Byte) (hb : s.lb[k]? = some b) :
    (s.modifyPix k f).lb[k]? = some { b with pix := f b.pix } := by
  rw [State.modifyPix_lb, List.getElem?_modify_eq, hb]
  rfl

theorem modifyPix_lb_of_ne {j : Nat} (f : List Byte → List Byte) (h : j ≠ k) :
    (s.modifyPix k f).lb[j]? = s.lb[j]? := by
  rw [State.modifyPix_lb, List.getElem?_modify_ne _ _ h.symm]

/-! ## FILL, SLOT and ATTR_DECODE run by name (R97, R98, R103) -/

/-- Settles O36: in each mode FILL makes the tests of that mode's fill, and they are those of the operand domain. -/
theorem fillAndSlotByName : Obligations.FillAndSlotByName := by
  unfold Obligations.FillAndSlotByName
  refine ⟨fun s k y => ?selected, fun s k y hinit hk hy hfont => ?completes, fun s c y hinit => ?slot⟩
  case selected =>
    change execFill k y s = _
    unfold execFill State.fillLine
    cases s.mode <;> rfl
  case completes => exact fillAccess_next.2 ⟨hinit, rfl, hfont, fillDomain_iff.2 ⟨hk, hy⟩, rfl⟩
  case slot => exact whenInited_of hinit

theorem toNat_coverageField (cw : Word) (k : Nat) :
    (coverageField cw k).toNat = cw.toNat / 2 ^ (24 - 2 * k) % 4 := by
  simp [coverageField, Nat.shiftRight_eq_div_pow]

theorem toNat_attrByte (cw : Word) (a : Byte) (k : Nat) :
    (attrByte cw a k).toNat = (cw.toNat / 2 ^ (24 - 2 * k) % 4) * a.toNat % 256 := by
  rw [attrByte, BitVec.toNat_ofNat, toNat_coverageField]

/-- Settles O37: ATTR_DECODE is a function of its operands, one byte for each column. -/
theorem attrDecodeMultipliesLevels : Obligations.AttrDecodeMultipliesLevels := by
  unfold Obligations.AttrDecodeMultipliesLevels
  intro s cw a
  refine ⟨attrDecode cw a, rfl, length_attrDecode cw a, fun k hk => ?_⟩
  rw [attrDecode_getD cw a hk, toNat_attrByte]

/-! ## The four fills run by name (R100 to R104) -/

theorem fillDomain_of_graphic (hm : Mode.isText s.mode = false) (hk : k < s.pool) (hy : y < s.frameH.toNat) :
    s.fillDomain k y = true :=
  fillDomain_iff.2 ⟨hk, by simpa [State.rows, hm] using hy⟩

theorem fillDomain_of_text (hm : Mode.isText s.mode = true) (hk : k < s.pool)
    (hy : y < s.frameH.toNat * s.font.glyphH) : s.fillDomain k y = true :=
  fillDomain_iff.2 ⟨hk, by simpa [State.rows, hm] using hy⟩

/-- Settles O38: output pixel `n` is a 16-bit unit of the bytes written, and the pad bytes lie above them. -/
theorem fillRgb565RepeatsPixels : Obligations.FillRgb565RepeatsPixels := by
  unfold Obligations.FillRgb565RepeatsPixels
  intro s k y b hinit hmode hk hy hb hlength
  have hdomain : s.fillDomain k y = true := fillDomain_of_graphic (by rw [hmode]; rfl) hk hy
  have hexec : exec (.fillRgb565 k y) s = .next (s.modifyPix k (s.pixRgb565 y)) :=
    fillAccess_next.2 ⟨hinit, hmode, nofun, hdomain, rfl⟩
  have hline := lineBytes_of_rgb565 hmode
  have hroom := lineBytes_le_length hlength
  have hwrites := pixRgb565_writesBytes hmode y
  refine ⟨_, _, hexec, rfl, modifyPix_lb_of_eq _ hb, rfl, length_pixRgb565 .., fun j => modifyPix_lb_of_ne _,
    fun n hn => ?pixels, fun off hoff => ?pad⟩
  case pixels => exact hwrites.halfOf_getD hroom (by omega)
  case pad => exact hwrites.getD_above hroom hoff

/-- Settles O39: pixel word `n` is a 32-bit unit of the bytes written. -/
theorem fillPal8RepeatsColours : Obligations.FillPal8RepeatsColours := by
  unfold Obligations.FillPal8RepeatsColours
  intro s k y b hinit hmode hk hy hb hlength
  have hdomain : s.fillDomain k y = true := fillDomain_of_graphic (by rw [hmode]; rfl) hk hy
  have hexec : exec (.fillPal8 k y) s = .next (s.modifyPix k (s.pixPal8 y)) :=
    fillAccess_next.2 ⟨hinit, hmode, nofun, hdomain, rfl⟩
  have hline := lineBytes_of_palette8 hmode
  have hroom := lineBytes_le_length hlength
  refine ⟨_, _, hexec, rfl, modifyPix_lb_of_eq _ hb, rfl, length_pixPal8 .., fun j => modifyPix_lb_of_ne _,
    fun n hn => ?words⟩
  case words => exact (pixPal8_writesBytes hmode y).pixWords_getElem? hroom (by omega)

/-- Settles O40: pixel word `j` is a 32-bit unit of the bytes written. -/
theorem fillTextmonoWritesCoverage : Obligations.FillTextmonoWritesCoverage := by
  unfold Obligations.FillTextmonoWritesCoverage
  intro s k y b hinit hmode hfont hk hy hb hlength
  have hdomain : s.fillDomain k y = true := fillDomain_of_text (by rw [hmode]; rfl) hk hy
  have hexec : exec (.fillTextmono k y) s = .next (s.modifyPix k (s.pixTextmono y)) :=
    fillAccess_next.2 ⟨hinit, hmode, fun _ => hfont, hdomain, rfl⟩
  have hline := lineBytes_of_textMono hmode
  have hroom := lineBytes_le_length hlength
  refine ⟨_, _, hexec, rfl, modifyPix_lb_of_eq _ hb, rfl, length_pixTextmono .., fun j => modifyPix_lb_of_ne _,
    fun j hj => ?words⟩
  case words => exact (pixTextmono_writesBytes hmode y).pixWords_getElem? hroom (by omega)

/-- Settles O41: the bytes of cell `j` are 14 of the bytes written, and the pad bytes lie above them. -/
theorem fillTextattrWritesCells : Obligations.FillTextattrWritesCells := by
  unfold Obligations.FillTextattrWritesCells
  intro s k y b hinit hmode hfont hk hy hb hlength
  have hdomain : s.fillDomain k y = true := fillDomain_of_text (by rw [hmode]; rfl) hk hy
  have hexec : exec (.fillTextattr k y) s = .next (s.modifyPix k (s.pixTextattr y)) :=
    fillAccess_next.2 ⟨hinit, hmode, fun _ => hfont, hdomain, rfl⟩
  have hline := lineBytes_of_textAttributed hmode
  have hroom := lineBytes_le_length hlength
  have hwrites := pixTextattr_writesBytes hmode y
  have hcell : ∀ j c, j < s.frameW.toNat → c < 14 →
      (s.pixTextattr y b.pix).getD (14 * j + c) 0 = cellBytes (s.attrCell y) (14 * j + c) :=
    fun j c hj hc => hwrites.getD_inside hroom (Nat.zero_le _) (by omega)
  refine ⟨_, _, hexec, rfl, modifyPix_lb_of_eq _ hb, rfl, length_pixTextattr .., fun j => modifyPix_lb_of_ne _,
    fun j c hj hc => ?pixels, fun j hj => ?filler, fun off hoff => ?pad⟩
  case pixels =>
    refine (hcell j c hj (by omega)).trans ?_
    rw [cellBytes_cell _ j (by omega)]
    exact attrDecode_getD _ _ hc
  case filler => exact (hcell j 13 hj (by decide)).trans (cellBytes_filler (length_attrDecode _ _))
  case pad => exact hwrites.getD_above hroom hoff

end Sys2Proof.Machine
end

section
/-!
The handler and the pixel pipeline: at which scanlines REFILL fills a line buffer, what it reads of the frame buffers,
and O12 and O13.
-/

namespace Sys2Proof.Machine

variable {s t : State}

/-! ## The first line of a source row (R98, R99) -/

/-- The scanline before an active line has the row of that line, unless the line is the first of its `V_REP` lines. -/
theorem rowOf_pred_eq_iff {v : Nat} (h : s.vInactive < v) :
    s.rowOf (v - 1) = s.rowOf v ↔ (v - s.vInactive) % s.vRep ≠ 0 := by
  obtain ⟨n, rfl⟩ : ∃ n, v = s.vInactive + n + 1 := ⟨v - s.vInactive - 1, by omega⟩
  have hpred : s.vInactive + n + 1 - 1 - s.vInactive = n := by omega
  have hline : s.vInactive + n + 1 - s.vInactive = n + 1 := by omega
  rw [rowOf_eq_div, rowOf_eq_div, hpred, hline, Nat.succ_div, ne_eq, ← Nat.dvd_iff_mod_eq_zero]
  by_cases hfirst : s.vRep ∣ n + 1 <;> simp [hfirst]

/-- The reuse test of an active line finds the marker at the line's slot just for the lines of a row after its first
one, which vertical repeat makes: without it the line before has the slot of another channel, and with it the slot of
this row or of the one before. -/
theorem marker_eq_slotOf_iff (hm : s.markerOk) (hactive : s.vInactive ≤ s.vScanline.toNat) :
    s.marker = some (s.slotOf s.ch (s.rowOf s.vScanline.toNat)) ↔
      s.vShift ≠ 0 ∧ (s.vScanline.toNat - s.vInactive) % s.vRep ≠ 0 := by
  rw [State.markerOk] at hm
  rcases hactive.eq_or_lt with hfirst | hlater
  case inl => simp [hm, ← hfirst]
  case inr =>
    rw [hm, if_neg (not_le.2 hlater), Option.some.injEq, ← rowOf_pred_eq_iff hlater]
    by_cases hrep : s.vShift = 0
    case pos =>
      simp [State.slotOf, hrep, Fin.val_inj]
    case neg =>
      have hle : s.rowOf (s.vScanline.toNat - 1) ≤ s.rowOf s.vScanline.toNat := rowOf_mono (Nat.sub_le _ _)
      have hsucc : s.rowOf s.vScanline.toNat ≤ s.rowOf (s.vScanline.toNat - 1) + 1 := rowOf_le_succ hrep (by omega)
      rw [and_iff_right hrep, State.slotOf, State.slotOf, if_neg hrep, if_neg hrep]
      omega

/-- Settles O12: REFILL fills unless the reuse test succeeds, and that is the marker's comparison. -/
theorem eachRowFilledOnceAFrame : Obligations.EachRowFilledOnceAFrame := by
  unfold Obligations.EachRowFilledOnceAFrame
  intro s hinv hen hactive
  obtain ⟨-, -, -, hrun, -, -⟩ := hinv
  obtain ⟨hinit, -, -⟩ := refillEnabled_iff.1 hen
  obtain ⟨hconfig, -, -, hmarker⟩ := hrun hinit
  have hmarked := marker_eq_slotOf_iff hmarker hactive
  have hlb := refilled_lb_of_active ((classOf_eq_active_iff _).2 hactive)
  refine ⟨s.refilled, execRefill_next.2 ⟨hen, fontReady_of_configOk hconfig, rfl⟩, hmarked,
    fun hlater => ?reused, fun hfirst => ?filled⟩
  case reused => rw [hlb, fillUnlessMarked_of_marked _ (hmarked.2 hlater)]
  case filled =>
    have hnot : s.marker ≠ some (s.slotOf s.ch (s.rowOf s.vScanline.toNat)) := fun hm =>
      hfirst.elim (hmarked.1 hm).1 (hmarked.1 hm).2
    rw [hlb, fillUnlessMarked_of_not_marked _ hnot]

/-! ## A buffer that is not the front buffer is not read (R96, R120) -/

variable {b : Bool} {m : List Host.Cell}

theorem readFb8_withFb_of_ne {c : Bool} (h : c ≠ b) (a : Nat) : (s.withFb b m).readFb8 c a = s.readFb8 c a := by
  rw [State.readFb8, State.fb_withFb, if_neg h, State.withFb_epoch, State.readFb8]

theorem srcRgb_withFb (h : s.front ≠ b) (y x : Nat) :
    (s.withFb b m).srcRgb s.front y x = s.srcRgb s.front y x := by
  simp [State.srcRgb, State.readFb16, readFb8_withFb_of_ne h]

theorem srcByte_withFb (h : s.front ≠ b) (y x : Nat) :
    (s.withFb b m).srcByte s.front y x = s.srcByte s.front y x := by
  simp [State.srcByte, readFb8_withFb_of_ne h]

theorem srcAttr_withFb (h : s.front ≠ b) (y x : Nat) :
    (s.withFb b m).srcAttr s.front y x = s.srcAttr s.front y x := by
  simp [State.srcAttr, State.units, readFb8_withFb_of_ne h]

theorem font_withFb : (s.withFb b m).font = s.font := State.font_congr (by simp)

theorem hRep_withFb : (s.withFb b m).hRep = s.hRep := State.hRep_congr (by simp)

theorem pixRgb565_withFb (h : s.front ≠ b) (y : Nat) : (s.withFb b m).pixRgb565 y = s.pixRgb565 y := by
  funext p
  simp only [State.pixRgb565, State.withFb_frameW, State.withFb_front, hRep_withFb, srcRgb_withFb h]

theorem pixPal8_withFb (h : s.front ≠ b) (y : Nat) : (s.withFb b m).pixPal8 y = s.pixPal8 y := by
  funext p
  simp only [State.pixPal8, State.withFb_frameW, State.withFb_front, hRep_withFb, srcByte_withFb h,
    State.readPal_congr (State.withFb_pal s b m)]

theorem pixTextmono_withFb (h : s.front ≠ b) (y : Nat) : (s.withFb b m).pixTextmono y = s.pixTextmono y := by
  funext p
  simp only [State.pixTextmono, State.monoWord, State.withFb_frameW, State.withFb_front, font_withFb, srcByte_withFb h]

theorem pixTextattr_withFb (h : s.front ≠ b) (y : Nat) : (s.withFb b m).pixTextattr y = s.pixTextattr y := by
  funext p
  simp only [State.pixTextattr, State.attrCell, State.withFb_frameW, State.withFb_front, font_withFb, srcByte_withFb h,
    srcAttr_withFb h, State.fcWord_congr (State.withFb_plat s b m) (State.withFb_fc s b m)]

theorem modifyPix_withFb (k : Nat) (f : List Byte → List Byte) :
    (s.withFb b m).modifyPix k f = (s.modifyPix k f).withFb b m := by cases b <;> rfl

theorem fillLine_withFb (h : s.front ≠ b) (k y : Nat) :
    (s.withFb b m).fillLine k y = (s.fillLine k y).withFb b m := by
  simp only [State.fillLine, State.withFb_mode, pixRgb565_withFb h, pixPal8_withFb h, pixTextmono_withFb h,
    pixTextattr_withFb h, modifyPix_withFb]
  cases s.mode <;> rfl

/-! ## The handler's steps with another content of that buffer -/

theorem handlerEntry_withFb : handlerEntry (s.withFb b m) = (handlerEntry s).withFb b m := by cases b <;> rfl

theorem setDesc_withFb (c : Channel) (src : Src) (n : Nat) :
    (s.withFb b m).setDesc c src n = (s.setDesc c src n).withFb b m := by cases b <;> rfl

theorem fillUnlessMarked_withFb (h : s.front ≠ b) (k y : Nat) :
    (s.withFb b m).fillUnlessMarked k y = (s.fillUnlessMarked k y).withFb b m := by
  by_cases hmarked : s.marker = some k
  case pos => rw [fillUnlessMarked_of_marked _ hmarked, fillUnlessMarked_of_marked _ (by simpa using hmarked)]
  case neg =>
    rw [fillUnlessMarked_of_not_marked _ hmarked, fillUnlessMarked_of_not_marked _ (by simpa using hmarked),
      fillLine_withFb h]
    cases b <;> rfl

theorem pointChannel_withFb (h : s.front ≠ b) (c : Channel) :
    (s.withFb b m).pointChannel c = (s.pointChannel c).withFb b m := by
  have hclass : ∀ v, (s.withFb b m).classOf v = s.classOf v := State.classOf_congr (by simp)
  have hrow : ∀ v, (s.withFb b m).rowOf v = s.rowOf v := State.rowOf_congr (by simp) (by simp)
  have hslot : ∀ y, (s.withFb b m).slotOf c y = s.slotOf c y := State.slotOf_congr (by simp) c
  have hlen : (s.withFb b m).lbLen = s.lbLen := State.lbLen_congr (by simp) (by simp) (by simp)
  rw [State.pointChannel, State.pointChannel, State.withFb_vScanline, hclass]
  cases s.classOf s.vScanline.toNat with
  | sync => exact setDesc_withFb ..
  | blank => exact setDesc_withFb ..
  | active =>
    simp only [State.pointActive, State.pointRow, State.withFb_vScanline, hrow, hslot, hlen, fillUnlessMarked_withFb h,
      setDesc_withFb]

theorem vAdvance_withFb : (s.withFb b m).vAdvance = s.vAdvance.withFb b m := by
  have hV : (s.withFb b m).vTotal = s.vTotal := State.vTotal_congr (by simp)
  simp only [State.vAdvance, State.withFb_vScanline, hV]
  split
  next => cases b <;> rfl
  next => cases b <;> rfl

theorem arm_withFb (c : Channel) : (s.withFb b m).arm c = (s.arm c).withFb b m := by cases b <;> rfl

theorem programChannel_withFb (h : s.front ≠ b) (c : Channel) :
    (s.withFb b m).programChannel c = (s.programChannel c).withFb b m := by
  simp only [State.programChannel, pointChannel_withFb h, arm_withFb, vAdvance_withFb]

theorem refilled_withFb (h : s.front ≠ b) : (s.withFb b m).refilled = s.refilled.withFb b m := by
  rw [State.refilled, handlerEntry_withFb, State.withFb_ch]
  exact programChannel_withFb (s := handlerEntry s) h s.ch

/-- Settles O13: every part of REFILL reads the front buffer or none, and writes no frame buffer. -/
theorem handlerNeverReadsBackBuffer : Obligations.HandlerNeverReadsBackBuffer := by
  unfold Obligations.HandlerNeverReadsBackBuffer
  intro s t m h
  obtain ⟨hen, hfont, rfl⟩ := execRefill_next.1 h
  have hback : s.front ≠ s.back := (Bool.not_ne_self s.front).symm
  refine execRefill_next.2 ⟨?_, ?_, (refilled_withFb hback).symm⟩
  · simpa [State.refillEnabled] using hen
  · simpa using hfont

end Sys2Proof.Machine
end

section
/-!
The font unit: the glyph of a code, the coverage word of a glyph row column by column, the words of the Font Cache,
and O42 and O43.
-/

namespace Sys2Proof.Machine

variable {s : State} {f : Font} {g : GlyphDescriptor} {code : Byte} {row : Int}

/-! ## The glyph of a code (R108) -/

theorem glyphIndex_eq_none_iff : glyphIndex f code = none ↔
    code.toNat < f.firstCode ∨ f.firstCode + f.glyphs.length ≤ code.toNat := by
  simp [glyphIndex, or_iff_not_imp_left]

/-- Glyph `i` is the one of the code `FIRST_CODE + i`. -/
theorem glyphIndex_eq_some_iff {i : Nat} : glyphIndex f code = some i ↔
    i < f.glyphs.length ∧ code.toNat = f.firstCode + i := by
  unfold glyphIndex
  split
  next hout => simp; omega
  next hin => rw [Option.some.injEq]; omega

theorem renderCharLine_of_outside
    (h : code.toNat < f.firstCode ∨ f.firstCode + f.glyphs.length ≤ code.toNat) :
    renderCharLine f code row = 0 := by
  rw [renderCharLine, glyphIndex_eq_none_iff.2 h]

theorem renderCharLine_of_glyph (hfirst : f.firstCode ≤ code.toNat)
    (hg : f.glyphs[code.toNat - f.firstCode]? = some g) :
    renderCharLine f code row = renderGlyphRow f g row := by
  obtain ⟨hlt, -⟩ := List.getElem?_eq_some_iff.1 hg
  have hindex : glyphIndex f code = some (code.toNat - f.firstCode) :=
    glyphIndex_eq_some_iff.2 ⟨hlt, by omega⟩
  simp only [renderCharLine, hindex, hg]

/-! ## The row of a glyph (R110) -/

theorem renderGlyphRow_of_outside (h : row < glyphTop f g ∨ glyphTop f g + g.height ≤ row) :
    renderGlyphRow f g row = 0 :=
  if_pos (by omega)

/-- Inside the drawn box the word is that of the loop over the box's columns. -/
theorem renderGlyphRow_of_inside {gy : Nat} (hrow : row = glyphTop f g + gy) (hgy : gy < g.height) :
    renderGlyphRow f g row = (List.range g.width).foldl (renderColumn f g gy) 0 := by
  have hsub : row - glyphTop f g = gy := by omega
  rw [renderGlyphRow, hsub, if_neg (by omega), Int.toNat_natCast]

/-- A column of the box sets the column of the cell it falls on, and no other: what falls outside is dropped. -/
theorem coverageField_renderColumn {gy c col : Nat} (w : Word) (hcol : col ≤ 12) :
    coverageField (renderColumn f g gy w c) col =
      if (col : Int) = g.xOffset + c then glyphLevel f g (gy * g.width + c) else coverageField w col := by
  simp only [renderColumn]
  by_cases hhit : (col : Int) = g.xOffset + c
  · rw [if_pos hhit, if_pos (by omega), ← hhit, Int.toNat_natCast, coverageField_set_same]
  · rw [if_neg hhit]
    split
    next hcell => exact coverageField_set_ne w _ (by omega) hcol (by omega)
    next => rfl

/-- After the first `n` columns of the box, a column of the cell holds the pixel that falls on it, or 0. -/
theorem coverageField_foldl_renderColumn {gy col : Nat} (hcol : col ≤ 12) (n : Nat) :
    coverageField ((List.range n).foldl (renderColumn f g gy) 0) col =
      if g.xOffset ≤ col ∧ (col : Int) < g.xOffset + n then
        glyphLevel f g (gy * g.width + ((col : Int) - g.xOffset).toNat)
      else 0 := by
  induction n with
  | zero => rw [if_neg (by omega)]; simp [coverageField]
  | succ n ih =>
    rw [List.range_succ, List.foldl_concat, coverageField_renderColumn _ hcol, ih]
    by_cases hlast : (col : Int) = g.xOffset + n
    · have hpixel : ((col : Int) - g.xOffset).toNat = n := by omega
      rw [if_pos hlast, if_pos (by omega), hpixel]
    · have hrange : (g.xOffset ≤ col ∧ (col : Int) < g.xOffset + n) ↔
          (g.xOffset ≤ col ∧ (col : Int) < g.xOffset + (n + 1 : Nat)) := by omega
      rw [if_neg hlast, if_congr hrange rfl rfl]

theorem renderColumn_lt {gy : Nat} {w : Word} (h : w.toNat < 2 ^ 26) (c : Nat) :
    (renderColumn f g gy w c).toNat < 2 ^ 26 := by
  simp only [renderColumn]
  split
  next => exact setCoverageField_lt h _
  next => exact h

theorem renderGlyphRow_lt : (renderGlyphRow f g row).toNat < 2 ^ 26 := by
  simp only [renderGlyphRow]
  split
  next => decide
  next =>
    exact List.foldlRecOn _ _ (motive := fun w : Word => w.toNat < 2 ^ 26) (by decide)
      fun w hw c _ => renderColumn_lt hw c

/-- Every coverage word is below `2^26` (R113 (b)). -/
theorem renderCharLine_lt : (renderCharLine f code row).toNat < 2 ^ 26 := by
  unfold renderCharLine
  split
  next => decide
  next =>
    split
    next => decide
    next => exact renderGlyphRow_lt

theorem exec_renderCharLine (hfont : Platform.fontReady s.plat = true) (code : Byte) (row : Int) :
    exec (.renderCharLine code row) s = .next { s with result := .word (renderCharLine s.font code row) } :=
  whenFont_next.2 ⟨hfont, rfl⟩

/-- Settles O42: column `col` of the cell is column `col - x_offset` of the box, when the box has that column. -/
theorem renderCharLineColumns : Obligations.RenderCharLineColumns := by
  unfold Obligations.RenderCharLineColumns
  intro s code row hfont
  refine ⟨_, exec_renderCharLine hfont code row, renderCharLine_lt, renderCharLine_of_outside,
    fun g hfirst hg => ?_⟩
  rw [renderCharLine_of_glyph hfirst hg]
  refine ⟨renderGlyphRow_of_outside, fun gy col hrow hgy hcol => ?_⟩
  rw [renderGlyphRow_of_inside hrow hgy, coverageField_foldl_renderColumn hcol]
  refine ⟨fun c hc hhit => ?hit, fun hmiss => if_neg ?miss⟩
  case hit =>
    have hpixel : ((col : Int) - g.xOffset).toNat = c := by omega
    rw [if_pos (by omega), hpixel]
  case miss =>
    rintro ⟨hleft, hright⟩
    exact hmiss ((col : Int) - g.xOffset).toNat (by omega) (by omega)

/-! ## The Font Cache (R111, R112) -/

theorem length_fontCacheWords : (fontCacheWords f).length = f.glyphs.length * f.glyphH := by
  simp [fontCacheWords]

/-- Entry `i*GLYPH_H + r` is the row `r` of the code `FIRST_CODE + i`. -/
theorem fontCacheWords_getD {i r : Nat} (hi : i < f.glyphs.length) (hr : r < f.glyphH) :
    (fontCacheWords f).getD (i * f.glyphH + r) 0 =
      renderCharLine f (BitVec.ofNat 8 (f.firstCode + i)) (r : Nat) := by
  have hentry : i * f.glyphH + r < f.glyphs.length * f.glyphH := by nlinarith
  have hdiv : (i * f.glyphH + r) / f.glyphH = i := by
    rw [Nat.mul_comm, Nat.mul_add_div (by omega), Nat.div_eq_of_lt hr, Nat.add_zero]
  have hmod : (i * f.glyphH + r) % f.glyphH = r := by
    rw [Nat.mul_add_mod', Nat.mod_eq_of_lt hr]
  rw [List.getD_eq_getElem _ _ (hentry.trans_eq length_fontCacheWords.symm)]
  simp only [fontCacheWords, List.getElem_map, List.getElem_range, hdiv, hmod]

theorem fcWord_of_outside {r : Nat} (h : glyphIndex s.font code = none) : s.fcWord code r = 0 := by
  rw [State.fcWord, h]

theorem fcWord_of_index {i r : Nat} (h : glyphIndex s.font code = some i) :
    s.fcWord code r = s.fc.getD (i * s.font.glyphH + r) 0 := by
  rw [State.fcWord, h]

/-- With the cache as BUILD_FC leaves it, the word looked up is the word rendered (R113 (a)). -/
theorem fcWord_withFontCache {r : Nat} (hr : r < s.font.glyphH) :
    s.withFontCache.fcWord code r = renderCharLine s.font code (r : Nat) := by
  cases hindex : glyphIndex s.font code with
  | none =>
    rw [renderCharLine_of_outside (glyphIndex_eq_none_iff.1 hindex)]
    exact fcWord_of_outside hindex
  | some i =>
    obtain ⟨hi, hcode⟩ := glyphIndex_eq_some_iff.1 hindex
    have hbyte : BitVec.ofNat 8 (s.font.firstCode + i) = code := by
      rw [← hcode, BitVec.ofNat_toNat, BitVec.setWidth_eq]
    calc s.withFontCache.fcWord code r
        = (fontCacheWords s.font).getD (i * s.font.glyphH + r) 0 := fcWord_of_index hindex
      _ = renderCharLine s.font code (r : Nat) := by rw [fontCacheWords_getD hi hr, hbyte]

theorem exec_buildFc (hinit : s.inited = true) (hmode : s.mode = .textAttributed)
    (hfont : Platform.fontReady s.plat = true) : exec .buildFc s = .next s.withFontCache :=
  whenInited_next.2 ⟨hinit, (if_pos hmode).trans (whenFont_next.2 ⟨hfont, rfl⟩)⟩

theorem exec_fcLookup (hinit : s.inited = true) (hmode : s.mode = .textAttributed)
    (hfont : Platform.fontReady s.plat = true) {r : Nat} (hr : r < s.font.glyphH) :
    exec (.fcLookup code r) s = .next { s with result := .word (s.fcWord code r) } :=
  whenInited_next.2 ⟨hinit, (if_pos hmode).trans (whenFont_next.2 ⟨hfont, if_pos hr⟩)⟩

/-- Settles O43: entry `i*GLYPH_H + r` is looked up just for the code of glyph `i`, and other codes render as 0. -/
theorem fontCacheRefinesRasterizer : Obligations.FontCacheRefinesRasterizer := by
  unfold Obligations.FontCacheRefinesRasterizer
  intro s code r hinit hmode hfont hr
  refine ⟨_, exec_buildFc hinit hmode hfont, rfl, length_fontCacheWords, ?_⟩
  rw [exec_fcLookup (s := s.withFontCache) hinit hmode hfont hr, fcWord_withFontCache hr]

end Sys2Proof.Machine
end

section
/-!
The span operations and CLEAR brought to their end: consecutive units written, consecutive units read, every byte of a
buffer zeroed, and O51, O52, O58, O49.
-/

namespace Sys2Proof.Machine

variable {s t : State}

/-! ## The bytes of a unit (R55, R135) -/

theorem unitOffset_eq_mul (m : Mode) (n : Nat) : unitOffset m n = n * unitBytes m := by
  cases m <;> simp [unitOffset, unitBytes, Nat.mul_comm]

theorem unitOffset_succ (m : Mode) (n : Nat) : unitOffset m (n + 1) = unitOffset m n + unitBytes m := by
  rw [unitOffset_eq_mul, unitOffset_eq_mul, Nat.succ_mul]

theorem unitOffset_le (m : Mode) {n k : Nat} (h : n ≤ k) : unitOffset m n ≤ unitOffset m k := by
  rw [unitOffset_eq_mul, unitOffset_eq_mul]
  exact Nat.mul_le_mul_right _ h

/-- A unit reads as the bytes of its place say. -/
theorem readUnit_eq_of_bytes {b : Bool} {n : Nat} (hm : t.mode = s.mode)
    (h : ∀ a, unitOffset s.mode n ≤ a → a < unitOffset s.mode (n + 1) → t.readFb8 b a = s.readFb8 b a) :
    t.readUnit b n = s.readUnit b n := by
  rw [unitOffset_succ] at h
  unfold State.readUnit
  rw [hm]
  cases hmode : s.mode <;> simp only [hmode, unitBytes] at h ⊢
  case rgb565 => rw [State.readFb16, State.readFb16, h _ le_rfl (by omega), h _ (by omega) (by omega)]
  all_goals rw [h _ le_rfl (by omega)]

/-- A value of the unit's width comes back from the unit it is written to. -/
theorem readUnit_writeUnit (b : Bool) (n : Nat) {v : Word} (hv : valueFits s.mode v = true) :
    (s.writeUnit b n v).readUnit b n = v := by
  unfold State.readUnit State.writeUnit
  cases hm : s.mode <;> simp only [hm, valueFits, decide_eq_true_eq] at hv
  case rgb565 => simp [State.readFb16, State.readFb8_writeFb16, hm, zextHalf_truncHalf hv]
  all_goals simp [State.readFb8_writeFb8, hm, zextByte_truncByte hv]

/-! ## Consecutive units written -/

/-- The state with consecutive units stored, from unit `n` on: the accesses of the two span writes (R129, R130). -/
def State.writeUnits (s : State) (b : Bool) (n : Nat) : List Word → State
  | [] => s
  | v :: rest => (s.writeUnit b n v).writeUnits b (n + 1) rest

theorem writeUnits_differsInFb (b : Bool) (n : Nat) (data : List Word) :
    s.differsInFb (s.writeUnits b n data) := by
  induction data generalizing s n with
  | nil => rfl
  | cons v rest ih => exact (writeUnit_differsInFb ..).trans (ih (n + 1))

theorem writeUnits_mode (b : Bool) (n : Nat) (data : List Word) : (s.writeUnits b n data).mode = s.mode := by
  rw [writeUnits_differsInFb]

/-- The bytes outside the units written keep their value. -/
theorem readFb8_writeUnits_frame {b c : Bool} {n a : Nat} {data : List Word}
    (h : c ≠ b ∨ a < unitOffset s.mode n ∨ unitOffset s.mode (n + data.length) ≤ a) :
    (s.writeUnits b n data).readFb8 c a = s.readFb8 c a := by
  induction data generalizing s n with
  | nil => rfl
  | cons v rest ih =>
    have hlast : n + (v :: rest).length = n + 1 + rest.length := by rw [List.length_cons]; omega
    have hfirst := unitOffset_succ s.mode n
    have hrest := unitOffset_le s.mode (Nat.le_add_right (n + 1) rest.length)
    rw [hlast] at h
    refine (ih ?_).trans (State.readFb8_writeUnit_frame _ _ _ _ _ ?_)
    · rw [State.writeUnit_mode]
      exact h.imp_right fun h => by omega
    · exact h.imp_right fun h => by omega

/-- Unit `n + i` reads as element `i`: the units after it do not reach its bytes. -/
theorem readUnit_writeUnits (b : Bool) {n i : Nat} {data : List Word} {w : Word}
    (hfits : data.all (valueFits s.mode) = true) (hi : data[i]? = some w) :
    (s.writeUnits b n data).readUnit b (n + i) = w := by
  induction data generalizing s n i with
  | nil => cases hi
  | cons v rest ih =>
    obtain ⟨hv, hrest⟩ := Bool.and_eq_true_iff.1 hfits
    cases i with
    | zero =>
      cases hi
      have hkept : ((s.writeUnit b n w).writeUnits b (n + 1) rest).readUnit b n = (s.writeUnit b n w).readUnit b n :=
        readUnit_eq_of_bytes (writeUnits_mode ..) fun a _ ha => readFb8_writeUnits_frame (.inr (.inl ha))
      exact hkept.trans (readUnit_writeUnit b n hv)
    | succ i =>
      rw [State.writeUnits, show n + (i + 1) = n + 1 + i by omega]
      exact ih (by rwa [State.writeUnit_mode]) hi

/-! ## WRITE_SPAN_COPY and WRITE_SPAN_FILL -/

theorem finishOp_enterOp_succ (op : HostOp) (k : Nat) :
    State.finishOp (k + 1) (s.enterOp op) = State.finishOp k ((s.enterOp op).opStep op) :=
  State.finishOp_succ k rfl

/-- Brought to its end, a copy whose elements remain is the units written. -/
theorem finishOp_spanCopy (b : Bool) (n : Nat) (data : List Word) :
    State.finishOp data.length (s.goOn (!data.isEmpty) (.spanCopy b n data)) =
      (s.writeUnits b n data).leaveOp := by
  induction data generalizing s n with
  | nil => rfl
  | cons v rest ih =>
    calc State.finishOp (rest.length + 1) (s.enterOp (.spanCopy b n (v :: rest)))
        = State.finishOp rest.length
            (((s.enterOp (.spanCopy b n (v :: rest))).writeUnit b n v).goOn (!rest.isEmpty)
              (.spanCopy b (n + 1) rest)) := finishOp_enterOp_succ ..
      _ = State.finishOp rest.length
            ((s.writeUnit b n v).goOn (!rest.isEmpty) (.spanCopy b (n + 1) rest)) := by
          rw [enterOp_writeUnit, enterOp_goOn]
      _ = (s.writeUnits b n (v :: rest)).leaveOp := ih (n + 1)

/-- Brought to its end, a fill is the copy of its value repeated. -/
theorem finishOp_spanFill (b : Bool) (n len : Nat) (v : Word) :
    State.finishOp len (s.goOn (decide (0 < len)) (.spanFill b n len v)) =
      (s.writeUnits b n (List.replicate len v)).leaveOp := by
  induction len generalizing s n with
  | zero => rfl
  | succ len ih =>
    calc State.finishOp (len + 1) (s.goOn (decide (0 < len + 1)) (.spanFill b n (len + 1) v))
        = State.finishOp (len + 1) (s.enterOp (.spanFill b n (len + 1) v)) := by
          rw [decide_eq_true (Nat.succ_pos len)]; rfl
      _ = State.finishOp len
            (((s.enterOp (.spanFill b n (len + 1) v)).writeUnit b n v).goOn (decide (1 < len + 1))
              (.spanFill b (n + 1) len v)) := finishOp_enterOp_succ ..
      _ = State.finishOp len ((s.writeUnit b n v).goOn (decide (0 < len)) (.spanFill b (n + 1) len v)) := by
          rw [enterOp_writeUnit, enterOp_goOn, decide_eq_decide.2 (Nat.lt_add_left_iff_pos (n := 1))]
      _ = (s.writeUnits b n (List.replicate (len + 1) v)).leaveOp := ih (n + 1)

/-- In `t` the operation has ended, the units of the back buffer of `s` from `n` on hold the data, and everything
else is as in `s`. -/
abbrev State.storesSpan (s t : State) (n : Nat) (data : List Word) : Prop :=
  t = { s with fb0 := t.fb0, fb1 := t.fb1, busy := none } ∧
  (∀ i w, data[i]? = some w → t.readUnit (!s.front) (n + i) = w) ∧
  (∀ off, (off < unitOffset s.mode n ∨ unitOffset s.mode (n + data.length) ≤ off) →
    t.readFb8 (!s.front) off = s.readFb8 (!s.front) off) ∧
  (∀ off, t.readFb8 s.front off = s.readFb8 s.front off)

theorem writeUnits_storesSpan (n : Nat) {data : List Word} (hfits : data.all (valueFits s.mode) = true) :
    s.storesSpan (s.writeUnits s.back n data).leaveOp n data :=
  ⟨congrArg State.leaveOp (writeUnits_differsInFb ..), fun _ _ hi => readUnit_writeUnits s.back hfits hi,
    fun _ hoff => readFb8_writeUnits_frame (b := s.back) (.inr hoff),
    fun _ => readFb8_writeUnits_frame (.inl (by simp [State.back]))⟩

/-- Settles O51: both span writes are consecutive units written, the fill those of its value repeated. -/
theorem writeSpansStoreConsecutiveUnits : Obligations.WriteSpansStoreConsecutiveUnits := by
  unfold Obligations.WriteSpansStoreConsecutiveUnits
  refine ⟨fun s x y len value hinit hmode hfits hin => ?fill, fun s x y data hinit hmode hfits hin => ?copy⟩
  case fill =>
    have hexec : exec (.writeSpanFill x y len value) s = .next (s.goOn (decide (0 < len.toNat))
        (.spanFill s.back (s.linear x y) len.toNat value)) :=
      graphicAccess_next.2 ⟨hinit, hmode, by simp [hfits], hin, rfl⟩
    have hall : (List.replicate len.toNat value).all (valueFits s.mode) = true := by simp [hfits]
    obtain ⟨hrest, hunits, hbytes, hfront⟩ := writeUnits_storesSpan (s.linear x y) hall
    rw [List.length_replicate] at hbytes
    exact ⟨_, _, hexec, (finishOp_spanFill ..).symm, hrest,
      fun i hi => hunits i value (List.getElem?_replicate_of_lt hi), hbytes, hfront⟩
  case copy =>
    have hexec : exec (.writeSpanCopy x y data) s =
        .next (s.goOn (!data.isEmpty) (.spanCopy s.back (s.linear x y) data)) :=
      graphicAccess_next.2 ⟨hinit, hmode, hfits, hin, rfl⟩
    exact ⟨_, _, hexec, (finishOp_spanCopy ..).symm, writeUnits_storesSpan (s.linear x y) hfits⟩

/-! ## READ_SPAN -/

theorem exec_readSpan {x y len : Half} (hinit : s.inited = true) (hmode : Mode.isText s.mode = false)
    (hin : s.inBounds x y len.toNat = true) : exec (.readSpan x y len) s =
      .next (s.goOn (decide (0 < len.toNat)) (.readSpan s.front (s.linear x y) len.toNat [])) :=
  graphicAccess_next.2 ⟨hinit, hmode, rfl, hin, rfl⟩

/-- The units read are handed over together, after the last. -/
theorem finishOp_readSpan_succ (b : Bool) (n len : Nat) (got : List Word) :
    State.finishOp (len + 1) (s.enterOp (.readSpan b n (len + 1) got)) =
      (s.replied (got ++ (List.range' n (len + 1)).map (s.readUnit b))).leaveOp := by
  have hread : (s.enterOp (.readSpan b n (len + 1) got)).readUnit b n = s.readUnit b n :=
    State.readUnit_congr rfl rfl rfl rfl b n
  induction len generalizing n got with
  | zero =>
    rw [finishOp_enterOp_succ, State.opStep, if_neg (Nat.lt_irrefl 1), hread]
    rfl
  | succ len ih =>
    rw [finishOp_enterOp_succ, State.opStep, if_pos (by omega), hread]
    refine (ih (n + 1) (got ++ [s.readUnit b n]) (State.readUnit_congr rfl rfl rfl rfl b _)).trans ?_
    rw [List.append_assoc]
    rfl

theorem finishOp_readSpan (b : Bool) (n len : Nat) :
    State.finishOp len (s.goOn (decide (0 < len)) (.readSpan b n len [])) =
      (s.replied ((List.range' n len).map (s.readUnit b))).leaveOp := by
  cases len with
  | zero => simp [State.goOn, State.finishOp, State.replied]
  | succ len =>
    rw [decide_eq_true (Nat.succ_pos len)]
    exact finishOp_readSpan_succ b n len []

/-- Settles O52: brought to its end, the operation hands over the units read, and a length of 0 nothing. -/
theorem readSpanRepliesFrontUnits : Obligations.ReadSpanRepliesFrontUnits := by
  unfold Obligations.ReadSpanRepliesFrontUnits
  intro s x y len hinit hmode hin
  refine ⟨_, exec_readSpan hinit hmode hin, ?_⟩
  rw [finishOp_readSpan, List.range'_eq_map_range, List.map_map]
  rfl

/-- A READ_SPAN of one unit brought to its end. -/
theorem reply_readSpan_one {x y : Half} (hinit : s.inited = true) (hmode : Mode.isText s.mode = false)
    (hin : s.inBounds x y 1 = true) : ∃ t, exec (.readSpan x y 1) s = .next t ∧
      (State.finishOp 1 t).reply = s.reply ++ [s.readUnit s.front (s.linear x y)] :=
  ⟨_, exec_readSpan hinit hmode hin, congrArg State.reply (finishOp_readSpan s.front (s.linear x y) 1)⟩

/-- Settles O58: the unit read is the one written, because the front buffer of the read is the back buffer of the
write. -/
theorem pixelRoundTrip : Obligations.PixelRoundTrip := by
  unfold Obligations.PixelRoundTrip
  intro s x y value hinit hmode hfits hin
  have hwrite : exec (.writePixel x y value) s = .next (s.enterOp (.pixel s.back (s.linear x y) value)) :=
    graphicAccess_next.2 ⟨hinit, hmode, by simp [hfits], hin, rfl⟩
  obtain ⟨t, ht⟩ : ∃ t, t = { (s.writeUnit s.back (s.linear x y) value).leaveOp with front := s.back } := ⟨_, rfl⟩
  have hwidth : t.frameW = s.frameW := by simp [ht]
  have hheight : t.frameH = s.frameH := by simp [ht]
  have hvalue : t.readUnit t.front (t.linear x y) = value := by
    rw [State.linear_congr hwidth, ht]
    exact readUnit_writeUnit s.back (s.linear x y) hfits
  obtain ⟨u, hread, hreply⟩ := reply_readSpan_one (s := t) (by simpa [ht] using hinit) (by simpa [ht] using hmode)
    ((State.inBounds_congr hwidth hheight x y 1).trans hin)
  refine ⟨_, u, hwrite, ?_, ?_⟩
  · rw [finishOp_pixel]
    exact ht ▸ hread
  · rw [hreply, hvalue, ht]
    simp

/-! ## CLEAR -/

/-- The state with `k` consecutive bytes zeroed, from offset `off` on: the accesses of CLEAR (R127). -/
def State.zeroBytes (s : State) (b : Bool) (off : Nat) : Nat → State
  | 0 => s
  | k + 1 => (s.writeFb8 b off 0).zeroBytes b (off + 1) k

theorem zeroBytes_differsInFb (b : Bool) (off k : Nat) : s.differsInFb (s.zeroBytes b off k) := by
  induction k generalizing s off with
  | zero => rfl
  | succ k ih => exact (writeFb8_differsInFb ..).trans (ih (off + 1))

theorem readFb8_zeroBytes (b c : Bool) (off k a : Nat) : (s.zeroBytes b off k).readFb8 c a =
    if c = b ∧ off ≤ a ∧ a < off + k then 0 else s.readFb8 c a := by
  induction k generalizing s off with
  | zero => rw [if_neg (by omega)]; rfl
  | succ k ih =>
    rw [State.zeroBytes, ih, State.readFb8_writeFb8, ← ite_or]
    refine if_congr ?_ rfl rfl
    rw [← and_or_left]
    exact and_congr_right fun _ => by omega

/-- Brought to its end, a CLEAR with `k` bytes remaining is those bytes zeroed. -/
theorem finishOp_clear (b : Bool) {off k : Nat} (hk : off + k = s.fbBytes) :
    State.finishOp k (s.goOn (decide (off < s.fbBytes)) (.clear b off)) = (s.zeroBytes b off k).leaveOp := by
  induction k generalizing s off with
  | zero =>
    rw [decide_eq_false (by omega)]
    rfl
  | succ k ih =>
    have hbytes : (s.writeFb8 b off 0).fbBytes = s.fbBytes := State.fbBytes_congr (by simp) (by simp) (by simp)
    calc State.finishOp (k + 1) (s.goOn (decide (off < s.fbBytes)) (.clear b off))
        = State.finishOp (k + 1) (s.enterOp (.clear b off)) := by
          rw [decide_eq_true (by omega)]; rfl
      _ = State.finishOp k (((s.enterOp (.clear b off)).writeFb8 b off 0).goOn (decide (off + 1 < s.fbBytes))
            (.clear b (off + 1))) := finishOp_enterOp_succ ..
      _ = State.finishOp k ((s.writeFb8 b off 0).goOn (decide (off + 1 < (s.writeFb8 b off 0).fbBytes))
            (.clear b (off + 1))) := by
          rw [enterOp_writeFb8, enterOp_goOn, hbytes]
      _ = (s.zeroBytes b off (k + 1)).leaveOp := ih (by omega)

/-- Settles O49: brought to its end, the operation is all bytes of the back buffer zeroed. -/
theorem clearZeroesTheBackBuffer : Obligations.ClearZeroesTheBackBuffer := by
  unfold Obligations.ClearZeroesTheBackBuffer
  intro s hinit
  have hread (c : Bool) (a : Nat) : (s.zeroBytes s.back 0 s.fbBytes).leaveOp.readFb8 c a =
      if c = !s.front ∧ 0 ≤ a ∧ a < 0 + s.fbBytes then 0 else s.readFb8 c a :=
    readFb8_zeroBytes s.back c 0 s.fbBytes a
  refine ⟨_, _, whenInited_of hinit, (finishOp_clear s.back (Nat.zero_add _)).symm,
    congrArg State.leaveOp (zeroBytes_differsInFb ..), fun off hoff => ?_, fun off hoff => ?_, fun off => ?_⟩
  · rw [hread, if_pos ⟨rfl, by omega⟩]
  · rw [hread, if_neg fun h => by omega]
  · rw [hread, if_neg (by simp)]

end Sys2Proof.Machine
end

section
/-!
INIT that fails, VALID, the palette read, and O19, O20, O24, O54.
-/

namespace Sys2Proof.Machine

variable {s : State} {width height : Half} {mode : Mode} {sel : Selection}

/-! ## The failures of INIT (R139, R140) -/

/-- A configured font that breaks R108 or R109 is asked for: the one request INIT has no answer to (I14). -/
abbrev asksBadFont (p : Platform) (mode : Mode) : Prop :=
  (Mode.isText mode && p.font.isSome && !Platform.fontReady p) = true

theorem not_asksBadFont {p : Platform}
    (h : Mode.isText mode = false ∨ p.font = none ∨ Platform.fontReady p = true) : ¬asksBadFont p mode := by
  rcases h with h | h | h <;> simp [h]

theorem execInit_of_zero (h : width = 0 ∨ height = 0) :
    execInit width height mode s = .next (s.afterReset.replied [statusFail]) := by
  rw [execInit, initFrom, if_pos h, raise]

theorem execInit_of_none (hoperands : ¬(width = 0 ∨ height = 0)) (hfont : ¬asksBadFont s.plat mode)
    (hsel : selectTiming s.plat width height mode = none) :
    execInit width height mode s = .next (s.afterReset.replied [statusFail]) := by
  rw [execInit, initFrom, afterReset_plat, if_neg hoperands, if_neg hfont, hsel, raise]

/-- With a match, the tests of the descriptor and of its clock decide. -/
theorem execInit_of_some (hoperands : ¬(width = 0 ∨ height = 0)) (hfont : ¬asksBadFont s.plat mode)
    (hsel : selectTiming s.plat width height mode = some sel) : execInit width height mode s =
      if validTiming sel.timing then
        if Platform.clockOk s.plat sel.timing.bitClk then
          .next ((s.afterReset.committed sel width height mode).replied [statusOk])
        else raise .fatalClock s.afterReset
      else raise .configError s.afterReset := by
  rw [execInit, initFrom, afterReset_plat, if_neg hoperands, if_neg hfont, hsel]

/-- Settles O19: each configuration error answers -1 beside the state that INIT's RESET leaves. -/
theorem initConfigErrorAnswersMinusOne : Obligations.InitConfigErrorAnswersMinusOne := by
  unfold Obligations.InitConfigErrorAnswersMinusOne
  intro s width height mode herror
  have hfail : execInit width height mode s = .next (s.afterReset.replied [statusFail]) := by
    by_cases hzero : width = 0 ∨ height = 0
    · exact execInit_of_zero hzero
    · obtain ⟨hwidth, hheight⟩ := not_or.1 hzero
      obtain ⟨hfont, hsel⟩ := (herror.resolve_left hwidth).resolve_left hheight
      rcases hsel with hnone | ⟨sel, hsome, hinvalid⟩
      · exact execInit_of_none hzero (not_asksBadFont hfont) hnone
      · rw [execInit_of_some hzero (not_asksBadFont hfont) hsome, if_neg (Bool.eq_false_iff.1 hinvalid), raise]
  obtain ⟨-, -, -, -, -, -, -, hreply, -, -⟩ := afterReset_kept (s := s)
  refine ⟨s.afterReset, _, rfl, hfail, ?_, afterReset_inited⟩
  rw [← hreply]
  rfl

/-- Settles O20: the clock is the last test, after the operands, the font, the match and its validity. -/
theorem initFatalClockEndsTheRun : Obligations.InitFatalClockEndsTheRun := by
  unfold Obligations.InitFatalClockEndsTheRun
  intro s width height mode sel hwidth hheight hfont hsel hvalid hclock
  have hready : Mode.isText mode = false ∨ s.plat.font = none ∨ Platform.fontReady s.plat = true :=
    (Bool.eq_false_or_eq_true (Mode.isText mode)).symm.imp_right fun hm => .inr (hfont hm)
  refine (execInit_of_some (not_or.2 ⟨hwidth, hheight⟩) (not_asksBadFont hready) hsel).trans ?_
  rw [if_pos hvalid, if_neg (Bool.eq_false_iff.1 hclock), raise]

/-! ## VALID (R117) -/

/-- Settles O24: the flag is the conjunction of the tests, those of (c) and (d) on the sums of the vertical counts. -/
theorem validAcceptsExactly : Obligations.ValidAcceptsExactly := by
  unfold Obligations.ValidAcceptsExactly
  intro s t
  refine ⟨validTiming t, rfl, ?_⟩
  simp only [validTiming, Bool.and_eq_true, decide_eq_true_eq, and_assoc]
  exact Iff.rfl

/-! ## PAL_GET (R133) -/

theorem storeGet_eq_none {α : Type} {m : List (Nat × α)} {a : Nat} (h : ∀ c ∈ m, c.1 ≠ a) : storeGet m a = none := by
  induction m with
  | nil => rfl
  | cons c rest ih =>
    obtain ⟨hc, hrest⟩ := List.forall_mem_cons.1 h
    rw [storeGet, if_neg hc.symm]
    exact ih hrest

/-- Settles O54: an entry that is not listed has not been written. -/
theorem paletteGetRepliesEntry : Obligations.PaletteGetRepliesEntry := by
  unfold Obligations.PaletteGetRepliesEntry
  intro s i
  refine ⟨rfl, fun h => ?_⟩
  rw [State.readPal, storeGet_eq_none h]
  rfl

end Sys2Proof.Machine
end

section
/-!
The flip protocol: the two waits as guards, FLIP_BLOCKING and FLIP_NOW, the target buffer of an operation under way, and
O45, O46, O47, O48, O57.
-/

namespace Sys2Proof.Machine

variable {s : State}

/-! ## The check of a wait (R122, R125) -/

theorem checkFlip_of_done (h : s.flipReq = false) : s.checkFlip = { s with busy := none } :=
  if_pos (by simp [State.flipDone, h])

theorem checkFlip_of_pending (h : s.flipReq = true) : s.checkFlip = { s with busy := some (.waitFlip true) } :=
  if_neg (by simp [State.flipDone, h])

theorem checkVsync_of_inactive (h : s.vScanline.toNat < s.vInactive) : s.checkVsync = { s with busy := none } :=
  if_pos (decide_eq_true h)

theorem checkVsync_of_active (h : s.vInactive ≤ s.vScanline.toNat) :
    s.checkVsync = { s with busy := some (.waitVsync true) } :=
  if_neg (by simpa [State.inVsync] using h)

/-- Settles O45: the operation and each re-check are the same check of the flag. -/
theorem waitFlipIsAGuard : Obligations.WaitFlipIsAGuard := by
  unfold Obligations.WaitFlipIsAGuard
  intro s hinit
  have hexec : exec .waitFlip s = .next s.checkFlip := whenInited_of hinit
  rw [hexec]
  exact ⟨fun h => congrArg _ (checkFlip_of_done h), fun h => congrArg _ (checkFlip_of_pending h), rfl,
    checkFlip_of_done, checkFlip_of_pending⟩

/-- Settles O48: the operation and each re-check are the same check of the counter. -/
theorem waitVsyncIsAGuard : Obligations.WaitVsyncIsAGuard := by
  unfold Obligations.WaitVsyncIsAGuard
  intro s hinit
  have hexec : exec .waitVsync s = .next s.checkVsync := whenInited_of hinit
  rw [hexec]
  exact ⟨fun h => congrArg _ (checkVsync_of_inactive h), fun h => congrArg _ (checkVsync_of_active h), rfl,
    checkVsync_of_inactive, checkVsync_of_active⟩

/-! ## FLIP_BLOCKING and FLIP_NOW (R123, R124) -/

/-- A turn of a wait leaves it only as a re-check that finds no flip pending. -/
theorem waitFlip_left {asleep : Bool} (h : (s.opStep (.waitFlip asleep)).busy = none) :
    s.flipReq = false ∧ asleep = false := by
  cases asleep with
  | true => cases h
  | false =>
    refine ⟨Bool.eq_false_iff.2 fun hpending => ?_, rfl⟩
    have hbusy : s.checkFlip.busy = none := h
    rw [checkFlip_of_pending hpending] at hbusy
    cases hbusy

/-- Settles O46: the wait of FLIP_BLOCKING is that of WAIT_FLIP. -/
theorem flipBlockingRequestsAndWaits : Obligations.FlipBlockingRequestsAndWaits := by
  unfold Obligations.FlipBlockingRequestsAndWaits
  exact fun s hinit => ⟨_, whenInited_of hinit, rfl, fun _ _ => waitFlip_left⟩

/-- Settles O47: the two policies are the two cases of the operation's meaning. -/
theorem flipNowFollowsThePolicy : Obligations.FlipNowFollowsThePolicy := by
  unfold Obligations.FlipNowFollowsThePolicy
  intro s hinit
  refine ⟨fun hpolicy => (whenInited_of hinit).trans ?_, fun hpolicy => (whenInited_of hinit).trans ?_⟩ <;>
    rw [hpolicy]

/-! ## The target buffer of an operation under way (R126) -/

/-- The state with the buffer roles given. -/
def State.withFront (s : State) (front : Bool) : State := { s with front := front }

variable (front : Bool)

theorem withFront_writeFb8 (b : Bool) (off : Nat) (v : Byte) :
    (s.withFront front).writeFb8 b off v = (s.writeFb8 b off v).withFront front := by
  cases b <;> rfl

theorem withFront_writeUnit (b : Bool) (n : Nat) (v : Word) :
    (s.withFront front).writeUnit b n v = (s.writeUnit b n v).withFront front := by
  have hmode : (s.withFront front).mode = s.mode := rfl
  unfold State.writeUnit
  rw [hmode]
  split
  next => simp only [State.writeFb16, withFront_writeFb8]
  all_goals exact withFront_writeFb8 ..

theorem withFront_goOn (remains : Bool) (op : HostOp) :
    (s.withFront front).goOn remains op = (s.goOn remains op).withFront front := by
  cases remains <;> rfl

/-- An access goes to the buffer that the operation under way names, whatever the roles are by then. -/
theorem withFront_opStep (op : HostOp) : (s.withFront front).opStep op = (s.opStep op).withFront front := by
  cases op with
  | clear b off => simp only [State.opStep, withFront_writeFb8, withFront_goOn]; rfl
  | pixel b n v => simp only [State.opStep, withFront_writeUnit]; rfl
  | spanFill b n len v => simp only [State.opStep, withFront_writeUnit, withFront_goOn]
  | spanCopy b n data =>
    cases data with
    | nil => rfl
    | cons v rest => simp only [State.opStep, withFront_writeUnit, withFront_goOn]
  | readSpan b n len got =>
    have hread : (s.withFront front).readUnit b n = s.readUnit b n := State.readUnit_congr rfl rfl rfl rfl b n
    simp only [State.opStep, hread]
    split <;> rfl
  | text b n bytes attr attrNext =>
    cases bytes with
    | nil => rfl
    | cons c rest =>
      have hmode : (s.withFront front).mode = s.mode := rfl
      have hattr : (s.withFront front).attrOffset n = s.attrOffset n := rfl
      simp only [State.opStep, hmode, hattr, withFront_writeFb8, withFront_goOn]
      split_ifs <;> rfl
  | waitFlip asleep =>
    cases asleep with
    | true => rfl
    | false =>
      change (s.withFront front).checkFlip = s.checkFlip.withFront front
      rw [checkFlip_eq_goOn, checkFlip_eq_goOn, withFront_goOn]
      rfl
  | waitVsync asleep =>
    cases asleep with
    | true => rfl
    | false =>
      change (s.withFront front).checkVsync = s.checkVsync.withFront front
      rw [checkVsync_eq_goOn, checkVsync_eq_goOn, withFront_goOn]
      rfl

/-- Settles O57: the buffer is an operand of every access. -/
theorem targetBufferCapturedAtStart : Obligations.TargetBufferCapturedAtStart := by
  unfold Obligations.TargetBufferCapturedAtStart
  exact fun s op front => withFront_opStep front op

end Sys2Proof.Machine
end

section
/-!
XFER and REFILL in either order, and O11: they commute on every state where both are enabled.
-/

namespace Sys2Proof.Machine

variable {s : State}

/-! ## REFILL around the hand-over of a line (R91, R92) -/

/-- Channel `k`'s transfer of a given line: what XFER writes, once the line is read. -/
def State.sent (s : State) (k : Channel) (line : List Word) : State := (s.emit line).complete k

theorem transfer_eq_sent (k : Channel) : s.transfer k = s.sent k (s.lineWordsOf (s.desc.get k)) := rfl

variable {k c : Channel} {line : List Word}

theorem handlerEntry_sent (h : k ≠ s.ch) :
    handlerEntry (s.sent k line) = (handlerEntry s).sent k line := by
  simp only [handlerEntry, State.sent, State.emit, State.complete, PerChannel.set_comm _ _ _ h]

theorem fillLine_sent (j y : Nat) : (s.sent k line).fillLine j y = (s.fillLine j y).sent k line := by
  have hmode : (s.sent k line).mode = s.mode := rfl
  unfold State.fillLine
  rw [hmode]
  cases s.mode <;> rfl

theorem fillUnlessMarked_sent (j y : Nat) :
    (s.sent k line).fillUnlessMarked j y = (s.fillUnlessMarked j y).sent k line := by
  by_cases hmarked : s.marker = some j
  case pos => rw [fillUnlessMarked_of_marked y hmarked, fillUnlessMarked_of_marked y (s := s.sent k line) hmarked]
  case neg =>
    rw [fillUnlessMarked_of_not_marked y hmarked,
      fillUnlessMarked_of_not_marked y (s := s.sent k line) hmarked, fillLine_sent]
    rfl

theorem pointChannel_sent : (s.sent k line).pointChannel c = (s.pointChannel c).sent k line := by
  have hclass : (s.sent k line).classOf (s.sent k line).vScanline.toNat = s.classOf s.vScanline.toNat := rfl
  unfold State.pointChannel
  rw [hclass]
  cases s.classOf s.vScanline.toNat with
  | sync => rfl
  | blank => rfl
  | active =>
    change ((s.sent k line).fillUnlessMarked _ _).setDesc c _ _ = _
    rw [fillUnlessMarked_sent]
    rfl

/-- Arming a channel and completing another commute. -/
theorem arm_sent (h : k ≠ c) : (s.sent k line).arm c = (s.arm c).sent k line := by
  simp only [State.arm, State.sent, State.emit, State.complete, PerChannel.set_comm _ _ _ h]

theorem vAdvance_sent : (s.sent k line).vAdvance = s.vAdvance.sent k line := by
  by_cases hlast : s.vScanline.toNat + 1 = s.vTotal
  case pos =>
    rw [vAdvance_of_last hlast, vAdvance_of_last (s := s.sent k line) hlast]
    rfl
  case neg =>
    rw [vAdvance_of_not_last hlast, vAdvance_of_not_last (s := s.sent k line) hlast]
    rfl

theorem programChannel_sent (h : k ≠ c) :
    (s.sent k line).programChannel c = (s.programChannel c).sent k line := by
  simp only [State.programChannel, pointChannel_sent, arm_sent h, vAdvance_sent]

/-- REFILL serves `CH` and neither reads nor writes what the transfer of another channel writes. -/
theorem refilled_sent (h : k ≠ s.ch) : (s.sent k line).refilled = s.refilled.sent k line := by
  rw [State.refilled, handlerEntry_sent h]
  exact programChannel_sent (s := handlerEntry s) h

/-! ## The line an armed channel carries, across REFILL (R68) -/

theorem refilled_desc_of_ne (h : k ≠ s.ch) : s.refilled.desc.get k = s.desc.get k := by
  have hdesc : s.refilled.desc = s.desc.set s.ch (s.descFor s.ch s.vScanline.toNat) :=
    State.programChannel_desc (s := handlerEntry s) s.ch
  rw [hdesc, PerChannel.get_set_ne _ _ h]

/-- The command lists are tables of INIT, and the line buffer of an armed channel is in flight. -/
theorem refilled_lineWordsOf_armed (hc : s.configOk) (hr : s.ringOk) (hm : s.markerOk)
    (hp : s.pending.get s.ch = true) (hk : s.armed.get k = true) :
    s.refilled.lineWordsOf (s.desc.get k) = s.lineWordsOf (s.desc.get k) := by
  have hregion : s.refilled.region (s.desc.get k).src = s.region (s.desc.get k).src := by
    cases hsrc : (s.desc.get k).src with
    | clOn => exact State.refilled_clOn s
    | clOff => exact State.refilled_clOff s
    | lb sl =>
      have hd : s.desc.get k = ⟨.lb sl, (s.desc.get k).count⟩ := by rw [← hsrc]
      simp only [State.region, refilled_lb_of_inFlight hc hr hm hp hk hd]
  rw [State.lineWordsOf, hregion, State.lineWordsOf]

theorem transfer_refilled_comm (hc : s.configOk) (hr : s.ringOk) (hm : s.markerOk)
    (hp : s.pending.get s.ch = true) (hk : s.armed.get k = true) :
    (s.transfer k).refilled = s.refilled.transfer k := by
  have hne := ne_ch_of_armed hr hp hk
  rw [transfer_eq_sent, transfer_eq_sent, refilled_sent hne, refilled_desc_of_ne hne,
    refilled_lineWordsOf_armed hc hr hm hp hk]

/-! ## Each step leaves the other enabled -/

theorem transfer_refillEnabled (hk : k ≠ s.ch) (h : s.refillEnabled = true) :
    (s.transfer k).refillEnabled = true := by
  obtain ⟨hinit, hirq, hpending⟩ := refillEnabled_iff.1 h
  refine refillEnabled_iff.2 ⟨hinit, hirq, ?_⟩
  rw [State.transfer_pending, State.transfer_ch, PerChannel.get_set_ne _ _ hk.symm, hpending]

theorem refilled_armed (h : s.armed.get k = true) : s.refilled.armed.get k = true := by
  have harmed : s.refilled.armed = s.armed.set s.ch true := State.programChannel_armed (s := handlerEntry s) s.ch
  rw [harmed, PerChannel.get_set, h, ite_self]

/-- Settles O11: the channel that transfers is armed, so it is not the one that REFILL serves, and the line it
sends is in flight. -/
theorem xferAndRefillCommute : Obligations.XferAndRefillCommute := by
  unfold Obligations.XferAndRefillCommute
  rintro s ⟨-, -, -, hrun, -⟩ hen harmed
  obtain ⟨hinit, -, hpending⟩ := refillEnabled_iff.1 hen
  obtain ⟨hconfig, -, hring, hmarker⟩ := hrun hinit
  have hfont := fontReady_of_configOk hconfig
  have hne := ne_ch_of_armed hring hpending harmed
  refine ⟨s.transfer s.activeCh, s.refilled, (s.transfer s.activeCh).refilled,
    execXfer_next.2 ⟨hinit, harmed, rfl⟩, execRefill_next.2 ⟨hen, hfont, rfl⟩,
    execRefill_next.2 ⟨transfer_refillEnabled hne hen, hfont, rfl⟩, execXfer_next.2 ?_⟩
  rw [State.refilled_inited, State.refilled_activeCh]
  exact ⟨hinit, refilled_armed harmed, transfer_refilled_comm hconfig hring hmarker hpending harmed⟩

end Sys2Proof.Machine
end

section
/-!
Who writes what (R148): O15, the application's turns keep the handler's state, and O16, the other agents' turns keep
the application's.
-/

namespace Sys2Proof.Machine

variable {s t : State}

/-! ## The application's turns -/

/-- What the handler context alone writes is kept, the request is not cleared, and the wake-up latch is not set. -/
abbrev State.keepsHandlerState (s t : State) : Prop :=
  t.vScanline = s.vScanline ∧ t.ch = s.ch ∧ t.marker = s.marker ∧ t.desc = s.desc ∧
    t.armed = s.armed ∧ t.pending = s.pending ∧ t.activeCh = s.activeCh ∧ t.irqEn = s.irqEn ∧
    t.lb = s.lb ∧ t.front = s.front ∧ t.out = s.out ∧
    (s.flipReq = true → t.flipReq = true) ∧ (t.event = true → s.event = true)

/-- An access writes no flag but the wake-up latch, which only a wake writes, and clears (R122, R125). -/
theorem opStep_event {op : HostOp} (h : (s.opStep op).event = true) : s.event = true := by
  cases op with
  | clear | pixel | spanFill => simpa [State.opStep] using h
  | spanCopy b n data => cases data <;> simpa [State.opStep] using h
  | readSpan b n len got =>
    simp only [State.opStep] at h
    split at h <;> simpa using h
  | text b n bytes attr attrNext =>
    cases bytes with
    | nil => exact h
    | cons code rest =>
      simp only [State.opStep] at h
      split at h
      · simpa using h
      · split at h <;> simpa using h
  | waitFlip asleep =>
    cases asleep with
    | true => cases h
    | false => simpa [State.opStep, checkFlip_eq_goOn] using h
  | waitVsync asleep =>
    cases asleep with
    | true => cases h
    | false => simpa [State.opStep, checkVsync_eq_goOn] using h

theorem opStep_keepsHandlerState (op : HostOp) : s.keepsHandlerState (s.opStep op) := by
  refine ⟨?_, ?_, ?_, ?_, ?_, ?_, ?_, ?_, ?_, ?_, ?_, ?_, opStep_event⟩
  all_goals simp

/-- An INIT that leaves the block initialised has counted in `epoch`. -/
theorem exec_init_epoch_ne {width height : Half} {mode : Mode} (h : exec (.init width height mode) s = .next t)
    (hinit : t.inited = true) : t.epoch ≠ s.epoch := by
  rcases execInit_next h with rfl | ⟨sel, -, -, -, rfl⟩
  · simp at hinit
  · simp

theorem exec_reset_not_inited (h : exec .reset s = .next t) : ¬t.inited = true := by
  cases next_eq_iff.1 h
  simp

/-- A host operation that is no successful INIT and no RESET leaves a pending flip pending. -/
theorem exec_host_flipReq {i : Instr} (hf : i.format = .h) (h : exec i s = .next t) (hinit : t.inited = true)
    (hepoch : t.epoch = s.epoch) (hpending : s.flipReq = true) : t.flipReq = true := by
  cases i with
  | init => exact absurd hepoch (exec_init_epoch_ne h hinit)
  | reset => exact absurd hinit (exec_reset_not_inited h)
  | palSet | palGet => cases h; exact hpending
  | flipAsync | flipBlocking => obtain ⟨-, ⟨⟩⟩ := whenInited_next.1 h; rfl
  | flipNow =>
    obtain ⟨-, h⟩ := whenInited_next.1 h
    split at h <;> cases h
    exact hpending
  | waitVsync => obtain ⟨-, ⟨⟩⟩ := whenInited_next.1 h; simpa [checkVsync_eq_goOn] using hpending
  | waitFlip => obtain ⟨-, ⟨⟩⟩ := whenInited_next.1 h; simpa [checkFlip_eq_goOn] using hpending
  | clear => obtain ⟨-, ⟨⟩⟩ := whenInited_next.1 h; simpa using hpending
  | writePixel | writeSpanFill | writeSpanCopy | readSpan =>
    obtain ⟨-, -, -, -, ⟨⟩⟩ := graphicAccess_next.1 h
    simpa using hpending
  | writeText => obtain ⟨-, -, -, ⟨⟩⟩ := textAccess_next.1 h; simpa using hpending
  | _ => cases hf

/-- An initialised block of the same INIT is the outcome of neither INIT nor RESET. -/
theorem exec_host_differsAtHostStart {i : Instr} (hf : i.format = .h) (h : exec i s = .next t)
    (hinit : t.inited = true) (hepoch : t.epoch = s.epoch) : s.differsAtHostStart t := by
  rcases exec_host_next hf h with ⟨width, height, mode, rfl⟩ | rfl | hstart
  · exact absurd hepoch (exec_init_epoch_ne h hinit)
  · exact absurd hinit (exec_reset_not_inited h)
  · exact hstart

theorem exec_host_front {i : Instr} (hf : i.format = .h) (hpolicy : s.plat.flipNow = .refuse)
    (h : exec i s = .next t) (hinit : t.inited = true) (hepoch : t.epoch = s.epoch) : t.front = s.front := by
  rcases exec_host_keepsFront hf hpolicy h with hkept | hreset | hcounted
  · exact hkept
  · simp [hreset] at hinit
  · simp [hcounted] at hepoch

theorem exec_host_keepsHandlerState {i : Instr} (hf : i.format = .h) (hpolicy : s.plat.flipNow = .refuse)
    (h : exec i s = .next t) (hinit : t.inited = true) (hepoch : t.epoch = s.epoch) : s.keepsHandlerState t := by
  have hfront := exec_host_front hf hpolicy h hinit hepoch
  have hrequest := exec_host_flipReq hf h hinit hepoch
  have hstart := exec_host_differsAtHostStart hf h hinit hepoch
  refine ⟨?_, ?_, ?_, ?_, ?_, ?_, ?_, ?_, ?_, hfront, ?_, hrequest, fun hevent => ?event⟩
  case event => rwa [hstart] at hevent
  all_goals rw [hstart]

theorem appTurn_keepsHandlerState (hpolicy : s.plat.flipNow = .refuse) (h : appTurn s = .next t)
    (hinit : t.inited = true) (hepoch : t.epoch = s.epoch) : s.keepsHandlerState t := by
  rcases appTurn_next h with ⟨op, -, rfl⟩ | ⟨-, -, rfl⟩ | ⟨i, rest, -, hd, hexec⟩
  · exact opStep_keepsHandlerState op
  · exact ⟨rfl, rfl, rfl, rfl, rfl, rfl, rfl, rfl, rfl, rfl, rfl, id, id⟩
  · exact exec_host_keepsHandlerState (s := { s with port := rest }) (decodeH_format hd) hpolicy hexec hinit hepoch

/-- Settles O15: a turn of the application is an access, a pass, or the start of a host operation. -/
theorem applicationKeepsHandlerState : Obligations.ApplicationKeepsHandlerState := by
  unfold Obligations.ApplicationKeepsHandlerState
  intro s t hi happ hpolicy _ hinit hepoch h
  rw [step_of_invoke_nil hi, happ] at h
  exact appTurn_keepsHandlerState (s := s.took) hpolicy h hinit hepoch

/-! ## The other agents' turns -/

/-- What the application alone writes reads as before, the request is not set, and the wake-up latch is not
cleared. -/
abbrev State.keepsApplicationState (s t : State) : Prop :=
  (∀ (b : Bool) (a : Nat), t.readFb8 b a = s.readFb8 b a) ∧ (∀ i : Byte, t.readPal i = s.readPal i) ∧
    t.inited = s.inited ∧ t.timing = s.timing ∧ t.mode = s.mode ∧ t.hShift = s.hShift ∧
    t.vShift = s.vShift ∧ t.frameW = s.frameW ∧ t.frameH = s.frameH ∧ t.epoch = s.epoch ∧
    t.port = s.port ∧ t.busy = s.busy ∧ t.reply = s.reply ∧
    (t.flipReq = true → s.flipReq = true) ∧ (s.event = true → t.event = true)

theorem keepsApplicationState_self : s.keepsApplicationState s :=
  ⟨fun _ _ => rfl, fun _ => rfl, rfl, rfl, rfl, rfl, rfl, rfl, rfl, rfl, rfl, rfl, rfl, id, id⟩

/-- PROGRAM writes the two flags of the end of a frame at the wrap only, which clears the request and signals the
event (R82). -/
theorem programChannel_flags (c : Channel) :
    ((s.programChannel c).flipReq = true → s.flipReq = true) ∧
      (s.event = true → (s.programChannel c).event = true) := by
  by_cases hlast : s.vScanline.toNat + 1 = s.vTotal
  case pos => simp [programChannel_of_last c hlast]
  case neg => simp [programChannel_of_not_last c hlast]

theorem refilled_keepsApplicationState : s.keepsApplicationState s.refilled := by
  obtain ⟨hrequest, hevent⟩ := programChannel_flags (s := handlerEntry s) s.ch
  refine ⟨State.readFb8_congr ?_ ?_ ?_, State.readPal_congr ?_, ?_, ?_, ?_, ?_, ?_, ?_, ?_, ?_, ?_, ?_, ?_,
    hrequest, hevent⟩
  all_goals simp

/-- Settles O16: the handler's turn is a REFILL, the ring's a transfer, and the peripheral's changes its own two
lists. -/
theorem otherAgentsKeepApplicationState : Obligations.OtherAgentsKeepApplicationState := by
  unfold Obligations.OtherAgentsKeepApplicationState
  intro s t hi hother h
  have hturn : s.took.keepsApplicationState t := by
    rcases step_next hi h with ⟨happ, -⟩ | ⟨-, hturn⟩ | ⟨-, hturn⟩ | ⟨-, hturn⟩
    · exact absurd happ hother
    · rcases handlerTurn_next hturn with rfl | ⟨-, hexec⟩
      · exact keepsApplicationState_self
      · obtain ⟨-, -, rfl⟩ := execRefill_next.1 hexec
        exact refilled_keepsApplicationState
    · rcases dmaTurn_next hturn with ⟨-, rfl⟩ | ⟨-, hexec⟩
      · exact keepsApplicationState_self
      · obtain ⟨-, -, rfl⟩ := execXfer_next.1 hexec
        exact keepsApplicationState_self (s := s.took)
    · rw [serialTurn_next hturn]
      exact keepsApplicationState_self (s := s.took)
  exact hturn

end Sys2Proof.Machine
end
